-- ==== Sys2Proof/Word.lean ====
section
/-! DEFINITION. Word.lean: the widths of the engine's numbers. -/

namespace Sys2Proof

/-- A byte is 8 bits (00_scope.md R11). -/
abbrev Byte := BitVec 8

/-- One slot of a FIFO: 32 bits (00_scope.md R9 ENTRY_BITS, 10_state.md R31). -/
abbrev Entry := BitVec 32

/-- A host memory address: a number below 2^AW. AW is a parameter (00_scope.md R9, D5), so the width is no part of the
type: every operation that makes an address takes it modulo 2^AW (`wrap`). -/
abbrev Addr := Nat

end Sys2Proof
end

