-- ==== Sys2Proof/Config.lean ====
section
/-! DEFINITION. Config.lean: the parameters of 00_scope.md R9 and the free values. What the source or a decision fixes is
a constant; what R9 calls OPEN ("the model takes it as an argument") is a field of `Params`, which a state carries. -/

namespace Sys2Proof.Config

/-! ### The fixed rows of R9 -/

/-- FIFO_DEPTH (R9). -/
def fifoDepth : Nat := 32
/-- HDR_LEN (R9). -/
def hdrLen : Nat := 8
/-- SLAVE_BUS (R9). -/
def slaveBus : Nat := 2
/-- NONBLOCK_MAX, in bytes (R9). -/
def nonblockMax : Nat := 8
/-- LEN_ZERO_MEANS (R9). -/
def lenZeroMeans : Nat := 65536
/-- BLOCK_ALIGN, in bytes (R9). -/
def blockAlign : Nat := 16
/-- DMA_BURST, in beats (R9). -/
def dmaBurst : Nat := 4
/-- DMA_WIDTH, in bits (R9). -/
def dmaWidth : Nat := 32
/-- DMA_LEN_FACTOR, bytes per unit of command length (R9). -/
def dmaLenFactor : Nat := 4
/-- ERR_OK (R9). -/
def errOk : Byte := 0
/-- ERR_DMA (R9). -/
def errDma : Byte := 3
/-- DBL_MIN (R9). -/
def dblMin : Nat := 4
/-- DBL_MAX (R9). -/
def dblMax : Nat := 32

/-! ### The free values -/

/-- FREE VALUE. The entry a pop of an empty receive FIFO returns (10_state.md R33 (2), "a draw"): the n-th such pop
of a run returns `drawEntry n`. Nothing constrains it (log entry 10). -/
opaque drawEntry : Nat → Entry

/-- FREE VALUE. What the byte at an address holds while nothing has written it (10_state.md R50, "every byte
unspecified"). Nothing constrains it (log entry 9). -/
opaque powerOnByte : Nat → Byte

/-! ### The defaults of NUM_BUS and NUM_DMA_CH -/

/-- The default of NUM_BUS (R9, D6; log entry 1). -/
def defaultNumBus : Nat := 4

/-- The default of NUM_DMA_CH (R9, D44; log entry 1). -/
def defaultNumDmaCh : Nat := 6

end Sys2Proof.Config

namespace Sys2Proof

/-! ### The OPEN rows of R9 -/

/-- OPC: the numbers of the six wire opcodes (30_encoding.md R95, D7; log entry 2). -/
structure Opc where
  readConfig : Byte
  writeConfig : Byte
  readDataByte : Byte
  writeDataByte : Byte
  readDataBlock : Byte
  writeDataBlock : Byte
deriving DecidableEq, Repr

/-- The default of OPC: "numbers the source's list from 0" (R95). -/
def Opc.default : Opc := ⟨0, 1, 2, 3, 4, 5⟩

/-- The non-block opcodes (30_encoding.md R96). -/
def Opc.nonBlock (o : Opc) : List Byte := [o.readConfig, o.writeConfig, o.readDataByte, o.writeDataByte]

/-- The block opcodes (30_encoding.md R96). -/
def Opc.block (o : Opc) : List Byte := [o.readDataBlock, o.writeDataBlock]

/-- The two constraints that every choice of OPC must meet (R95): the six values are distinct, and each non-block value
is below each block value. -/
abbrev Opc.Legal (o : Opc) : Prop :=
  (o.nonBlock ++ o.block).Nodup ∧ ∀ x ∈ o.nonBlock, ∀ y ∈ o.block, x.toNat < y.toNat

/-- The direction of a DMA request line (44_dma.md R280). -/
inductive LineDir
  | rx
  | tx
deriving DecidableEq, Repr

/-- A box of framing combinations: every choice of one value from each list (41_master.md R182). -/
structure FramingBox where
  instrLens : List Byte
  addrLens : List Byte
  waitCycles : List Byte
deriving DecidableEq, Repr

/-- What becomes of a DMA transfer still armed when its protocol cycle ends (44_dma.md R279, D27). -/
inductive OrphanDma
  | live
  | stopped
deriving DecidableEq, Repr

/-- The OPEN parameters of 00_scope.md R9 but NUM_BUS and NUM_DMA_CH, which are the numbers of buses and of channels that
a state holds (`State.numBus`, `State.numDmaCh`). Plain data: a state carries it, no step changes it, and a statement about
every state is a statement about every value of the parameters (log entries 1 to 6). -/
structure Params where
  /-- NUM_CS (D6). -/
  numCs : Nat
  /-- AW (D5). -/
  aw : Nat
  /-- OPC (D7). -/
  opc : Opc
  /-- ERR_RX (D8). -/
  errRx : Byte
  /-- ERR_TX (D8). -/
  errTx : Byte
  /-- ReqLine(bus, RX) and ReqLine(bus, TX) of bus 0, 1, … (44_dma.md R280); a bus beyond the list has the default numbers. -/
  reqLines : List (Nat × Nat)
  /-- WM_OFF (10_state.md R42, D41). -/
  wmOff : BitVec 5
  /-- OE_OFF. -/
  oeOff : BitVec 5
  /-- FS_OFF. -/
  fsOff : BitVec 5
  /-- NonStdSupported (D37), as a union of boxes; every set of combinations is one. -/
  nonStd : List FramingBox
  /-- ORPHAN_DMA (D27). -/
  orphanDma : OrphanDma
deriving DecidableEq, Repr

/-- The defaults of R9 (D5 to D8, D27, D37, D41, D44). -/
def Params.default : Params :=
  { numCs := 4, aw := 32, opc := .default, errRx := 1, errTx := 2, reqLines := [], wmOff := 6, oeOff := 10, fsOff := 16,
    nonStd := [⟨[0, 4, 8, 16], (List.range 16).map fun k => BitVec.ofNat 8 (4 * k), (List.range 32).map (BitVec.ofNat 8)⟩],
    orphanDma := .live }

end Sys2Proof
end

