-- ==== Sys2Proof/Syntax.lean ====
section
/-! DEFINITION. Syntax.lean: the thirteen operations of the engine (00_scope.md R3), one constructor per row of
spec/opcode_table.json, with the fields of the two formats HDR (30_encoding.md R91) and HREQ (R102, R103). -/

namespace Sys2Proof

/-- An operation. The six wire commands carry the header's address, its 16-bit length field and its checksum byte
as they stand on the wire. Numbers the spec gives no width (bus, chip select, data-bit-length, pins, channel, callback
handle), and addresses, whose width is a parameter, are Nat; `WellFormed` bounds them by the request record (log entry 28). -/
inductive Instr
  | readConfig (addr : BitVec 32) (len : BitVec 16) (sum : Byte)
  | writeConfig (addr : BitVec 32) (len : BitVec 16) (sum : Byte)
  | readDataByte (addr : BitVec 32) (len : BitVec 16) (sum : Byte)
  | writeDataByte (addr : BitVec 32) (len : BitVec 16) (sum : Byte)
  | readDataBlock (addr : BitVec 32) (len : BitVec 16) (sum : Byte)
  | writeDataBlock (addr : BitVec 32) (len : BitVec 16) (sum : Byte)
  | send (bus cs : Nat) (txBuf : Addr) (txLen : BitVec 32)
  | recv (bus cs : Nat) (cmdBuf : Addr) (cmdLen : BitVec 32) (rxBuf : Addr) (rxLen : BitVec 32)
  | sendw (bus cs : Nat) (cmdwBuf : Addr) (cmdwCnt : BitVec 32) (txBuf : Addr) (txLen : BitVec 32)
  | recvw (bus cs : Nat) (cmdwBuf : Addr) (cmdwCnt : BitVec 32) (rxBuf : Addr) (rxLen : BitVec 32)
  | busConfig (bus dbl : Nat) (workMode : BitVec 2)
  | nonstdConfig (bus : Nat) (instrLen addrLen waitCycles : BitVec 8)
  | slaveConfig (intPin rdyPin dmaCh dbl : Nat) (cfgPtr : Addr) (cfgLen : BitVec 32) (cb : Option Nat)
deriving DecidableEq, Repr

/-- The two formats (30_encoding.md R90). -/
inductive Format
  | hdr
  | hreq
deriving DecidableEq, Repr

/-- Which format an operation is written in (the "format" column of spec/opcode_table.json). -/
def Instr.format : Instr → Format
  | .readConfig _ _ _ => .hdr
  | .writeConfig _ _ _ => .hdr
  | .readDataByte _ _ _ => .hdr
  | .writeDataByte _ _ _ => .hdr
  | .readDataBlock _ _ _ => .hdr
  | .writeDataBlock _ _ _ => .hdr
  | .send _ _ _ _ => .hreq
  | .recv _ _ _ _ _ _ => .hreq
  | .sendw _ _ _ _ _ _ => .hreq
  | .recvw _ _ _ _ _ _ => .hreq
  | .busConfig _ _ _ => .hreq
  | .nonstdConfig _ _ _ _ => .hreq
  | .slaveConfig _ _ _ _ _ _ _ => .hreq

end Sys2Proof
end

