-- ==== Sys2Proof/Decode.lean ====
section
/-! DEFINITION. Decode.lean: the decoder of the two formats, total on any bytes, and after it the encoder. -/

namespace Sys2Proof

/-! ### Bytes of a number, and a number of its bytes (20_memory.md R61, R62: little-endian) -/

/-- Byte `k` of `v`: bits 8k+7:8k. -/
def byteOf {w : Nat} (v : BitVec w) (k : Nat) : Byte := (v >>> (8 * k)).setWidth 8

/-- The 16-bit number of two bytes, the low one first. -/
def le16 (b0 b1 : Byte) : BitVec 16 := b0.setWidth 16 ||| b1.setWidth 16 <<< 8

/-- The 32-bit number of four bytes, the low one first (30_encoding.md R93). -/
def le32 (b0 b1 b2 b3 : Byte) : BitVec 32 :=
  b0.setWidth 32 ||| b1.setWidth 32 <<< 8 ||| b2.setWidth 32 <<< 16 ||| b3.setWidth 32 <<< 24

/-- The low `n` bytes of a number, the low one first. -/
def natBytes : Nat → Nat → List Byte
  | 0, _ => []
  | n + 1, v => BitVec.ofNat 8 (v % 256) :: natBytes n (v / 256)

/-- The number of a list of bytes, the low one first. -/
def leNat : List Byte → Nat
  | [] => 0
  | b :: bytes => b.toNat + 256 * leNat bytes

/-- The eight bytes of a word of the request record, the low one first. -/
def wordBytes (v : Nat) : List Byte := natBytes 8 v

/-- The words of a list of bytes, eight bytes each; bytes after the last whole word are dropped. -/
def wordsOf : List Byte → List Nat
  | b0 :: b1 :: b2 :: b3 :: b4 :: b5 :: b6 :: b7 :: rest => leNat [b0, b1, b2, b3, b4, b5, b6, b7] :: wordsOf rest
  | _ => []

/-! ### The command header HDR (30_encoding.md R91 to R100) -/

/-- "checksum = sum of bytes 0..6 mod 256" (R91, R92). -/
def checksum (bytes : List Byte) : Byte := BitVec.ofNat 8 (bytes.map BitVec.toNat).sum

/-- Bytes 0 to 6 of a header (R91). -/
def headerBody (op : Byte) (addr : BitVec 32) (len : BitVec 16) : List Byte :=
  [op, byteOf addr 0, byteOf addr 1, byteOf addr 2, byteOf addr 3, byteOf len 0, byteOf len 1]

/-- The checksum byte a header with these fields must carry (R92). -/
def headerSum (op : Byte) (addr : BitVec 32) (len : BitVec 16) : Byte := checksum (headerBody op addr len)

/-- "length value 0 is reinterpreted as 65536" (R94). -/
def decodedLen (len : BitVec 16) : Nat := if len.toNat = 0 then Config.lenZeroMeans else len.toNat

/-- Why the decoder refuses bytes. -/
inductive DecodeError
  /-- Not 8 bytes of a header, or not 72 bytes of a request record. -/
  | wrongByteCount (n : Nat)
  /-- An opcode byte that is none of the six (R100 (3)). -/
  | unknownOpcode (op : Byte)
  /-- A request code that is none of the seven (R102). -/
  | unknownRequest (code : Nat)
  /-- A bit set where the record of this request has none. -/
  | strayBits
deriving DecidableEq, Repr

/-- The operation an 8-byte header names (R91, R95), under an opcode map. The opcode byte selects it; the checksum byte and
the length are its operands, tested by its meaning in the order of R101 (log entry 15). DESIGN CHOICE, safe. -/
def decodeHeader (o : Opc) : List Byte → Except DecodeError Instr
  | [h0, h1, h2, h3, h4, h5, h6, h7] =>
    if h0 = o.readConfig then .ok (.readConfig (le32 h1 h2 h3 h4) (le16 h5 h6) h7)
    else if h0 = o.writeConfig then .ok (.writeConfig (le32 h1 h2 h3 h4) (le16 h5 h6) h7)
    else if h0 = o.readDataByte then .ok (.readDataByte (le32 h1 h2 h3 h4) (le16 h5 h6) h7)
    else if h0 = o.writeDataByte then .ok (.writeDataByte (le32 h1 h2 h3 h4) (le16 h5 h6) h7)
    else if h0 = o.readDataBlock then .ok (.readDataBlock (le32 h1 h2 h3 h4) (le16 h5 h6) h7)
    else if h0 = o.writeDataBlock then .ok (.writeDataBlock (le32 h1 h2 h3 h4) (le16 h5 h6) h7)
    else .error (.unknownOpcode h0)
  | bytes => .error (.wrongByteCount bytes.length)

/-! ### The request record HREQ (30_encoding.md R102, R103)

The source gives calls and no bit layout. The record is nine little-endian 64-bit words: word 0 is the request code,
words 1 to 8 the operands in the order of R102, unused words and unused high bits 0 (log entry 12). DESIGN CHOICE, safe. -/

/-- HREQ record length in bytes. -/
def recordLen : Nat := 72

/-- The request the nine words of a record stand for. An operand to which R103 gives a width (a byte count, a word count,
work_mode, the three framing fields) has no bits above it: a record that sets one is no record of the request. An operand
without one (bus, chip_select, dbl, pins, dma_ch, the handle), or with the width of a parameter (an address), takes any
value of its word: R103's "4 to 32" for dbl is a range the operation checks, not a width (D2; log entries 12, 28). DESIGN
CHOICE, safe. -/
def decodeWords : List Nat → Except DecodeError Instr
  | [c, a, b, d, e, f, g, h, k] =>
    match c with
    | 0 =>
      if e < 2 ^ 32 ∧ f = 0 ∧ g = 0 ∧ h = 0 ∧ k = 0 then .ok (.send a b d (BitVec.ofNat 32 e)) else .error .strayBits
    | 1 =>
      if e < 2 ^ 32 ∧ g < 2 ^ 32 ∧ h = 0 ∧ k = 0 then .ok (.recv a b d (BitVec.ofNat 32 e) f (BitVec.ofNat 32 g))
      else .error .strayBits
    | 2 =>
      if e < 2 ^ 32 ∧ g < 2 ^ 32 ∧ h = 0 ∧ k = 0 then .ok (.sendw a b d (BitVec.ofNat 32 e) f (BitVec.ofNat 32 g))
      else .error .strayBits
    | 3 =>
      if e < 2 ^ 32 ∧ g < 2 ^ 32 ∧ h = 0 ∧ k = 0 then .ok (.recvw a b d (BitVec.ofNat 32 e) f (BitVec.ofNat 32 g))
      else .error .strayBits
    | 4 =>
      if d < 4 ∧ e = 0 ∧ f = 0 ∧ g = 0 ∧ h = 0 ∧ k = 0 then .ok (.busConfig a b (BitVec.ofNat 2 d))
      else .error .strayBits
    | 5 =>
      if b < 256 ∧ d < 256 ∧ e < 256 ∧ f = 0 ∧ g = 0 ∧ h = 0 ∧ k = 0 then
        .ok (.nonstdConfig a (BitVec.ofNat 8 b) (BitVec.ofNat 8 d) (BitVec.ofNat 8 e)) else .error .strayBits
    | 6 =>
      if g < 2 ^ 32 ∧ h = 0 ∧ k = 0 then .ok (.slaveConfig a b d e f (BitVec.ofNat 32 g) none)
      else if g < 2 ^ 32 ∧ h = 1 then .ok (.slaveConfig a b d e f (BitVec.ofNat 32 g) (some k))
      else .error .strayBits
    | n => .error (.unknownRequest n)
  | words => .error (.wrongByteCount (8 * words.length))

/-- The request the bytes of a record stand for. -/
def decodeRequest (bytes : List Byte) : Except DecodeError Instr :=
  if bytes.length = recordLen then decodeWords (wordsOf bytes) else .error (.wrongByteCount bytes.length)

/-- The decoder: what the bytes stand for in a given format, under an opcode map. -/
def decode (o : Opc) : Format → List Byte → Except DecodeError Instr
  | .hdr, bytes => decodeHeader o bytes
  | .hreq, bytes => decodeRequest bytes

/-! ### The encoder -/

/-- EncodeHdr with a given checksum byte: the eight bytes of a header (R91, R99). -/
def headerBytes (op : Byte) (addr : BitVec 32) (len : BitVec 16) (sum : Byte) : List Byte :=
  headerBody op addr len ++ [sum]

/-- EncodeHdr(op, address, len16) (R99): the header with its proper checksum. -/
def encodeHdr (op : Byte) (addr : BitVec 32) (len : BitVec 16) : List Byte :=
  headerBytes op addr len (headerSum op addr len)

/-- The nine words of a request record; none for a wire command. -/
def requestWords : Instr → List Nat
  | .send bus cs buf len => [0, bus, cs, buf, len.toNat, 0, 0, 0, 0]
  | .recv bus cs cbuf clen rbuf rlen => [1, bus, cs, cbuf, clen.toNat, rbuf, rlen.toNat, 0, 0]
  | .sendw bus cs cbuf ccnt buf len => [2, bus, cs, cbuf, ccnt.toNat, buf, len.toNat, 0, 0]
  | .recvw bus cs cbuf ccnt rbuf rlen => [3, bus, cs, cbuf, ccnt.toNat, rbuf, rlen.toNat, 0, 0]
  | .busConfig bus dbl wm => [4, bus, dbl, wm.toNat, 0, 0, 0, 0, 0]
  | .nonstdConfig bus il al wc => [5, bus, il.toNat, al.toNat, wc.toNat, 0, 0, 0, 0]
  | .slaveConfig ip rp ch dbl ptr len none => [6, ip, rp, ch, dbl, ptr, len.toNat, 0, 0]
  | .slaveConfig ip rp ch dbl ptr len (some h) => [6, ip, rp, ch, dbl, ptr, len.toNat, 1, h]
  | .readConfig _ _ _ => []
  | .writeConfig _ _ _ => []
  | .readDataByte _ _ _ => []
  | .writeDataByte _ _ _ => []
  | .readDataBlock _ _ _ => []
  | .writeDataBlock _ _ _ => []

/-- The bytes of a request record. -/
def requestBytes (i : Instr) : List Byte := (requestWords i).flatMap wordBytes

/-- The bytes of an operation in its format, under an opcode map. -/
def encode (o : Opc) : Instr → List Byte
  | .readConfig addr len sum => headerBytes o.readConfig addr len sum
  | .writeConfig addr len sum => headerBytes o.writeConfig addr len sum
  | .readDataByte addr len sum => headerBytes o.readDataByte addr len sum
  | .writeDataByte addr len sum => headerBytes o.writeDataByte addr len sum
  | .readDataBlock addr len sum => headerBytes o.readDataBlock addr len sum
  | .writeDataBlock addr len sum => headerBytes o.writeDataBlock addr len sum
  | .send bus cs buf len => requestBytes (.send bus cs buf len)
  | .recv bus cs cb cl rb rl => requestBytes (.recv bus cs cb cl rb rl)
  | .sendw bus cs cb cc tb tl => requestBytes (.sendw bus cs cb cc tb tl)
  | .recvw bus cs cb cc rb rl => requestBytes (.recvw bus cs cb cc rb rl)
  | .busConfig bus dbl wm => requestBytes (.busConfig bus dbl wm)
  | .nonstdConfig bus il al wc => requestBytes (.nonstdConfig bus il al wc)
  | .slaveConfig ip rp ch dbl ptr len cb => requestBytes (.slaveConfig ip rp ch dbl ptr len cb)

/-! ### The host's probe -/

/-- spec/opcode_table.json gives a header row 64 bits and a request row the 8 bits of its code: a 64-bit word is read
as a header, any other as a request record whose further bits are 0 (log entry 27). -/
def tableFormat (nbits : Nat) : Format := if nbits = 64 then .hdr else .hreq

/-- The bytes of a table word: the first byte at the lowest place. -/
def tableBytes (nbits w : Nat) : List Byte :=
  match tableFormat nbits with
  | .hdr => natBytes Config.hdrLen w
  | .hreq => natBytes recordLen w

/-- The operation the decoder reads from a word numbered as the opcode table numbers it, which uses the default OPC. -/
def decodeTableWord (nbits w : Nat) : Option Instr :=
  (decode .default (tableFormat nbits) (tableBytes nbits w)).toOption

end Sys2Proof
end

