-- ==== Sys2Proof/Machine/State.lean ====
section
/-! DEFINITION. Machine/State.lean: the state of the engine and of the environment that rules read (10_state.md R20 to
R54), plain data; the reasons a step can stop; the state after reset (R53). -/

namespace Sys2Proof.Machine

/-! ### Groups of the state -/

/-- DIR: TRANSMIT_ONLY 1, RECEIVE_ONLY 2, READ_AFTER_WRITE 3; "the number 0 is reserved and no rule writes it" (R26). -/
inductive Dir
  | reserved
  | transmitOnly
  | receiveOnly
  | readAfterWrite
deriving DecidableEq, Repr

/-- Controller registers and FIFOs of one bus (group a, R24 to R34). `dblWritten` is the model's own: whether a rule
has written DBL, which R343 makes a fault to read before (log entry 8). CS is a mask of NUM_CS bits, bit k for chip-select
k, written as a number because NUM_CS is a parameter. The head of a FIFO is the head of its list. -/
structure Bus where
  en : Bool
  cs : Nat
  dir : Dir
  workMode : BitVec 2
  outEn : Bool
  frameBits : BitVec 6
  dbl : BitVec 6
  dblWritten : Bool
  rxcnt : BitVec 32
  busy : Bool
  tx : List Entry
  rx : List Entry
  instrLen : BitVec 8
  addrLen : BitVec 8
  waitCycles : BitVec 8
deriving DecidableEq, Repr

/-- SLV_STATUS (R37). -/
inductive SlvStatus
  | idle
  | command
  | transfer
deriving DecidableEq, Repr

/-- Where the SLAVE agent stands inside the Transfer phase (42_slave_fsm.md R198, R208): no handler in progress; T1 done
and T2 next; the callback of T2 running in the host; T3 next (log entry 18). -/
inductive Handler
  | none
  | callbackDue
  | inCallback
  | rearmDue
deriving DecidableEq, Repr

/-- The Slave Instance State (group b, R35 to R42, R45). -/
structure Slave where
  active : Bool
  status : SlvStatus
  handler : Handler
  cfgPtr : Addr
  cfgLen : BitVec 32
  cb : Option Nat
  dmaCh : Nat
  rdyPin : Nat
  intPin : Nat
  wmOff : BitVec 5
  oeOff : BitVec 5
  fsOff : BitVec 5
  edgePend : Bool
deriving DecidableEq, Repr

/-- The Command Descriptor (group c, R43): CMD_OP, CMD_ADDR, CMD_LEN, CMD_ERR. -/
structure Descriptor where
  op : Byte
  addr : BitVec 32
  len : BitVec 17
  err : Byte
deriving DecidableEq, Repr

/-- MST_PHASE (R47). -/
inductive MstPhase
  | idle
  | cmd
  | fill
  | wait
  | drain
  | fin
deriving DecidableEq, Repr

/-- M_OP (R47). -/
inductive MstOp
  | send
  | recv
  | sendw
  | recvw
deriving DecidableEq, Repr

/-- The master engine's sequencer and operand registers (group d, R47). -/
structure Master where
  phase : MstPhase
  op : MstOp
  bus : Nat
  csel : Nat
  cmdPtr : Addr
  cmdCnt : Nat
  buf : Addr
  rem : Nat
  idx : Nat
  w : Nat
deriving DecidableEq, Repr

/-- A DMA source or destination: "either a memory address or the data register of a bus" (R49). -/
inductive DmaEnd
  | mem (a : Addr)
  | dr (bus : Nat)
deriving DecidableEq, Repr

/-- FIXED or INCREMENT (R49). -/
inductive DmaMode
  | fixed
  | increment
deriving DecidableEq, Repr

/-- The state of one DMA channel (group f, R49). -/
structure DmaChannel where
  line : Nat
  armed : Bool
  src : DmaEnd
  dst : DmaEnd
  srcMode : DmaMode
  dstMode : DmaMode
  burst : Nat
  width : Nat
  rem : Nat
  done : Bool
deriving DecidableEq, Repr

/-! ### The history -/

/-- The abort causes of 60_exceptions.md R302. -/
inductive AbortCause
  | busOutOfRange
  | slaveBusInMaster
  | unsupportedFraming
  | badConfig
deriving DecidableEq, Repr

/-- The recorded faults: an abort, an engine push to a full transmit FIFO, an environment push to a full receive FIFO
(R33, R301). After each the spec says how the machine goes on (log entry 14). -/
inductive FaultNote
  | abort (cause : AbortCause)
  | txOverflow (bus : Nat)
  | rxOverflow (bus : Nat)
deriving DecidableEq, Repr

/-- Collaborator calls (60_exceptions.md R321 to R325), outputs of the engine. Priorities, levels and handlers, which
nothing depends on, are left out (R324). -/
inductive Collab
  | clockEnable (bus : Nat)
  | setDriveMode (pin : Nat) (output : Bool)
  | setEdgeTriggerRising (pin : Nat)
  | registerEdgeCallback (pin : Nat)
  | intcSetPriority
  | intcRegister
  | intcEnable
  | dmaSelect (ch line : Nat)
deriving DecidableEq, Repr

/-- The events of R51, and the collaborator calls. -/
inductive Event
  | wireOut (bus : Nat) (e : Entry)
  | wireIn (bus : Nat) (e : Entry)
  | pin (pin : Nat) (level : Bool)
  | edge
  | callback (d : Descriptor)
  | dmaArmed (ch : Nat) (src dst : DmaEnd) (srcMode dstMode : DmaMode) (burst width length : Nat)
  | memW (a : Addr) (n : Nat) (v : Entry)
  | memR (a : Addr) (n : Nat)
  | fault (f : FaultNote)
  | collab (c : Collab)
deriving DecidableEq, Repr

/-! ### The schedule -/

/-- One turn of one agent (R22), with what the environment supplies in it: a request record of the HOST, a byte the
HOST writes to memory, the HOST's return from the callback, a step of MASTER or of SLAVE, a pop, a push or a change of
BUSY by LINK, an edge or an entry in or out by REMOTE, a beat of a DMA channel (log entry 11). -/
inductive Action
  | request (bytes : List Byte)
  | hostWrite (a : Addr) (b : Byte)
  | callbackReturn
  | master
  | slave
  | linkOut (bus : Nat)
  | linkIn (bus : Nat) (e : Entry)
  | linkBusy (bus : Nat) (busy : Bool)
  | edge
  | remoteIn (e : Entry)
  | remoteOut
  | dma (ch : Nat)
deriving DecidableEq, Repr

/-! ### Reasons to stop -/

/-- Why a step faults. -/
inductive Fault
  /-- A master operation on a bus whose DBL no rule has written, `UninitRead(DBL[bus])` (10_state.md R28,
  70_reset_and_hazards.md R343). Raised by SEND, RECV, SENDW and RECVW. Safe: the model stops, as R343 says it must. -/
  | uninitRead (bus : Nat)
deriving DecidableEq, Repr

/-- Why a step is refused. -/
inductive Refusal
  /-- The instruction has no meaning yet. Raised by a refused arm of `exec`; there is none. Safe. -/
  | notModelled (mnemonic : String)
deriving DecidableEq, Repr

/-! ### The state -/

/-- Everything the spec gives the machine (R20), the history (R51), and the model's own: `draws` (how many free entries
have been drawn), `sched` (the turns still to come), and `par`, the OPEN parameters of 00_scope.md R9, which no step writes
(log entries 1 to 6). Bus i is entry i of `buses` and channel c entry c of `dma`; their numbers are NUM_BUS and NUM_DMA_CH.
`rdyDriven` says whether the ready pin has been driven since the last SLAVE_CONFIG began (R46, R291; log entry 21). Memory
is sorted by address (log entry 9); the history is newest first. -/
structure State where
  par : Params
  buses : List Bus
  slv : Slave
  cmd : Descriptor
  hdr : Vector Byte 8
  mst : Master
  fatal : Bool
  fatalCause : BitVec 3
  rdy : Bool
  rdyDriven : Bool
  dma : List DmaChannel
  mem : List Host.Cell
  hist : List Event
  draws : Nat
  sched : List Action
deriving DecidableEq, Repr

/-! ### Reset (R53, R340). Values R53 leaves unspecified are 0, FIXED, reserved, SEND or low: DESIGN CHOICE, unsafe,
log entry 7. -/

/-- A bus after reset: disabled, chip-selects off, FIFOs empty, not busy. -/
def Bus.reset : Bus :=
  { en := false, cs := 0, dir := .reserved, workMode := 0, outEn := false, frameBits := 0, dbl := 0, dblWritten := false,
    rxcnt := 0, busy := false, tx := [], rx := [], instrLen := 0, addrLen := 0, waitCycles := 0 }

/-- No slave instance: not active, Idle, no callback, no pending edge. -/
def Slave.reset : Slave :=
  { active := false, status := .idle, handler := .none, cfgPtr := 0, cfgLen := 0, cb := none, dmaCh := 0, rdyPin := 0,
    intPin := 0, wmOff := 0, oeOff := 0, fsOff := 0, edgePend := false }

/-- The descriptor after reset. -/
def Descriptor.reset : Descriptor := { op := 0, addr := 0, len := 0, err := 0 }

/-- The master engine after reset: no operation in progress. -/
def Master.reset : Master :=
  { phase := .idle, op := .send, bus := 0, csel := 0, cmdPtr := 0, cmdCnt := 0, buf := 0, rem := 0, idx := 0, w := 0 }

/-- A DMA channel after reset: not armed, not done. -/
def DmaChannel.reset : DmaChannel :=
  { line := 0, armed := false, src := .mem 0, dst := .mem 0, srcMode := .fixed, dstMode := .fixed, burst := 0,
    width := 0, rem := 0, done := false }

/-- The machine right after reset (R53), under given parameters: "after reset the engine does nothing until a host request
arrives" (R341). -/
def State.resetOf (p : Params) (numBus numDmaCh : Nat) : State :=
  { par := p, buses := List.replicate numBus Bus.reset, slv := Slave.reset, cmd := Descriptor.reset,
    hdr := Vector.replicate 8 0, mst := Master.reset, fatal := false, fatalCause := 0, rdy := false, rdyDriven := false,
    dma := List.replicate numDmaCh DmaChannel.reset, mem := [], hist := [], draws := 0, sched := [] }

/-- The machine right after reset, under the spec's default parameters (00_scope.md R9). -/
def State.reset : State := State.resetOf .default Config.defaultNumBus Config.defaultNumDmaCh

end Sys2Proof.Machine
end

