-- ==== Sys2Proof/Machine/Ops.lean ====
section
/-! DEFINITION. Machine/Ops.lean: the named operations over memory, FIFOs, registers, pins and DMA channels, and the
abort (60_exceptions.md R301). Each is a total function of the state. -/

namespace Sys2Proof.Machine

/-! ### The parameters (00_scope.md R9) -/

/-- NUM_BUS. -/
def State.numBus (s : State) : Nat := s.buses.length

/-- NUM_DMA_CH. -/
def State.numDmaCh (s : State) : Nat := s.dma.length

/-- ReqLine(bus, dir) (44_dma.md R280, D44). -/
def reqLine (p : Params) (bus : Nat) (dir : LineDir) : Nat :=
  let line := p.reqLines.getD bus (2 * bus, 2 * bus + 1)
  match dir with
  | .rx => line.1
  | .tx => line.2

end Sys2Proof.Machine

namespace Sys2Proof

/-- What the spec asks of the parameters: the constraints of OPC (30_encoding.md R95); the error codes "must be non-zero,
distinct, and not 3" (D8); an address is at least as wide as the wire address, which is zero-extended to it
(30_encoding.md R93); ReqLine is "an injective map from (bus, `RX` or `TX`) to line numbers" (44_dma.md R280; that the map is
over all bus numbers is log entry 4). -/
structure Params.Legal (p : Params) : Prop where
  opc : p.opc.Legal
  errors : p.errRx ≠ 0 ∧ p.errTx ≠ 0 ∧ p.errRx ≠ p.errTx ∧ p.errRx ≠ 3 ∧ p.errTx ≠ 3
  aw : 32 ≤ p.aw
  lines : ∀ bus dir bus' dir', Machine.reqLine p bus dir = Machine.reqLine p bus' dir' → bus = bus' ∧ dir = dir'

end Sys2Proof

namespace Sys2Proof.Machine

/-- NonStdSupported(instr_len, addr_len, wait_cycles) (41_master.md R182, D37). -/
def nonStdSupported (p : Params) (instrLen addrLen waitCycles : Byte) : Bool :=
  p.nonStd.any fun b =>
    b.instrLens.contains instrLen && b.addrLens.contains addrLen && b.waitCycles.contains waitCycles

/-- An address of AW bits: "addr + j wraps modulo 2^AW" (00_scope.md R14). -/
def wrap (aw a : Nat) : Addr := a % 2 ^ aw

/-! ### One home for every register -/

/-- The registers of bus `i`; a bus that does not exist reads as after reset. -/
def State.bus (s : State) (i : Nat) : Bus := s.buses.getD i Bus.reset

/-- Writes the registers of bus `i`; a bus that does not exist has none. -/
def State.setBus (i : Nat) (b : Bus) (s : State) : State := { s with buses := s.buses.set i b }

/-- The state of DMA channel `c`. -/
def State.chan (s : State) (c : Nat) : DmaChannel := s.dma.getD c DmaChannel.reset

/-- Writes the state of DMA channel `c`. -/
def State.setChan (c : Nat) (d : DmaChannel) (s : State) : State := { s with dma := s.dma.set c d }

/-- Writes the Slave Instance State. -/
def State.setSlv (v : Slave) (s : State) : State := { s with slv := v }

/-- Writes the Command Descriptor. -/
def State.setCmd (d : Descriptor) (s : State) : State := { s with cmd := d }

/-- Writes the header scratch. -/
def State.setHdr (h : Vector Byte 8) (s : State) : State := { s with hdr := h }

/-- Writes the master engine's registers. -/
def State.setMst (m : Master) (s : State) : State := { s with mst := m }

/-- Writes host memory. -/
def State.setMem (m : List Host.Cell) (s : State) : State := { s with mem := m }

/-- Adds an event to the history (R51). -/
def State.note (e : Event) (s : State) : State := { s with hist := e :: s.hist }

/-- Counts one draw. -/
def State.drawn (s : State) : State := { s with draws := s.draws + 1 }

/-- Takes the schedule's first turn away. -/
def State.setSched (l : List Action) (s : State) : State := { s with sched := l }

/-! ### Host memory (10_state.md R50, 00_scope.md R14) -/

/-- The byte listed at an address, if one is. -/
def lookup : List Host.Cell → Nat → Option Byte
  | [], _ => none
  | (a, b) :: rest, k => if a = k then some b else lookup rest k

/-- Lists a byte at an address, keeping the addresses rising. -/
def insert : List Host.Cell → Nat → Byte → List Host.Cell
  | [], k, v => [(k, v)]
  | (a, b) :: rest, k, v =>
    if k < a then (k, v) :: (a, b) :: rest
    else if k = a then (k, v) :: rest
    else (a, b) :: insert rest k v

/-- The canonical form: addresses strictly rising and below 2^AW. An unlisted address lists no byte, so no entry can
equal what an unlisted address lists (log entry 9). -/
abbrev Memory.wf (aw : Nat) (m : List Host.Cell) : Prop :=
  m.Pairwise (fun x y => x.1 < y.1) ∧ ∀ c ∈ m, c.1 < 2 ^ aw

/-- What an unlisted address reads as: the free byte of that address. -/
def unlistedByte (k : Nat) : Byte := Config.powerOnByte k

/-- The byte host memory holds at an address. -/
def byteAt (m : List Host.Cell) (a : Addr) : Byte := (lookup m a).getD (unlistedByte a)

/-- `n` bytes from an address as a little-endian number; addresses wrap (R14). -/
def loadBytes (aw : Nat) (m : List Host.Cell) (a : Addr) : Nat → Entry
  | 0 => 0
  | n + 1 => (byteAt m (wrap aw a)).setWidth 32 ||| loadBytes aw m (a + 1) n <<< 8

/-- Stores the low `n` bytes of a number little-endian from an address; addresses wrap (R14). -/
def storeBytes (aw : Nat) (m : List Host.Cell) (a : Addr) : Nat → Entry → List Host.Cell
  | 0, _ => m
  | n + 1, v => storeBytes aw (insert m (wrap aw a) (v.setWidth 8)) (a + 1) n (v >>> 8)

/-- The low `n` bytes of a number. -/
def lowBytes (n : Nat) (v : Entry) : Entry := BitVec.ofNat 32 (v.toNat % 2 ^ (8 * n))

/-- MemRead(addr, n) (R14): one access, which the history records. -/
def memRead (a : Addr) (n : Nat) (s : State) : Entry × State := (loadBytes s.par.aw s.mem a n, s.note (.memR a n))

/-- MemWrite(addr, n, v) (R14): one access, which the history records. -/
def memWrite (a : Addr) (n : Nat) (v : Entry) (s : State) : State :=
  (s.setMem (storeBytes s.par.aw s.mem a n v)).note (.memW a n (lowBytes n v))

/-! ### FIFOs (00_scope.md R15, 10_state.md R31 to R33) -/

/-- TxLevel(i). -/
def txLevel (i : Nat) (s : State) : Nat := (s.bus i).tx.length

/-- RxLevel(i). -/
def rxLevel (i : Nat) (s : State) : Nat := (s.bus i).rx.length

/-- TxPush(i, v): at the tail; on a full FIFO "the entry is lost and the model records the fault TxOverflow(i)" (R33 (1)). -/
def txPush (i : Nat) (v : Entry) (s : State) : State :=
  if txLevel i s < Config.fifoDepth then s.setBus i { s.bus i with tx := (s.bus i).tx ++ [v] }
  else s.note (.fault (.txOverflow i))

/-- RxPop(i): the head; on an empty FIFO a draw, and the FIFO stays empty (R33 (2)). -/
def rxPop (i : Nat) (s : State) : Entry × State :=
  match (s.bus i).rx with
  | e :: rest => (e, s.setBus i { s.bus i with rx := rest })
  | [] => (Config.drawEntry s.draws, s.drawn)

/-- `x[EN[i]] <- v`; writing 0 empties both FIFOs (R24, R33 (3)). -/
def setEnable (i : Nat) (v : Bool) (s : State) : State :=
  if v then s.setBus i { s.bus i with en := true }
  else s.setBus i { s.bus i with en := false, tx := [], rx := [] }

/-! ### The fatal state -/

/-- The numbers of the abort causes (60_exceptions.md R302). -/
def AbortCause.code : AbortCause → BitVec 3
  | .busOutOfRange => 1
  | .slaveBusInMaster => 2
  | .unsupportedFraming => 3
  | .badConfig => 4

/-- `raise Abort(cause)`, in one step (60_exceptions.md R301). -/
def raiseAbort (cause : AbortCause) (s : State) : State :=
  { s with fatal := true, fatalCause := cause.code, hist := .fault (.abort cause) :: s.hist }

/-! ### Pins (45_handshake.md R291) -/

/-- PinSet(x[RDY_PIN], level): an event only when the level changes, or when the pin was not driven before. -/
def pinSet (level : Bool) (s : State) : State :=
  if s.rdyDriven && s.rdy == level then s
  else { s with rdy := level, rdyDriven := true, hist := .pin s.slv.rdyPin level :: s.hist }

/-! ### DMA collaborator calls (44_dma.md R271, R274, R277) -/

/-- DmaSelect(c, line). -/
def dmaSelect (c line : Nat) (s : State) : State :=
  (s.setChan c { s.chan c with line := line }).note (.collab (.dmaSelect c line))

/-- DmaArm(c, src, dst, src_mode, dst_mode, burst, width, length). -/
def dmaArm (c : Nat) (src dst : DmaEnd) (srcMode dstMode : DmaMode) (burst width length : Nat) (s : State) : State :=
  (s.setChan c { s.chan c with
      src := src, dst := dst, srcMode := srcMode, dstMode := dstMode, burst := burst, width := width, rem := length,
      done := false, armed := true }).note (.dmaArmed c src dst srcMode dstMode burst width length)

/-- DmaDone(c). -/
def dmaDone (c : Nat) (s : State) : Bool := (s.chan c).done

/-- A channel after the closing edge and after a re-arm (44_dma.md R279, D27): it stays as it is when ORPHAN_DMA is `live`,
and is no longer armed when it is `stopped` (log entry 6). -/
def leaveOrphan (p : Params) (d : DmaChannel) : DmaChannel := { d with armed := d.armed && p.orphanDma == .live }

/-- What the closing edge and a re-arm do to the channels. -/
def leaveOrphans (s : State) : State := { s with dma := s.dma.map (leaveOrphan s.par) }

/-! ### Bus 2 (42_slave_fsm.md R196, R197) -/

/-- CtrlProgram(dir, out_en, bits). -/
def ctrlProgram (dir : Dir) (outEn : Bool) (bits : BitVec 6) (s : State) : State :=
  let s := setEnable Config.slaveBus false s
  let s := s.setBus Config.slaveBus { s.bus Config.slaveBus with dir := dir, outEn := outEn, frameBits := bits, workMode := 0 }
  setEnable Config.slaveBus true s

/-- `x[SLV_STATUS] <- st`. -/
def setStatus (st : SlvStatus) (s : State) : State := s.setSlv { s.slv with status := st }

/-- The place of the SLAVE agent inside the Transfer phase. -/
def setHandler (h : Handler) (s : State) : State := s.setSlv { s.slv with handler := h }

/-- IdleRearm(): the common return to Idle; the pin goes high last. -/
def idleRearm (s : State) : State :=
  let s := setStatus .idle s
  let s := ctrlProgram .receiveOnly false (s.bus Config.slaveBus).dbl s
  pinSet true (leaveOrphans s)

/-! ### Taking a request, or turning it away -/

/-- The verdict of the checks at the head of an operation. -/
inductive Verdict
  | accept
  | turnAway
  | abort (cause : AbortCause)
deriving DecidableEq, Repr

/-- "Every host request is refused" in these states: FATAL = 1 (R301); a slave handler in progress, the callback among
them (70_reset_and_hazards.md R357, log entry 19); a master operation in progress (41_master.md R142, R305). -/
def closed (s : State) : Bool :=
  s.fatal || s.slv.handler != .none || s.mst.phase != .idle

/-- Validate(bus, cs) (41_master.md R141), in the order of 60_exceptions.md R309 (a). -/
def validate (bus cs : Nat) (s : State) : Verdict :=
  if closed s then .turnAway
  else if s.numBus ≤ bus then .abort .busOutOfRange
  else if bus = Config.slaveBus then .abort .slaveBusInMaster
  else if s.par.numCs ≤ cs then .turnAway
  else .accept

/-- What follows a verdict: a request turned away changes nothing (60_exceptions.md R306, log entry 13). -/
def onVerdict (v : Verdict) (s : State) (go : Host.Outcome State Fault Refusal) : Host.Outcome State Fault Refusal :=
  match v with
  | .accept => go
  | .turnAway => .next s
  | .abort cause => .next (raiseAbort cause s)

end Sys2Proof.Machine
end

