-- ==== Sys2Proof/Machine/Operands.lean ====
section
/-! DEFINITION. Machine/Operands.lean: the operand forms: the frame-width classifier, units of a buffer and how they
move between memory and a FIFO (40_classifier.md), effective addresses and unit counts (43_slave_ops.md, 44_dma.md). -/

namespace Sys2Proof.Machine

/-! ### The frame-width classifier (40_classifier.md R120 to R123) -/

/-- The width classes. -/
inductive WidthClass
  | byte
  | halfWord
  | word
deriving DecidableEq, Repr

/-- "<8 → Byte, <16 → HalfWord, else → Word" (R120). -/
def classify (b : Nat) : WidthClass := if b < 8 then .byte else if b < 16 then .halfWord else .word

/-- The frame width of a class, in bytes (R121). -/
def WidthClass.bytes : WidthClass → Nat
  | .byte => 1
  | .halfWord => 2
  | .word => 4

/-- The number of a class (R123). -/
def WidthClass.number : WidthClass → Nat
  | .byte => 0
  | .halfWord => 1
  | .word => 2

/-- FrameBytes(b) (R121). -/
def frameBytes (b : Nat) : Nat := (classify b).bytes

/-- `W = FrameBytes(x[DBL[i]])` (R124). -/
def frameWidth (i : Nat) (s : State) : Nat := frameBytes (s.bus i).dbl.toNat

/-! ### Units (40_classifier.md R125 to R127) -/

/-- Aligned(a, W) (R125). -/
def aligned (a : Addr) (w : Nat) : Bool := a % w == 0

/-- The address of unit `k`: a + k*W, modulo 2^AW. -/
def unitAddr (aw : Nat) (a : Addr) (k w : Nat) : Addr := wrap aw (a + k * w)

/-- `n` one-byte reads at base + j, base + j + 1, …, each placed at its byte of the unit (R126, the misaligned arm). -/
def loadBytewise (base : Addr) : Nat → Nat → State → Entry × State
  | _, 0, s => (0, s)
  | j, n + 1, s =>
    let b := memRead (wrap s.par.aw (base + j)) 1 s
    let r := loadBytewise base (j + 1) n b.2
    (b.1 <<< (8 * j) ||| r.1, r.2)

/-- LoadUnit(a, k, W) (R126): one access of W bytes when the buffer is aligned, else W one-byte accesses. -/
def loadUnit (a : Addr) (k w : Nat) (s : State) : Entry × State :=
  let u := unitAddr s.par.aw a k w
  if aligned a w then memRead u w s else loadBytewise u 0 w s

/-- `n` one-byte writes at base + j, base + j + 1, … (R127, the misaligned arm). -/
def storeBytewise (base : Addr) : Nat → Nat → Entry → State → State
  | _, 0, _, s => s
  | j, n + 1, e, s =>
    storeBytewise base (j + 1) n e (memWrite (wrap s.par.aw (base + j)) 1 (e >>> (8 * j)) s)

/-- StoreUnit(a, k, W, e) (R127). -/
def storeUnit (a : Addr) (k w : Nat) (e : Entry) (s : State) : State :=
  let u := unitAddr s.par.aw a k w
  if aligned a w then memWrite u w e s else storeBytewise u 0 w e s

/-- `for k = k0 .. k0+n-1: TxPush(bus, LoadUnit(buf, k, W))` (R144, R156, R165, R232). -/
def pushUnits (bus : Nat) (buf : Addr) (w : Nat) : Nat → Nat → State → State
  | _, 0, s => s
  | k, n + 1, s =>
    let u := loadUnit buf k w s
    pushUnits bus buf w (k + 1) n (txPush bus u.1 u.2)

/-- `for k = k0 .. k0+n-1: StoreUnit(buf, k, W, RxPop(bus))` (R158, R252). -/
def popUnits (bus : Nat) (buf : Addr) (w : Nat) : Nat → Nat → State → State
  | _, 0, s => s
  | k, n + 1, s =>
    let p := rxPop bus s
    popUnits bus buf w (k + 1) n (storeUnit buf k w p.1 p.2)

/-! ### Units and addresses of a command (43_slave_ops.md R230, R231; 44_dma.md R272, R273) -/

/-- `n = x[CMD_LEN] / W`, rounded down (R230). -/
def unitCount (s : State) : Nat := s.cmd.len.toNat / frameWidth Config.slaveBus s

/-- `(x[CFG_PTR] + zext_AW(x[CMD_ADDR])) mod 2^AW` (R231). -/
def cfgAddr (s : State) : Addr := wrap s.par.aw (s.slv.cfgPtr + s.cmd.addr.toNat)

/-- `zext_AW(x[CMD_ADDR])` (R236, R238, R240). -/
def rawAddr (s : State) : Addr := wrap s.par.aw s.cmd.addr.toNat

/-- `zext_AW(x[CMD_ADDR] & 0xFFFFFFF0)`: rounded down to a multiple of BLOCK_ALIGN (R273). -/
def blockAddr (s : State) : Addr :=
  wrap s.par.aw (s.cmd.addr &&& ~~~(BitVec.ofNat 32 (Config.blockAlign - 1))).toNat

/-- `x[CMD_LEN] * 4`, bytes (R272). -/
def blockBytes (s : State) : Nat := s.cmd.len.toNat * Config.dmaLenFactor

/-- The packed image of CTRL[2] (92_eei_decisions.md D41): a view, no rule reads it. -/
def ctrlImage (s : State) : BitVec 32 :=
  let b := s.bus Config.slaveBus
  b.workMode.setWidth 32 <<< s.slv.wmOff.toNat
    ||| (if b.outEn then (1 : BitVec 32) else 0) <<< s.slv.oeOff.toNat
    ||| (b.frameBits - 1).setWidth 32 <<< s.slv.fsOff.toNat

end Sys2Proof.Machine
end

