-- ==== Sys2Proof/Machine/Flags.lean ====
section
/-! DEFINITION. Machine/Flags.lean: the status bits (10_state.md R30) and the error codes of the completion check
(43_slave_ops.md R250, 60_exceptions.md R304). -/

namespace Sys2Proof.Machine

/-- "TFE[i] = 1 exactly when the transmit FIFO of bus i is empty" (R30). -/
def tfe (i : Nat) (s : State) : Bool := (s.bus i).tx.isEmpty

/-- "transmit FIFO empty and controller not busy" (R30, 41_master.md R150). -/
def txDone (i : Nat) (s : State) : Bool := tfe i s && !(s.bus i).busy

/-- Sets CMD_ERR when a completion check fails (R250). -/
def failWith (failed : Bool) (code : Byte) (s : State) : State :=
  if failed then s.setCmd { s.cmd with err := code } else s

/-- The check of the byte-register writes: `RxLevel(2) < n` gives ERR_RX. -/
def checkRx (s : State) : State := failWith (decide (rxLevel Config.slaveBus s < unitCount s)) s.par.errRx s

/-- The check of the byte-register reads: `TxLevel(2) != 0` gives ERR_TX. -/
def checkTx (s : State) : State := failWith (decide (txLevel Config.slaveBus s ≠ 0)) s.par.errTx s

/-- The check of the block operations: `not DmaDone(x[DMA_CH])` gives ERR_DMA. -/
def checkDma (s : State) : State := failWith (!dmaDone s.slv.dmaCh s) Config.errDma s

end Sys2Proof.Machine
end

