-- ==== Sys2Proof/Machine/Configure.lean ====
section
/-! DEFINITION. Machine/Configure.lean: the three configuration operations BUS_CONFIG, NONSTD_CONFIG (41_master.md R180,
R182) and SLAVE_CONFIG (42_slave_fsm.md R190). -/

namespace Sys2Proof.Machine

/-- A legal data-bit-length: 4 to 32, of any number a request can carry (R180, 92_eei_decisions.md D2). -/
def dblLegal (dbl : Nat) : Bool := decide (Config.dblMin ≤ dbl) && decide (dbl ≤ Config.dblMax)

/-- An operation's own check, after Validate (60_exceptions.md R309 (a)). -/
def Verdict.andThen (v : Verdict) (ok : Bool) (cause : AbortCause) : Verdict :=
  match v with
  | .accept => if ok then .accept else .abort cause
  | .turnAway => .turnAway
  | .abort c => .abort c

/-- A collaborator call, recorded (60_exceptions.md R320). -/
def call (c : Collab) (s : State) : State := s.note (.collab c)

/-- BUS_CONFIG (R180); the clock of the bus is enabled (60_exceptions.md R321). -/
def execBusConfig (bus dbl : Nat) (workMode : BitVec 2) (s : State) : Host.Outcome State Fault Refusal :=
  onVerdict ((validate bus 0 s).andThen (dblLegal dbl) .badConfig) s <| .next <|
    (call (.clockEnable bus) s).setBus bus { s.bus bus with
      dbl := BitVec.ofNat 6 dbl, dblWritten := true, frameBits := BitVec.ofNat 6 dbl, workMode := workMode }

/-- NONSTD_CONFIG (R182). -/
def execNonstdConfig (bus : Nat) (instrLen addrLen waitCycles : BitVec 8) (s : State) :
    Host.Outcome State Fault Refusal :=
  onVerdict ((validate bus 0 s).andThen (nonStdSupported s.par instrLen addrLen waitCycles) .unsupportedFraming) s <|
    .next <| s.setBus bus { s.bus bus with instrLen := instrLen, addrLen := addrLen, waitCycles := waitCycles }

/-- The checks of SLAVE_CONFIG, in R190's order; a request while a master operation is in progress is turned away like
any other (R305, log entry 20). Equal pins, and a channel also used elsewhere, are not checked (R190 has no such test):
70_reset_and_hazards.md R346 asks the host not to pass them, 93_implementation_defined.md U23 lets a model take that as a
premise or refuse equal pins, and the model accepts them with no premise (log entry 34). DESIGN CHOICE, unsafe. -/
def validateSlave (dmaCh dbl : Nat) (s : State) : Verdict :=
  if closed s then .turnAway
  else if s.numBus ≤ Config.slaveBus then .abort .busOutOfRange
  else if !dblLegal dbl then .abort .badConfig
  else if s.numDmaCh ≤ dmaCh then .abort .badConfig
  else .accept

/-- The collaborator calls of SLAVE_CONFIG in the order of 60_exceptions.md R324. -/
def slaveCalls (intPin rdyPin : Nat) (s : State) : State :=
  call .intcEnable <| call .intcRegister <| call .intcSetPriority <|
  call (.registerEdgeCallback intPin) <| call (.setEdgeTriggerRising intPin) <|
  call (.setDriveMode intPin false) <| call (.setDriveMode rdyPin true) <| call (.clockEnable Config.slaveBus) s

/-- The Slave Instance State that SLAVE_CONFIG creates, before IdleRearm (R190). -/
def newInstance (intPin rdyPin dmaCh dbl : Nat) (cfgPtr : Addr) (cfgLen : BitVec 32) (cb : Option Nat)
    (s : State) : State :=
  let s := s.setBus Config.slaveBus { s.bus Config.slaveBus with dbl := BitVec.ofNat 6 dbl, dblWritten := true }
  let s := s.setSlv { s.slv with
    intPin := intPin, rdyPin := rdyPin, dmaCh := dmaCh, cfgPtr := wrap s.par.aw cfgPtr, cfgLen := cfgLen,
    cb := cb, wmOff := s.par.wmOff, oeOff := s.par.oeOff, fsOff := s.par.fsOff, edgePend := false }
  let s := slaveCalls intPin rdyPin { s with rdyDriven := false }
  s.setSlv { s.slv with active := true }

/-- SLAVE_CONFIG (R190). -/
def execSlaveConfig (intPin rdyPin dmaCh dbl : Nat) (cfgPtr : Addr) (cfgLen : BitVec 32) (cb : Option Nat)
    (s : State) : Host.Outcome State Fault Refusal :=
  onVerdict (validateSlave dmaCh dbl s) s <| .next <|
    idleRearm (newInstance intPin rdyPin dmaCh dbl cfgPtr cfgLen cb s)

end Sys2Proof.Machine
end

