-- ==== Sys2Proof/Machine/MasterOps.lean ====
section
/-! DEFINITION. Machine/MasterOps.lean: the four master operations (41_master.md R140 to R172): the request, which
validates and performs the setup step, and the steps of the agent MASTER that carry the operation to its end. -/

namespace Sys2Proof.Machine

/-! ### The setup steps S1 and V1 -/

/-- A master operation reads DBL[bus] at setup; on a bus never configured "a model must make it a fault" (10_state.md R28),
UninitRead, and "does not go on" (70_reset_and_hazards.md R343; R141, 60_exceptions.md R305). This is also the fault that
10_state.md R53 asks of a read of an element it lists as unspecified. How the model knows that a bus was configured is log
entry 8. Safe. -/
def withWidth (bus : Nat) (s : State) (t : State) : Host.Outcome State Fault Refusal :=
  if (s.bus bus).dblWritten then .next t else .fault (.uninitRead bus)

/-- The one-hot mask `1 << chip_select`, of NUM_CS bits (R145); Validate has checked that cs is below NUM_CS. -/
def csMask (cs : Nat) : Nat := 1 <<< cs

/-- S1: the three register writes in one step (R145). -/
def openSend (bus cs : Nat) (s : State) : State :=
  s.setBus bus { s.bus bus with cs := csMask cs, dir := .transmitOnly, en := true }

/-- The expected receive count: `frames = rx_len / W`, rounded down (R155). -/
def frames (bus : Nat) (rxLen : BitVec 32) (s : State) : Nat := rxLen.toNat / frameWidth bus s

/-- V1: direction, receive-length register and enable (R155). -/
def openRecv (bus : Nat) (prefixLen rxLen : BitVec 32) (s : State) : State :=
  s.setBus bus { s.bus bus with
    dir := if prefixLen = 0 then .receiveOnly else .readAfterWrite
    rxcnt := BitVec.ofNat 32 (frames bus rxLen s) - 1
    en := true }

/-! ### The requests (an address operand is taken modulo 2^AW, log entry 28) -/

/-- SEND (R144): S0 and S1. -/
def execSend (bus cs : Nat) (txBuf : Addr) (txLen : BitVec 32) (s : State) : Host.Outcome State Fault Refusal :=
  onVerdict (validate bus cs s) s <| withWidth bus s <|
    (openSend bus cs s).setMst { s.mst with
      phase := .fill, op := .send, bus := bus, csel := cs, buf := wrap s.par.aw txBuf, rem := txLen.toNat, idx := 0,
      w := frameWidth bus s }

/-- RECV (R154): V0 and V1. -/
def execRecv (bus cs : Nat) (cmdBuf : Addr) (cmdLen : BitVec 32) (rxBuf : Addr) (rxLen : BitVec 32) (s : State) :
    Host.Outcome State Fault Refusal :=
  onVerdict (validate bus cs s) s <| withWidth bus s <|
    (openRecv bus cmdLen rxLen s).setMst { s.mst with
      phase := .cmd, op := .recv, bus := bus, csel := cs, cmdPtr := wrap s.par.aw cmdBuf, cmdCnt := cmdLen.toNat,
      buf := wrap s.par.aw rxBuf,
      rem := frames bus rxLen s, idx := 0, w := frameWidth bus s }

/-- SENDW (R164): S0 and S1, with M_CMD next. -/
def execSendw (bus cs : Nat) (cmdwBuf : Addr) (cmdwCnt : BitVec 32) (txBuf : Addr) (txLen : BitVec 32) (s : State) :
    Host.Outcome State Fault Refusal :=
  onVerdict (validate bus cs s) s <| withWidth bus s <|
    (openSend bus cs s).setMst { s.mst with
      phase := .cmd, op := .sendw, bus := bus, csel := cs, cmdPtr := wrap s.par.aw cmdwBuf, cmdCnt := cmdwCnt.toNat,
      buf := wrap s.par.aw txBuf, rem := txLen.toNat, idx := 0, w := frameWidth bus s }

/-- RECVW (R170): V0 and V1. -/
def execRecvw (bus cs : Nat) (cmdwBuf : Addr) (cmdwCnt : BitVec 32) (rxBuf : Addr) (rxLen : BitVec 32) (s : State) :
    Host.Outcome State Fault Refusal :=
  onVerdict (validate bus cs s) s <| withWidth bus s <|
    (openRecv bus cmdwCnt rxLen s).setMst { s.mst with
      phase := .cmd, op := .recvw, bus := bus, csel := cs, cmdPtr := wrap s.par.aw cmdwBuf, cmdCnt := cmdwCnt.toNat,
      buf := wrap s.par.aw rxBuf,
      rem := frames bus rxLen s, idx := 0, w := frameWidth bus s }

/-! ### The steps of MASTER -/

/-- `x[MST_PHASE] <- p`. -/
def setPhase (p : MstPhase) (s : State) : State := s.setMst { s.mst with phase := p }

/-- The chip-select of the operation is asserted (V2, R156). -/
def assertCs (s : State) : State := s.setBus s.mst.bus { s.bus s.mst.bus with cs := csMask s.mst.csel }

/-- The all-ones filler word (R157). -/
def filler : Entry := BitVec.allOnes 32

/-- V2 of RECV and RECVW: the filler, or `n` prefix units of `w` bytes; then the chip-select (R156, R157, R171). -/
def recvPrefix (w n : Nat) (s : State) : State :=
  let t := if s.mst.cmdCnt = 0 then txPush s.mst.bus filler s
    else pushUnits s.mst.bus s.mst.cmdPtr w 0 n s
  setPhase .drain (assertCs t)

/-- Phase M_CMD: step C of SENDW (R165), step V2 of RECV and RECVW (R156). SEND never enters it. R165 lets the link begin to
pop during step C, and R143 makes the labelled line C one step; the model takes the line as one step, so no pop falls inside
it, and a prefix longer than the room always overflows (log entry 33). DESIGN CHOICE, unsafe. -/
def masterCmd (s : State) : State :=
  match s.mst.op with
  | .send => setPhase .fill s
  | .sendw => setPhase .fill (pushUnits s.mst.bus s.mst.cmdPtr 4 0 s.mst.cmdCnt s)
  | .recv => recvPrefix s.mst.w (s.mst.cmdCnt / s.mst.w) s
  | .recvw => recvPrefix 4 s.mst.cmdCnt s

/-- `n = (min(32 - TxLevel(bus), rem) / W) * W`: the bytes of one fill iteration (R146). -/
def fillBytes (s : State) : Nat :=
  min (Config.fifoDepth - txLevel s.mst.bus s) s.mst.rem / s.mst.w * s.mst.w

/-- `n = min(RxLevel(bus), rem)`: the entries of one drain iteration (R158). -/
def drainCount (s : State) : Nat := min (rxLevel s.mst.bus s) s.mst.rem

/-- The loop counters after `units` units and `taken` off the remaining count. -/
def advance (units taken : Nat) (s : State) : State :=
  s.setMst { s.mst with idx := s.mst.idx + units, rem := s.mst.rem - taken }

/-- Leaves a loop in the step that ends it (log entry 17). -/
def leaveLoop (next : MstPhase) (s : State) : State := if s.mst.rem = 0 then setPhase next s else s

/-- S2: one fill iteration (R146). -/
def masterFill (s : State) : State :=
  let n := fillBytes s
  leaveLoop .wait (advance (n / s.mst.w) n (pushUnits s.mst.bus s.mst.buf s.mst.w s.mst.idx (n / s.mst.w) s))

/-- S3: one poll of the status register (R150). -/
def masterWait (s : State) : State := if txDone s.mst.bus s then setPhase .fin s else s

/-- V3: one drain iteration (R158). -/
def masterDrain (s : State) : State :=
  let n := drainCount s
  leaveLoop .fin (advance n n (popUnits s.mst.bus s.mst.buf s.mst.w s.mst.idx n s))

/-- S4 and V4: chip-select off, controller off (which empties both FIFOs), M_IDLE (R151, R159). -/
def masterEnd (s : State) : State :=
  let t := s.setBus s.mst.bus { s.bus s.mst.bus with cs := 0 }
  setPhase .idle (setEnable s.mst.bus false t)

/-- One step of the agent MASTER; none while FATAL = 1 (R301) or while no operation is in progress. -/
def masterStep (s : State) : State :=
  if s.fatal then s
  else match s.mst.phase with
    | .idle => s
    | .cmd => masterCmd s
    | .fill => masterFill s
    | .wait => masterWait s
    | .drain => masterDrain s
    | .fin => masterEnd s

end Sys2Proof.Machine
end

