-- ==== Sys2Proof/Machine/Wire.lean ====
section
/-! DEFINITION. Machine/Wire.lean: the six wire commands (43_slave_ops.md R230 to R254) and the steps of the slave state
machine they share (42_slave_fsm.md R200 to R209). -/

namespace Sys2Proof.Machine

/-! ### The Command phase (42_slave_fsm.md R200 to R206) -/

/-- `8 / W` pops from the receive FIFO of bus 2, unpacked into bytes (R97, R200). -/
def popHeader (w : Nat) : Nat → State → List Byte × State
  | 0, s => ([], s)
  | n + 1, s =>
    let p := rxPop Config.slaveBus s
    let r := popHeader w n p.2
    ((List.range w).map (byteOf p.1) ++ r.1, r.2)

/-- The header scratch HDR[0..7] of eight bytes (R44). -/
def hdrOf (bytes : List Byte) : Vector Byte 8 := Vector.ofFn fun i => bytes.getD i.val 0

/-- Step 1, the header read: exactly 8 bytes, whatever the level (R200). -/
def fetchHeader (s : State) : State :=
  let w := frameWidth Config.slaveBus s
  let r := popHeader w (Config.hdrLen / w) s
  r.2.setHdr (hdrOf r.1)

/-- Step 3, decode: the fresh Command Descriptor of the cycle (R203). -/
def latchCommand (op : Byte) (addr : BitVec 32) (len : BitVec 16) (s : State) : State :=
  s.setCmd { op := op, addr := addr, len := BitVec.ofNat 17 (decodedLen len), err := Config.errOk }

/-- Step 6, entering Transfer: the state, the setup of the opcode, and last the ready pin low (R206). -/
def enterTransfer (setup : State → State) (s : State) : State := pinSet false (setup (setStatus .transfer s))

/-- Steps 2 to 6 of the Command phase, once the header has been read (R207): a bad checksum returns to Idle; then the
descriptor is written; a non-block command longer than 8 bytes returns to Idle; else the machine enters Transfer. -/
def commandPhase (op : Byte) (nonBlock : Bool) (setup : State → State) (addr : BitVec 32) (len : BitVec 16) (sum : Byte)
    (s : State) : State :=
  if sum ≠ headerSum op addr len then idleRearm s
  else if nonBlock && decide (Config.nonblockMax < decodedLen len) then idleRearm (latchCommand op addr len s)
  else enterTransfer setup (latchCommand op addr len s)

/-- The Command phase for an opcode byte that is none of the six (R201, R205): checksum, decode, silent return to Idle. -/
def rejectUnknown (op : Byte) (addr : BitVec 32) (len : BitVec 16) (sum : Byte) (s : State) : State :=
  if sum ≠ headerSum op addr len then idleRearm s else idleRearm (latchCommand op addr len s)

/-! ### The Transfer phase (42_slave_fsm.md R208, R209) -/

/-- The end of step T1: "no beat after the closing edge" when ORPHAN_DMA is `stopped` (D27; log entry 6); T2 is next. -/
def endT1 (s : State) : State := setHandler .callbackDue (leaveOrphans s)

/-- Step T2: the callback is delivered if one is registered, and its body then runs in the host (R209). -/
def transferT2 (s : State) : State :=
  match s.slv.cb with
  | some _ => (setHandler .inCallback s).note (.callback s.cmd)
  | none => setHandler .rearmDue s

/-- Step T3: IdleRearm(), and the handler ends. -/
def transferT3 (s : State) : State := setHandler .none (idleRearm s)

/-! ### Setup and commit (43_slave_ops.md R232 to R252) -/

/-- Setup of a read-type non-block command: transmission, and `n` units pushed from `src` (R232, R236). -/
def preload (src : Addr) (s : State) : State :=
  let s := ctrlProgram .transmitOnly true (s.bus Config.slaveBus).dbl s
  pushUnits Config.slaveBus src (frameWidth Config.slaveBus s) 0 (unitCount s) s

/-- Setup of a write-type non-block command: reception (R234, R238). -/
def receive (s : State) : State := ctrlProgram .receiveOnly false (s.bus Config.slaveBus).dbl s

/-- Setup(READ_DATA_BLOCK) (R240). -/
def armRead (s : State) : State :=
  let s := ctrlProgram .transmitOnly true 32 s
  let s := dmaSelect s.slv.dmaCh (reqLine s.par Config.slaveBus .tx) s
  dmaArm s.slv.dmaCh (.mem (rawAddr s)) (.dr Config.slaveBus) .increment .fixed Config.dmaBurst Config.dmaWidth
    (blockBytes s) s

/-- Setup(WRITE_DATA_BLOCK) (R242). -/
def armWrite (s : State) : State :=
  let s := ctrlProgram .receiveOnly false 32 s
  let s := dmaSelect s.slv.dmaCh (reqLine s.par Config.slaveBus .rx) s
  dmaArm s.slv.dmaCh (.dr Config.slaveBus) (.mem (blockAddr s)) .fixed .increment Config.dmaBurst Config.dmaWidth
    (blockBytes s) s

/-- Commit: `n` units popped and stored from `dst` on, whether the check passed or failed (R252). -/
def commit (dst : Addr) (s : State) : State :=
  popUnits Config.slaveBus dst (frameWidth Config.slaveBus s) 0 (unitCount s) s

/-! ### The six commands

A command runs twice, at two protocol edges (R230 head, R244, R250): in the Command phase its setup half, in the Transfer
phase its completion half (step T1). SLV_STATUS says which; outside Transfer it is the Command phase (log entry 16). -/

/-- READ_CONFIG (R232). -/
def execReadConfig (addr : BitVec 32) (len : BitVec 16) (sum : Byte) (s : State) : Host.Outcome State Fault Refusal :=
  match s.slv.status with
  | .transfer => .next (endT1 (checkTx s))
  | _ => .next (commandPhase s.par.opc.readConfig true (fun t => preload (cfgAddr t) t) addr len sum s)

/-- WRITE_CONFIG (R234). -/
def execWriteConfig (addr : BitVec 32) (len : BitVec 16) (sum : Byte) (s : State) : Host.Outcome State Fault Refusal :=
  match s.slv.status with
  | .transfer => .next (endT1 (commit (cfgAddr s) (checkRx s)))
  | _ => .next (commandPhase s.par.opc.writeConfig true receive addr len sum s)

/-- READ_DATA_BYTE (R236). -/
def execReadDataByte (addr : BitVec 32) (len : BitVec 16) (sum : Byte) (s : State) : Host.Outcome State Fault Refusal :=
  match s.slv.status with
  | .transfer => .next (endT1 (checkTx s))
  | _ => .next (commandPhase s.par.opc.readDataByte true (fun t => preload (rawAddr t) t) addr len sum s)

/-- WRITE_DATA_BYTE (R238). -/
def execWriteDataByte (addr : BitVec 32) (len : BitVec 16) (sum : Byte) (s : State) : Host.Outcome State Fault Refusal :=
  match s.slv.status with
  | .transfer => .next (endT1 (commit (rawAddr s) (checkRx s)))
  | _ => .next (commandPhase s.par.opc.writeDataByte true receive addr len sum s)

/-- READ_DATA_BLOCK (R240). -/
def execReadDataBlock (addr : BitVec 32) (len : BitVec 16) (sum : Byte) (s : State) : Host.Outcome State Fault Refusal :=
  match s.slv.status with
  | .transfer => .next (endT1 (checkDma s))
  | _ => .next (commandPhase s.par.opc.readDataBlock false armRead addr len sum s)

/-- WRITE_DATA_BLOCK (R242). -/
def execWriteDataBlock (addr : BitVec 32) (len : BitVec 16) (sum : Byte) (s : State) : Host.Outcome State Fault Refusal :=
  match s.slv.status with
  | .transfer => .next (endT1 (checkDma s))
  | _ => .next (commandPhase s.par.opc.writeDataBlock false armWrite addr len sum s)

end Sys2Proof.Machine
end

