-- ==== Sys2Proof/Machine/Dispatch.lean ====
section
/-! DEFINITION. Machine/Dispatch.lean: one arm per operation, each one call of its meaning. -/

namespace Sys2Proof.Machine

def exec (i : Instr) (s : State) : Host.Outcome State Fault Refusal :=
  match i with
  | .readConfig addr len sum => Sys2Proof.Machine.execReadConfig addr len sum s
  | .writeConfig addr len sum => Sys2Proof.Machine.execWriteConfig addr len sum s
  | .readDataByte addr len sum => Sys2Proof.Machine.execReadDataByte addr len sum s
  | .writeDataByte addr len sum => Sys2Proof.Machine.execWriteDataByte addr len sum s
  | .readDataBlock addr len sum => Sys2Proof.Machine.execReadDataBlock addr len sum s
  | .writeDataBlock addr len sum => Sys2Proof.Machine.execWriteDataBlock addr len sum s
  | .send bus cs txBuf txLen => Sys2Proof.Machine.execSend bus cs txBuf txLen s
  | .recv bus cs cmdBuf cmdLen rxBuf rxLen => Sys2Proof.Machine.execRecv bus cs cmdBuf cmdLen rxBuf rxLen s
  | .sendw bus cs cmdwBuf cmdwCnt txBuf txLen => Sys2Proof.Machine.execSendw bus cs cmdwBuf cmdwCnt txBuf txLen s
  | .recvw bus cs cmdwBuf cmdwCnt rxBuf rxLen => Sys2Proof.Machine.execRecvw bus cs cmdwBuf cmdwCnt rxBuf rxLen s
  | .busConfig bus dbl workMode => Sys2Proof.Machine.execBusConfig bus dbl workMode s
  | .nonstdConfig bus instrLen addrLen waitCycles => Sys2Proof.Machine.execNonstdConfig bus instrLen addrLen waitCycles s
  | .slaveConfig intPin rdyPin dmaCh dbl cfgPtr cfgLen cb => Sys2Proof.Machine.execSlaveConfig intPin rdyPin dmaCh dbl cfgPtr cfgLen cb s

end Sys2Proof.Machine
end

