-- ==== Sys2Proof/Machine/Environment.lean ====
section
/-! DEFINITION. Machine/Environment.lean: the environment agents (10_state.md R22): LINK, REMOTE, the DMA channels, and
what the HOST does besides making requests. They go on while FATAL = 1 (60_exceptions.md R301). -/

namespace Sys2Proof.Machine

/-! ### Moving entries ("While EN[i] = 0 no environment agent moves an entry of bus i", R24) -/

/-- The environment takes the head of the transmit FIFO of bus `i`; from an empty FIFO nothing moves (43_slave_ops.md
R256, log entry 31). -/
def wireOut (i : Nat) (s : State) : State :=
  match (s.bus i).en, (s.bus i).tx with
  | true, e :: rest => (s.setBus i { s.bus i with tx := rest }).note (.wireOut i e)
  | _, _ => s

/-- The environment puts an entry at the tail of the receive FIFO of bus `i`; into a full FIFO it is lost, and the model
records RxOverflow(i) (R33, R256). -/
def wireIn (i : Nat) (e : Entry) (s : State) : State :=
  if (s.bus i).en then
    if rxLevel i s < Config.fifoDepth then
      (s.setBus i { s.bus i with rx := (s.bus i).rx ++ [e] }).note (.wireIn i e)
    else s.note (.fault (.rxOverflow i))
  else s

/-- LINK[i] serves the buses other than 2 (R22). -/
def isLinkBus (i : Nat) (s : State) : Bool := decide (i < s.numBus) && i != Config.slaveBus

/-- LINK[i] moves an entry out. -/
def linkOut (i : Nat) (s : State) : State := if isLinkBus i s then wireOut i s else s

/-- LINK[i] delivers an entry. -/
def linkIn (i : Nat) (e : Entry) (s : State) : State := if isLinkBus i s then wireIn i e s else s

/-- BUSY[i], which the link owns (R30; log entry 23). -/
def linkBusy (i : Nat) (busy : Bool) (s : State) : State := s.setBus i { s.bus i with busy := busy }

/-- The step Edge of REMOTE: latched only while SLV_ACTIVE = 1, merged with a pending edge (45_handshake.md R294). -/
def raiseEdge (s : State) : State :=
  (if s.slv.active then s.setSlv { s.slv with edgePend := true } else s).note .edge

/-! ### DMA beats (44_dma.md R275, R276) -/

/-- The address after a beat: 4 further modulo 2^AW in mode INCREMENT, the same in mode FIXED. -/
def beatAddr (aw : Nat) (m : DmaMode) (a : Addr) : Addr :=
  match m with
  | .increment => wrap aw (a + 4)
  | .fixed => a

/-- What is left after a beat; with nothing left the done bit is set and the channel is no longer armed. -/
def endBeat (d : DmaChannel) : DmaChannel :=
  let rem := d.rem - 4
  { d with rem := rem, done := if rem = 0 then true else d.done, armed := if rem = 0 then false else d.armed }

/-- One beat of channel `c`: register to memory (R275) or memory to register (R276), on the data register of bus 2,
while bus 2 is enabled (R24; log entry 22). A channel that is not enabled does nothing. -/
def dmaBeat (c : Nat) (s : State) : State :=
  let d := s.chan c
  if d.armed && decide (0 < d.rem) && (s.bus Config.slaveBus).en then
    match d.src, d.dst with
    | .dr b, .mem a =>
      if b = Config.slaveBus ∧ 0 < rxLevel Config.slaveBus s then
        let p := rxPop Config.slaveBus s
        (memWrite a 4 p.1 p.2).setChan c (endBeat { d with dst := .mem (beatAddr s.par.aw d.dstMode a) })
      else s
    | .mem a, .dr b =>
      if b = Config.slaveBus ∧ txLevel Config.slaveBus s < Config.fifoDepth then
        let v := memRead a 4 s
        (txPush Config.slaveBus v.1 v.2).setChan c (endBeat { d with src := .mem (beatAddr s.par.aw d.srcMode a) })
      else s
    | _, _ => s
  else s

/-! ### The HOST besides its requests -/

/-- The host writes one byte of memory (20_memory.md R72; log entry 24). -/
def hostWrite (a : Addr) (b : Byte) (s : State) : State := s.setMem (insert s.mem (wrap s.par.aw a) b)

/-- The callback returns: T3 is next (42_slave_fsm.md R208, R209). -/
def callbackReturn (s : State) : State :=
  match s.slv.handler with
  | .inCallback => s.setSlv { s.slv with handler := .rearmDue }
  | _ => s

end Sys2Proof.Machine
end

