-- ==== Sys2Proof/Machine/Agents.lean ====
section
/-! DEFINITION. Machine/Agents.lean: one turn of each agent: where the engine fetches its operations, and which step runs. -/

namespace Sys2Proof.Machine

/-! ### HOST: a request -/

/-- A host request: the record is decoded and run. Bytes that are no record of R102 are no request: nothing changes
(log entry 13). -/
def request (bytes : List Byte) (s : State) : Host.Outcome State Fault Refusal :=
  match decode s.par.opc .hreq bytes with
  | .ok i => exec i s
  | .error _ => .next s

/-! ### SLAVE: the edge handler (42_slave_fsm.md R192 to R195) -/

/-- "The handler first acknowledges the condition" (R192). -/
def acknowledge (s : State) : State := s.setSlv { s.slv with edgePend := false }

/-- The rejection of a header whose opcode byte is none of the six (R205), on the bytes in HDR. -/
def rejectHeader (s : State) : State :=
  rejectUnknown s.hdr[0] (le32 s.hdr[1] s.hdr[2] s.hdr[3] s.hdr[4]) (le16 s.hdr[5] s.hdr[6]) s.hdr[7] s

/-- The Command phase (R194, R207): the header is read from the receive FIFO, decoded and run. -/
def runHeader (s : State) : Host.Outcome State Fault Refusal :=
  let t := fetchHeader s
  match decode s.par.opc .hdr t.hdr.toList with
  | .ok i => exec i t
  | .error _ => .next (rejectHeader t)

/-- The header of the command that the descriptor holds. -/
def latchedHeader (s : State) : List Byte := encodeHdr s.cmd.op s.cmd.addr (s.cmd.len.setWidth 16)

/-- Step T1 of the Transfer phase (R195, R208): the completion half of the command that the descriptor holds. A
descriptor whose opcode is none of the six has no check and no commit. -/
def runCompletion (s : State) : Host.Outcome State Fault Refusal :=
  match decode s.par.opc .hdr (latchedHeader s) with
  | .ok i => exec i s
  | .error _ => .next (endT1 s)

/-- The edge handler, dispatched on SLV_STATUS (R192). -/
def edgeHandler (s : State) : Host.Outcome State Fault Refusal :=
  match s.slv.status with
  | .idle => .next (setStatus .command s)
  | .command => runHeader s
  | .transfer => runCompletion s

/-- One step of the agent SLAVE (R192, R198, R208): the edge handler when an edge is pending on an active instance and no
handler is in progress; else the next step of the Transfer phase. None while FATAL = 1 (60_exceptions.md R301), and none
while the callback runs (R209). -/
def slaveStep (s : State) : Host.Outcome State Fault Refusal :=
  if s.fatal then .next s
  else match s.slv.handler with
    | .none => if s.slv.edgePend && s.slv.active then edgeHandler (acknowledge s) else .next s
    | .callbackDue => .next (transferT2 s)
    | .inCallback => .next s
    | .rearmDue => .next (transferT3 s)

/-! ### One turn -/

/-- The turn of the agent the schedule names. An agent with no enabled step leaves the state as it is (log entry 11). -/
def turn (a : Action) (s : State) : Host.Outcome State Fault Refusal :=
  match a with
  | .request bytes => request bytes s
  | .hostWrite a b => .next (hostWrite a b s)
  | .callbackReturn => .next (callbackReturn s)
  | .master => .next (masterStep s)
  | .slave => slaveStep s
  | .linkOut i => .next (linkOut i s)
  | .linkIn i e => .next (linkIn i e s)
  | .linkBusy i b => .next (linkBusy i b s)
  | .edge => .next (raiseEdge s)
  | .remoteIn e => .next (wireIn Config.slaveBus e s)
  | .remoteOut => .next (wireOut Config.slaveBus s)
  | .dma c => .next (dmaBeat c s)

/-- One step of the machine: the schedule's first turn. With no turn to come nothing happens (70_reset_and_hazards.md R341). -/
def stepTurn (s : State) : Host.Outcome State Fault Refusal :=
  match s.sched with
  | [] => .next s
  | a :: rest => turn a (s.setSched rest)

/-! ### The place a step fetches from -/

/-- The entries that carry the bytes of a header, `w` bytes each (30_encoding.md R97). -/
def headerEntries (w : Nat) : Nat → List Byte → List Entry
  | 0, _ => []
  | n + 1, bytes =>
    le32 (bytes.getD 0 0) (if 1 < w then bytes.getD 1 0 else 0) (if 2 < w then bytes.getD 2 0 else 0)
        (if 3 < w then bytes.getD 3 0 else 0) :: headerEntries w n (bytes.drop w)

/-- A request is fetched from the schedule. -/
def placeRequest (bytes : List Byte) (s : State) : State := s.setSched (.request bytes :: s.sched)

/-- A header is fetched from the receive FIFO of bus 2 when the SLAVE agent takes its turn with an edge pending, the
instance active, no handler in progress and SLV_STATUS = Command, on a machine that is not halted. -/
def placeHeader (bytes : List Byte) (s : State) : State :=
  let w := frameWidth Config.slaveBus s
  let t := s.setBus Config.slaveBus { s.bus Config.slaveBus with rx := headerEntries w (Config.hdrLen / w) bytes }
  let t := t.setSlv { t.slv with active := true, status := .command, handler := .none, edgePend := true }
  { t with fatal := false, sched := .slave :: s.sched }

end Sys2Proof.Machine
end

