-- ==== Sys2Proof/Machine/Step.lean ====
section
/-! DEFINITION. Machine/Step.lean: one step of the machine, and where a test places the next operation. -/

namespace Sys2Proof.Machine

/-- One step: the next turn of the schedule. -/
def step (s : State) : Host.Outcome State Fault Refusal := stepTurn s

/-- `s` with the operation of a table word placed where the next step fetches it (log entries 26, 27). -/
def State.withFetchWord (s : State) (nbits w : Nat) : State :=
  match tableFormat nbits with
  | .hdr => placeHeader (tableBytes nbits w) s
  | .hreq => placeRequest (tableBytes nbits w) s

end Sys2Proof.Machine
end

