-- ==== Sys2Proof/Safety.lean ====
section
/-! DEFINITION. Safety.lean: what counts as a safe run, and the invariant of the machine. -/

namespace Sys2Proof.Machine

/-- A recorded fault (60_exceptions.md R306): "recorded, never cleared, never a good final state". -/
def Event.isFault : Event → Bool
  | .fault _ => true
  | _ => false

/-- No fault is recorded and the machine is not halted. -/
def State.Clean (s : State) : Prop := s.fatal = false ∧ ∀ e ∈ s.hist, e.isFault = false

/-- A safe run of `k` steps: it does not stop, and ends with no fault recorded. -/
def SafeRun (k : Nat) (s : State) : Prop := ∃ t, core.run k s = .next t ∧ State.Clean t

/-! ### Opcode classes (30_encoding.md R96), under an opcode map -/

/-- IsNonBlock(op). -/
def isNonBlock (o : Opc) (op : Byte) : Bool := o.nonBlock.contains op

/-- IsBlock(op). -/
def isBlock (o : Opc) (op : Byte) : Bool := o.block.contains op

/-- IsKnown(op). -/
def isKnown (o : Opc) (op : Byte) : Bool := isNonBlock o op || isBlock o op

/-- IsReadType(op). -/
def isReadType (o : Opc) (op : Byte) : Bool := [o.readConfig, o.readDataByte, o.readDataBlock].contains op

/-- IsWriteType(op). -/
def isWriteType (o : Opc) (op : Byte) : Bool := [o.writeConfig, o.writeDataByte, o.writeDataBlock].contains op

/-- IsConfig(op). -/
def isConfig (o : Opc) (op : Byte) : Bool := [o.readConfig, o.writeConfig].contains op

/-! ### Words the claims use -/

/-- The engine takes requests: not halted, no slave handler in progress, no master operation in progress. -/
def Open (s : State) : Prop := s.fatal = false ∧ s.slv.handler = .none ∧ s.mst.phase = .idle

/-- A bus that master operations may use. -/
def MasterBus (s : State) (bus : Nat) : Prop := bus < s.numBus ∧ bus ≠ Config.slaveBus

/-- The SLAVE agent moves next, and its edge handler runs in the status `st` (42_slave_fsm.md R192). -/
def EdgeNext (s : State) (st : SlvStatus) (rest : List Action) : Prop :=
  s.sched = .slave :: rest ∧ s.fatal = false ∧ s.slv.handler = .none ∧ s.slv.edgePend = true
    ∧ s.slv.active = true ∧ s.slv.status = st

/-- The agent MASTER moves next in phase `p` (41_master.md R143). -/
def MasterNext (s : State) (p : MstPhase) (rest : List Action) : Prop :=
  s.sched = .master :: rest ∧ s.fatal = false ∧ s.mst.phase = p

/-- The entry that pop `k` of the header read returns: entry `k` of the receive FIFO of bus 2 where it is present, else a
free value, one draw for each missing entry (42_slave_fsm.md R200, 10_state.md R33 (2)). -/
def headerEntry (s : State) (k : Nat) : Entry :=
  (s.bus 2).rx[k]?.getD (Config.drawEntry (s.draws + (k - (s.bus 2).rx.length)))

/-- The eight bytes of the header read: byte j of entry k is H[k*W + j] (30_encoding.md R97). -/
def headerOf (s : State) : List Byte :=
  (List.range (Config.hdrLen / frameWidth 2 s)).flatMap fun k =>
    (List.range (frameWidth 2 s)).map fun j => byteOf (headerEntry s k) j

/-- The draws of a header read: one for each entry missing (10_state.md R33 (2)). -/
def headerDraws (s : State) : Nat := s.draws + (Config.hdrLen / frameWidth 2 s - (s.bus 2).rx.length)

/-- The six wire commands with given fields. -/
def wireCommands (addr : BitVec 32) (len : BitVec 16) (sum : Byte) : List Instr :=
  [.readConfig addr len sum, .writeConfig addr len sum, .readDataByte addr len sum, .writeDataByte addr len sum,
    .readDataBlock addr len sum, .writeDataBlock addr len sum]

/-- The opcode byte of a wire command. -/
def opcodeOf (o : Opc) : Instr → Byte
  | .readConfig _ _ _ => o.readConfig
  | .writeConfig _ _ _ => o.writeConfig
  | .readDataByte _ _ _ => o.readDataByte
  | .writeDataByte _ _ _ => o.writeDataByte
  | .readDataBlock _ _ _ => o.readDataBlock
  | .writeDataBlock _ _ _ => o.writeDataBlock
  | .send _ _ _ _ => 0
  | .recv _ _ _ _ _ _ => 0
  | .sendw _ _ _ _ _ _ => 0
  | .recvw _ _ _ _ _ _ => 0
  | .busConfig _ _ _ => 0
  | .nonstdConfig _ _ _ _ => 0
  | .slaveConfig _ _ _ _ _ _ _ => 0

/-- Units k0, …, k0+n-1 of a buffer of `w`-byte units, as entries (40_classifier.md R126, 20_memory.md R62). -/
def unitsOf (aw : Nat) (m : List Host.Cell) (buf : Addr) (w k0 n : Nat) : List Entry :=
  (List.range n).map fun j => loadBytes aw m (unitAddr aw buf (k0 + j) w) w

/-- Memory after entries are stored as units k0, k0+1, … of a buffer of `w`-byte units (40_classifier.md R127). -/
def withUnits (aw : Nat) (m : List Host.Cell) (buf : Addr) (w : Nat) : Nat → List Entry → List Host.Cell
  | _, [] => m
  | k, e :: es => withUnits aw (storeBytes aw m (unitAddr aw buf k w) w e) buf w (k + 1) es

/-- An address that lies in none of `n` units k0, … of a buffer. -/
def OutsideUnits (aw : Nat) (a buf : Addr) (w k0 n : Nat) : Prop :=
  ∀ j < n, ∀ i < w, a ≠ wrap aw (unitAddr aw buf (k0 + j) w + i)

/-- The request operations of the master role with a given bus and chip select. -/
def masterOps (bus cs : Nat) (p : Addr) (n : BitVec 32) (q : Addr) (m : BitVec 32) : List Instr :=
  [.send bus cs q m, .recv bus cs p n q m, .sendw bus cs p n q m, .recvw bus cs p n q m]

/-- Every event is a memory read. -/
def OnlyReads (l : List Event) : Prop := ∀ e ∈ l, ∃ a n, e = .memR a n

/-- Every event is a memory write. -/
def OnlyWrites (l : List Event) : Prop := ∀ e ∈ l, ∃ a n v, e = .memW a n v

/-- Every event is a memory read or an overflow of the transmit FIFO of the bus. -/
def OnlyReadsOrOverflows (bus : Nat) (l : List Event) : Prop :=
  ∀ e ∈ l, (∃ a n, e = .memR a n) ∨ e = .fault (.txOverflow bus)

/-! ### The invariant -/

/-- One bus: its FIFOs hold at most FIFO_DEPTH entries (10_state.md R31, R32) and are empty while it is disabled (R24,
R33); a written DBL is 4 to 32 (R28); an enabled bus has one of the three directions (R26); at most one chip-select is
asserted (R25). -/
structure Bus.Good (numCs : Nat) (b : Bus) : Prop where
  txFits : b.tx.length ≤ Config.fifoDepth
  rxFits : b.rx.length ≤ Config.fifoDepth
  offEmpty : b.en = false → b.tx = [] ∧ b.rx = []
  dblLegal : b.dblWritten = true → Config.dblMin ≤ b.dbl.toNat ∧ b.dbl.toNat ≤ Config.dblMax
  dirLegal : b.en = true → b.dir ≠ .reserved
  csOneHot : b.cs = 0 ∨ ∃ k < numCs, b.cs = 2 ^ k

/-- The Slave Instance State and the ready pin: before SLAVE_CONFIG the slave role does nothing (R36); after it bus 2 is
configured and enabled, and the ready pin is low exactly in Transfer (42_slave_fsm.md R210); a handler in progress is in
Transfer (R208); in Transfer the descriptor holds an accepted command (R203 to R205). -/
structure SlaveGood (s : State) : Prop where
  inactive : s.slv.active = false →
    s.slv.status = .idle ∧ s.slv.handler = .none ∧ s.slv.edgePend = false ∧ (s.bus 2).en = false
  active : s.slv.active = true →
    (s.bus 2).en = true ∧ (s.bus 2).dblWritten = true ∧ s.slv.dmaCh < s.numDmaCh ∧ s.rdyDriven = true
      ∧ (s.slv.status = .transfer ↔ s.rdy = false)
  handler : s.slv.handler ≠ .none → s.slv.status = .transfer
  command : s.slv.status = .transfer →
    isKnown s.par.opc s.cmd.op = true ∧ 1 ≤ s.cmd.len.toNat ∧ s.cmd.len.toNat ≤ Config.lenZeroMeans
      ∧ (isNonBlock s.par.opc s.cmd.op = true → s.cmd.len.toNat ≤ Config.nonblockMax)
  noCs : (s.bus 2).cs = 0
  cfgPtr : s.slv.cfgPtr < 2 ^ s.par.aw

/-- The master engine: an operation in progress is on an enabled, configured bus other than 2, with the frame width of
that bus latched (41_master.md R141, R145, R155); no other master bus is enabled; its pointers are of AW bits (R47). -/
structure MasterGood (s : State) : Prop where
  busy : s.mst.phase ≠ .idle →
    s.mst.bus < s.numBus ∧ s.mst.bus ≠ Config.slaveBus ∧ s.mst.csel < s.par.numCs
      ∧ (s.bus s.mst.bus).en = true ∧ (s.bus s.mst.bus).dblWritten = true ∧ s.mst.w = frameWidth s.mst.bus s
  others : ∀ i, i ≠ Config.slaveBus → (s.bus i).en = true → s.mst.phase ≠ .idle ∧ i = s.mst.bus
  ended : s.mst.phase = .wait ∨ s.mst.phase = .fin → s.mst.rem = 0
  ptrs : s.mst.cmdPtr < 2 ^ s.par.aw ∧ s.mst.buf < 2 ^ s.par.aw

/-- A DMA source or destination in memory is an address of AW bits. -/
def DmaEnd.Within (aw : Nat) : DmaEnd → Prop
  | .mem a => a < 2 ^ aw
  | .dr _ => True

/-- One DMA channel: an armed one has whole beats to go and is not done (10_state.md R49, 44_dma.md R274); its addresses are
of AW bits. -/
structure DmaChannel.Good (aw : Nat) (d : DmaChannel) : Prop where
  armed : d.armed = true → 0 < d.rem ∧ d.rem % 4 = 0 ∧ d.done = false
  src : d.src.Within aw
  dst : d.dst.Within aw

/-- With ORPHAN_DMA `stopped` a channel is armed at most from an accepted Command phase to step T1 of the closing edge:
outside these no beat is made (44_dma.md R279, D27; log entry 6). -/
def OrphansStopped (s : State) : Prop :=
  s.par.orphanDma = .stopped →
    (s.slv.status = .transfer ∧ s.slv.handler = .none) ∨ ∀ c, (s.chan c).armed = false

/-- The invariant that every step keeps. -/
structure EngineInv (s : State) : Prop where
  params : s.par.Legal
  mem : Memory.wf s.par.aw s.mem
  buses : ∀ i, (s.bus i).Good s.par.numCs
  slave : SlaveGood s
  master : MasterGood s
  dma : ∀ c, (s.chan c).Good s.par.aw
  orphans : OrphansStopped s

end Sys2Proof.Machine
end

