-- ==== Sys2Proof/WellFormed.lean ====
section
/-! DEFINITION. WellFormed.lean: which operations are well formed. -/

namespace Sys2Proof

/-- The checksum byte is the sum of the seven bytes before it ("A header is well-formed only if", 30_encoding.md R92). -/
def SumGood (op : Byte) (addr : BitVec 32) (len : BitVec 16) (sum : Byte) : Bool := sum == headerSum op addr len

/-- A non-block command moves at most 8 bytes (30_encoding.md R100 (2)). -/
def LenGood (len : BitVec 16) : Bool := decide (decodedLen len ≤ Config.nonblockMax)

/-- The number fits a 64-bit word of the request record (log entry 28). -/
def Fits (n : Nat) : Bool := decide (n < 2 ^ 64)

/-- Well-formed, under an opcode map: a header that the Command phase accepts (30_encoding.md R92, R100), or a request
whose numbers fit the request record. A request the engine aborts on or turns away is well formed: it is representable on
purpose (R103). -/
def WellFormed (o : Opc) : Instr → Bool
  | .readConfig addr len sum => SumGood o.readConfig addr len sum && LenGood len
  | .writeConfig addr len sum => SumGood o.writeConfig addr len sum && LenGood len
  | .readDataByte addr len sum => SumGood o.readDataByte addr len sum && LenGood len
  | .writeDataByte addr len sum => SumGood o.writeDataByte addr len sum && LenGood len
  | .readDataBlock addr len sum => SumGood o.readDataBlock addr len sum
  | .writeDataBlock addr len sum => SumGood o.writeDataBlock addr len sum
  | .send bus cs buf _ => Fits bus && Fits cs && Fits buf
  | .recv bus cs cbuf _ rbuf _ => Fits bus && Fits cs && Fits cbuf && Fits rbuf
  | .sendw bus cs cbuf _ buf _ => Fits bus && Fits cs && Fits cbuf && Fits buf
  | .recvw bus cs cbuf _ rbuf _ => Fits bus && Fits cs && Fits cbuf && Fits rbuf
  | .busConfig bus dbl _ => Fits bus && Fits dbl
  | .nonstdConfig bus _ _ _ => Fits bus
  | .slaveConfig intPin rdyPin dmaCh dbl ptr _ cb =>
    Fits intPin && Fits rdyPin && Fits dmaCh && Fits dbl && Fits ptr
      && (match cb with | none => true | some h => Fits h)

end Sys2Proof
end

