-- ==== Sys2Proof/Certificates/Slice0/Obligations.lean ====
section
/-! DEFINITION. Certificates/Slice0/Obligations.lean: the statements for the provers. "D<n>" is a decision of
92_eei_decisions.md, the spec's own choice; "log entry n" is a choice of the model (notes/assumptions/n.md).
The OPEN parameters of 00_scope.md R9 are `s.par`, `s.numBus` and `s.numDmaCh`: a statement about every state holds for every
value of them; the premise `Legal` is what the spec asks of them (log entries 1 to 6). -/

open Sys2Proof Sys2Proof.Machine

/-! ### Encoding and decoding -/

/-- Decoding the bytes of a well-formed operation gives the operation back, every operand at every value, under every legal
opcode map. The header half is 30_encoding.md R99; the record of a request is log entry 12. -/
def Obligations.DecodeOfEncodeGivesOperationBack : Prop :=
  ∀ (o : Opc) (i : Instr), o.Legal → WellFormed o i = true → decode o i.format (encode o i) = .ok i

/-- Bytes that decode are the encoding of what they decode to: each word has one meaning, and no stray bit is dropped. The
record of a request is log entry 12. -/
def Obligations.EncodeOfDecodeGivesBytesBack : Prop :=
  ∀ (o : Opc) (f : Format) (bytes : List Byte) (i : Instr), decode o f bytes = .ok i →
    i.format = f ∧ encode o i = bytes ∧ (f = .hreq → WellFormed o i = true)

/-- Words written out from the spec's encoding: V-HDR-1, 3, 7, 9 of 95_test_vectors.md, whose opcodes are the default OPC;
the request record is log entry 12. -/
def Obligations.WrittenOutWordsDecode : Prop :=
  decodeHeader .default [0x01, 0x04, 0x00, 0x00, 0x00, 0x08, 0x00, 0x0D] = .ok (.writeConfig 0x4 8 0x0D)
    ∧ decodeHeader .default [0x05, 0x37, 0x12, 0x00, 0x80, 0x04, 0x00, 0xD2] = .ok (.writeDataBlock 0x80001237 4 0xD2)
    ∧ decodeHeader .default [0x03, 0x01, 0x20, 0x00, 0x00, 0x04, 0x00, 0x28] = .ok (.writeDataByte 0x2001 4 0x28)
    ∧ decodeHeader .default [0x06, 0x00, 0x00, 0x00, 0x00, 0x01, 0x00, 0x07] = .error (.unknownOpcode 0x06)
    ∧ decodeRequest ([4, 0, 0, 0, 0, 0, 0, 0, 1, 0, 0, 0, 0, 0, 0, 0, 8, 0, 0, 0, 0, 0, 0, 0, 2] ++ List.replicate 47 0)
      = .ok (.busConfig 1 8 2)

/-- 30_encoding.md R92: a header is well-formed only if its last byte is the sum of the seven before it modulo 256; the
sum is at most 1785; no byte after the header takes part (a header is eight bytes). For a block command the sum is all
there is to it. -/
def Obligations.HeaderWellFormedOnlyIfChecksumIsSum : Prop :=
  ∀ (o : Opc) (h0 h1 h2 h3 h4 h5 h6 h7 : Byte), o.Legal →
    h0.toNat + h1.toNat + h2.toNat + h3.toNat + h4.toNat + h5.toNat + h6.toNat ≤ 1785 ∧
    ∀ i, decodeHeader o [h0, h1, h2, h3, h4, h5, h6, h7] = .ok i →
      (WellFormed o i = true →
        h7.toNat = (h0.toNat + h1.toNat + h2.toNat + h3.toNat + h4.toNat + h5.toNat + h6.toNat) % 256) ∧
      (isBlock o h0 = true →
        h7.toNat = (h0.toNat + h1.toNat + h2.toNat + h3.toNat + h4.toNat + h5.toNat + h6.toNat) % 256 →
        WellFormed o i = true)

/-! ### Operand forms -/

/-- 40_classifier.md R121 with the domain of the source's classifier property: the frame width is 1, 2 or 4, decided at 8
and 16; it divides 8, 16 and 32, so the 8-byte header is a whole number of units. -/
def Obligations.FrameWidthDividesHeader : Prop :=
  ∀ b : Nat,
    (classify b = .byte → frameBytes b = 1) ∧ (classify b = .halfWord → frameBytes b = 2) ∧
    (classify b = .word → frameBytes b = 4) ∧
    (classify b = if b < 8 then .byte else if b < 16 then .halfWord else .word) ∧
    frameBytes b ∣ 8 ∧ frameBytes b ∣ 16 ∧ frameBytes b ∣ 32 ∧ frameBytes 12 = 2

/-- 20_memory.md R64: unit k of an aligned buffer is one access of W bytes, of a misaligned buffer W one-byte accesses in
ascending order; the value moved is the same; no access traps; W = 1 is always aligned. The byte order of the value is D4. -/
def Obligations.MisalignedLoadGivesSameValue : Prop :=
  ∀ (a : Addr) (k b : Nat) (s : State), s.par.Legal →
    let aw := s.par.aw
    let w := frameBytes b
    aligned (unitAddr aw a k w) w = aligned a w ∧
    (loadUnit a k w s).1 = loadBytes aw s.mem (unitAddr aw a k w) w ∧
    (loadUnit a k w s).2 = { s with hist := (if a % w = 0 then [Event.memR (unitAddr aw a k w) w]
      else ((List.range w).map fun j => Event.memR (wrap aw (a + k * w + j)) 1).reverse) ++ s.hist } ∧
    aligned a 1 = true

/-- The store counterpart (R127): the bytes stored do not depend on the alignment, the accesses do, and every other
address reads as before. -/
def Obligations.MisalignedStoreWritesSameBytes : Prop :=
  ∀ (a : Addr) (k b : Nat) (e : Entry) (s : State), s.par.Legal →
    let aw := s.par.aw
    let w := frameBytes b
    let t := storeUnit a k w e s
    (∀ j < w, byteAt t.mem (wrap aw (a + k * w + j)) = byteOf e j) ∧
    (∀ x, (∀ j < w, x ≠ wrap aw (a + k * w + j)) → byteAt t.mem x = byteAt s.mem x) ∧
    t = { s with
      mem := t.mem
      hist := (if a % w = 0 then [Event.memW (unitAddr aw a k w) w (lowBytes w e)]
        else ((List.range w).map fun j =>
          Event.memW (wrap aw (a + k * w + j)) 1 ((byteOf e j).setWidth 32)).reverse) ++ s.hist }

/-- A unit stored and loaded back gives its low 8W bits (R62, R126, R127; D3, D4). -/
def Obligations.StoredUnitLoadsBack : Prop :=
  ∀ (a : Addr) (k b : Nat) (e : Entry) (s : State), s.par.Legal →
    (loadUnit a k (frameBytes b) (storeUnit a k (frameBytes b) e s)).1.toNat = e.toNat % 2 ^ (8 * frameBytes b)

/-! ### A step runs the operation it fetches -/

/-- A host request is fetched from the schedule, decoded and run; bytes that are no record change nothing else (log
entries 11, 13). -/
def Obligations.StepRunsDecodedRequest : Prop :=
  ∀ (s : State) (bytes : List Byte) (rest : List Action), s.sched = .request bytes :: rest →
    (∀ i, decode s.par.opc .hreq bytes = .ok i → step s = exec i { s with sched := rest }) ∧
    (∀ err, decode s.par.opc .hreq bytes = .error err → step s = .next { s with sched := rest })

/-- A wire command is fetched from the receive FIFO of bus 2 at the second edge: the step is exec of the command its
eight bytes decode to, at the state in which the edge is acknowledged, the entries are popped and HDR holds the bytes. A
header short of entries is included: each missing entry is a free value, one draw (10_state.md R33 (2)). -/
def Obligations.StepRunsDecodedHeader : Prop :=
  ∀ (s : State) (rest : List Action) (i : Instr), EdgeNext s .command rest →
    decode s.par.opc .hdr (headerOf s) = .ok i →
    ∃ t, step s = exec i t ∧
      t = { s with
        buses := t.buses
        hdr := t.hdr
        slv := { s.slv with edgePend := false }
        draws := headerDraws s
        sched := rest } ∧
      t.hdr.toList = headerOf s ∧
      (∀ j, j ≠ 2 → t.bus j = s.bus j) ∧
      t.bus 2 = { s.bus 2 with rx := (s.bus 2).rx.drop (8 / frameWidth 2 s) }

/-- At the third edge the step is exec of the command whose opcode, address and length the descriptor holds, at the state
in which the edge is acknowledged. That both halves of a command are one exec is log entry 16. -/
def Obligations.StepRunsLatchedCommand : Prop :=
  ∀ (s : State) (rest : List Action) (i : Instr) (addr : BitVec 32) (len : BitVec 16),
    EdgeNext s .transfer rest → s.par.opc.Legal →
    i ∈ wireCommands addr len (headerSum (opcodeOf s.par.opc i) addr len) →
    s.cmd.op = opcodeOf s.par.opc i → s.cmd.addr = addr → s.cmd.len.toNat = decodedLen len →
    step s = exec i { s with slv := { s.slv with edgePend := false }, sched := rest }

/-! ### The slave state machine -/

/-- 42_slave_fsm.md R193: at an edge in Idle the only action is SLV_STATUS <- Command (and the acknowledge): no FIFO, no
pin, no memory, nothing of bus 2. -/
def Obligations.IdleEdgeOnlyEntersCommand : Prop :=
  ∀ (s : State) (rest : List Action), EdgeNext s .idle rest →
    step s = .next { s with slv := { s.slv with status := .command, edgePend := false }, sched := rest }

/-- The Command phase writes HDR from the entries at the head of the receive FIFO: entry k gives H[k*W + j] = entry[8j+7:8j],
and no other bit of an entry reaches HDR (30_encoding.md R97). -/
def Obligations.HeaderCutIntoEntries : Prop :=
  ∀ (s : State) (rest : List Action), EdgeNext s .command rest →
    ∃ t, step s = .next t ∧
      ∀ k < 8 / frameWidth 2 s, ∀ j < frameWidth 2 s, ∀ e, (s.bus 2).rx[k]? = some e →
        t.hdr.toList[k * frameWidth 2 s + j]? = some (BitVec.ofNat 8 (e.toNat / 2 ^ (8 * j)))

/-- A header with a bad checksum returns to Idle with no side effect, whatever its opcode byte (42_slave_fsm.md R201): no
memory, no descriptor, no event (callback, DMA call, pin, access), the pin unchanged; what does change is that the entries
are popped, HDR is overwritten, and the FIFOs of bus 2 are empty with reception enabled. Headers short of entries are
included. The values of the other registers of bus 2 are the spec's choice (R196, D23), and so is that a channel armed before
stays so when ORPHAN_DMA is live and not when it is stopped (44_dma.md R279, D27, log
entry 6). The premise SlaveGood, that the pin is high, is R210 and part of the invariant. -/
def Obligations.BadChecksumReturnsToIdleSilently : Prop :=
  ∀ (s : State) (rest : List Action), EdgeNext s .command rest → SlaveGood s →
    (headerOf s)[7]? ≠ some (checksum ((headerOf s).take 7)) →
    ∃ t, step s = .next t ∧ t.slv = { s.slv with status := .idle, edgePend := false } ∧
      t = { s with
        buses := t.buses, dma := t.dma, hdr := t.hdr, slv := t.slv, draws := headerDraws s, sched := rest } ∧
      t.hdr.toList = headerOf s ∧ (∀ j, j ≠ 2 → t.bus j = s.bus j) ∧
      (∀ c, t.chan c = { s.chan c with armed := (s.chan c).armed && s.par.orphanDma == .live }) ∧
      t.bus 2 = { s.bus 2 with
        en := true, tx := [], rx := [], dir := .receiveOnly, outEn := false, frameBits := (s.bus 2).dbl, workMode := 0 }

/-- 42_slave_fsm.md R203: decode writes the fresh descriptor; a length field 0 is 65536. For every header with a good
checksum, accepted or not. -/
def Obligations.DecodeWritesFreshDescriptor : Prop :=
  ∀ (s : State) (rest : List Action) (h0 h1 h2 h3 h4 h5 h6 h7 : Byte), EdgeNext s .command rest →
    headerOf s = [h0, h1, h2, h3, h4, h5, h6, h7] → h7 = checksum [h0, h1, h2, h3, h4, h5, h6] →
    ∃ t, step s = .next t ∧ t.cmd.op = h0 ∧
      t.cmd.addr.toNat = h1.toNat + 256 * h2.toNat + 65536 * h3.toNat + 16777216 * h4.toNat ∧
      t.cmd.len.toNat = (if h5.toNat + 256 * h6.toNat = 0 then 65536 else h5.toNat + 256 * h6.toNat) ∧
      t.cmd.err = 0

/-- 42_slave_fsm.md R204: a non-block command of a good checksum whose decoded length exceeds 8 returns to Idle (a length
field 0 is 65536 and is rejected); lengths 1 to 8 pass, and a block command has no limit. After a rejection nothing but
the descriptor, the status, bus 2 and, unless ORPHAN_DMA is live (44_dma.md R279), the channels has changed; no callback is
made. -/
def Obligations.NonBlockLengthOverEightRejected : Prop :=
  ∀ (s : State) (addr : BitVec 32) (len : BitVec 16) (sum : Byte) (i : Instr),
    i ∈ wireCommands addr len sum → sum = headerSum (opcodeOf s.par.opc i) addr len → s.slv.status = .command →
    s.par.opc.Legal → SlaveGood s → s.slv.active = true →
    ∃ t, exec i s = .next t ∧
      (isNonBlock s.par.opc (opcodeOf s.par.opc i) = true ∧ 8 < decodedLen len →
        t.slv = { s.slv with status := .idle } ∧
        t = { s with buses := t.buses, dma := t.dma, cmd := t.cmd, slv := t.slv } ∧
        (∀ j, j ≠ 2 → t.bus j = s.bus j) ∧ (s.par.orphanDma = .live → ∀ c, t.chan c = s.chan c)) ∧
      (isNonBlock s.par.opc (opcodeOf s.par.opc i) = true ∧ decodedLen len ≤ 8 → t.slv.status = .transfer) ∧
      (isBlock s.par.opc (opcodeOf s.par.opc i) = true → t.slv.status = .transfer)

/-- An opcode byte that is none of the six, with a good checksum: a silent return to Idle (R205; the choice is D22). The
channels are as ORPHAN_DMA says (log entry 6). -/
def Obligations.UnknownOpcodeReturnsToIdleSilently : Prop :=
  ∀ (s : State) (rest : List Action) (h0 h1 h2 h3 h4 h5 h6 h7 : Byte), EdgeNext s .command rest →
    SlaveGood s → headerOf s = [h0, h1, h2, h3, h4, h5, h6, h7] → h7 = checksum [h0, h1, h2, h3, h4, h5, h6] →
    isKnown s.par.opc h0 = false →
    ∃ t, step s = .next t ∧ t.slv = { s.slv with status := .idle, edgePend := false } ∧
      t = { s with
        buses := t.buses, dma := t.dma, hdr := t.hdr, cmd := t.cmd, slv := t.slv, draws := headerDraws s
        sched := rest } ∧
      (∀ j, j ≠ 2 → t.bus j = s.bus j) ∧ (s.par.orphanDma = .live → ∀ c, t.chan c = s.chan c)

/-- 42_slave_fsm.md R194: the Command phase ends either in Transfer with the ready pin low, or in Idle with the ready pin
still high. Short headers, whose missing entries are free values, are included. The premise SlaveGood is part of the
invariant. -/
def Obligations.CommandPhaseEndsInTransferLowOrIdleHigh : Prop :=
  ∀ (s : State) (rest : List Action), EdgeNext s .command rest → SlaveGood s →
    ∃ t, step s = .next t ∧
      ((t.slv.status = .transfer ∧ t.rdy = false) ∨ (t.slv.status = .idle ∧ t.rdy = true ∧ s.rdy = true))

/-! ### The wire commands: setup halves -/

/-- READ_CONFIG and READ_DATA_BYTE accepted: bus 2 transmits with the output on, and n = length / W units, unit 0 first,
stand in its transmit FIFO, read from CFG_PTR + address, or from address (R232, R236; register values D23, rounding D11). -/
def Obligations.ReadCommandPreloadsTransmitFifo : Prop :=
  ∀ (s : State) (addr : BitVec 32) (len : BitVec 16) (sum : Byte) (i : Instr) (src : Addr),
    (i = .readConfig addr len sum ∧ src = wrap s.par.aw (s.slv.cfgPtr + addr.toNat)) ∨
      (i = .readDataByte addr len sum ∧ src = addr.toNat) →
    s.slv.status ≠ .transfer → WellFormed s.par.opc i = true → s.par.Legal → 2 < s.numBus →
    ∃ t reads pins, exec i s = .next t ∧ OnlyReads reads ∧ (pins = [] ∨ pins = [Event.pin s.slv.rdyPin false]) ∧
      t = { s with
        buses := t.buses
        slv := { s.slv with status := .transfer }
        cmd := ⟨opcodeOf s.par.opc i, addr, BitVec.ofNat 17 (decodedLen len), 0⟩
        rdy := false
        rdyDriven := true
        hist := pins ++ reads ++ s.hist } ∧
      (∀ a, byteAt t.mem a = byteAt s.mem a) ∧ (∀ j, j ≠ 2 → t.bus j = s.bus j) ∧
      t.bus 2 = { s.bus 2 with
        en := true, dir := .transmitOnly, outEn := true, frameBits := (s.bus 2).dbl, workMode := 0, rx := []
        tx := unitsOf s.par.aw s.mem src (frameWidth 2 s) 0 (decodedLen len / frameWidth 2 s) }

/-- WRITE_CONFIG and WRITE_DATA_BYTE accepted: bus 2 receives with empty FIFOs; no memory access (R234, R238; D23). -/
def Obligations.WriteCommandProgramsReception : Prop :=
  ∀ (s : State) (addr : BitVec 32) (len : BitVec 16) (sum : Byte) (i : Instr),
    i = .writeConfig addr len sum ∨ i = .writeDataByte addr len sum →
    s.slv.status ≠ .transfer → WellFormed s.par.opc i = true → 2 < s.numBus →
    ∃ t pins, exec i s = .next t ∧ (pins = [] ∨ pins = [Event.pin s.slv.rdyPin false]) ∧
      t = { s with
        buses := t.buses
        slv := { s.slv with status := .transfer }
        cmd := ⟨opcodeOf s.par.opc i, addr, BitVec.ofNat 17 (decodedLen len), 0⟩
        rdy := false
        rdyDriven := true
        hist := pins ++ s.hist } ∧
      (∀ a, byteAt t.mem a = byteAt s.mem a) ∧ (∀ j, j ≠ 2 → t.bus j = s.bus j) ∧
      t.bus 2 = { s.bus 2 with
        en := true, dir := .receiveOnly, outEn := false, frameBits := (s.bus 2).dbl, workMode := 0, rx := [], tx := [] }

/-- READ_DATA_BLOCK and WRITE_DATA_BLOCK accepted: bus 2 has 32-bit frames, and channel DMA_CH is armed with one block of
length * 4 bytes: from the address as it stands to the data register, or from the data register to the address rounded down
to a multiple of 16; done bit clear; request line ReqLine(2, TX) or ReqLine(2, RX), the line of no other bus or direction, by
default 5 and 4 (R240, R242, R271 to R274, R280; the register values are D23, the unmasked read address D28, the line numbers
D44). -/
def Obligations.BlockCommandArmsChannel : Prop :=
  ∀ (s : State) (addr : BitVec 32) (len : BitVec 16) (sum : Byte) (i : Instr) (read : Bool),
    (i = .readDataBlock addr len sum ∧ read = true) ∨ (i = .writeDataBlock addr len sum ∧ read = false) →
    s.slv.status ≠ .transfer → WellFormed s.par.opc i = true → s.par.Legal → 2 < s.numBus → s.slv.dmaCh < s.numDmaCh →
    ∃ t pins src dst srcMode dstMode line, exec i s = .next t ∧
      (pins = [] ∨ pins = [Event.pin s.slv.rdyPin false]) ∧
      (read = true → src = .mem addr.toNat ∧ dst = .dr 2 ∧ srcMode = .increment ∧ dstMode = .fixed) ∧
      (read = false → src = .dr 2 ∧ dst = .mem (addr.toNat / 16 * 16) ∧ srcMode = .fixed ∧ dstMode = .increment) ∧
      line = reqLine s.par 2 (if read then .tx else .rx) ∧
      (∀ bus dir, reqLine s.par bus dir = line → bus = 2 ∧ dir = if read then .tx else .rx) ∧
      (s.par.reqLines = [] → line = if read then 5 else 4) ∧
      t = { s with
        buses := t.buses
        dma := t.dma
        slv := { s.slv with status := .transfer }
        cmd := ⟨opcodeOf s.par.opc i, addr, BitVec.ofNat 17 (decodedLen len), 0⟩
        rdy := false
        rdyDriven := true
        hist := pins ++ Event.dmaArmed s.slv.dmaCh src dst srcMode dstMode 4 32 (decodedLen len * 4)
          :: Event.collab (.dmaSelect s.slv.dmaCh line) :: s.hist } ∧
      (∀ a, byteAt t.mem a = byteAt s.mem a) ∧ (∀ c, c ≠ s.slv.dmaCh → t.chan c = s.chan c) ∧
      t.chan s.slv.dmaCh = ⟨line, true, src, dst, srcMode, dstMode, 4, 32, decodedLen len * 4, false⟩ ∧
      (∀ j, j ≠ 2 → t.bus j = s.bus j) ∧
      t.bus 2 = { s.bus 2 with
        en := true, dir := if read then .transmitOnly else .receiveOnly, outEn := read, frameBits := 32, workMode := 0
        rx := [], tx := [] }

/-- 44_dma.md R272: the byte count of a block transfer is the command length times 4: 4 to 262144, a multiple of 4, one
beat of four bytes per unit; a zero length field gives 262144. -/
def Obligations.BlockByteCountIsFourTimesLength : Prop :=
  ∀ (s : State) (addr : BitVec 32) (len : BitVec 16) (sum : Byte) (i : Instr),
    i = .readDataBlock addr len sum ∨ i = .writeDataBlock addr len sum →
    s.slv.status ≠ .transfer → WellFormed s.par.opc i = true → s.slv.dmaCh < s.numDmaCh →
    ∃ t, exec i s = .next t ∧ (t.chan s.slv.dmaCh).rem = t.cmd.len.toNat * 4 ∧
      4 ≤ (t.chan s.slv.dmaCh).rem ∧ (t.chan s.slv.dmaCh).rem ≤ 262144 ∧ (t.chan s.slv.dmaCh).rem % 4 = 0 ∧
      (t.chan s.slv.dmaCh).rem / 4 = t.cmd.len.toNat ∧
      (len = 0 → (t.chan s.slv.dmaCh).rem = 262144) ∧ (len = 4 → (t.chan s.slv.dmaCh).rem = 16)

/-! ### The wire commands: completion halves -/

/-- READ_CONFIG and READ_DATA_BYTE in Transfer (T1): the error ERR_TX exactly when the transmit FIFO of bus 2 is not empty;
nothing else changes (R232, R236, R250; the code is a parameter, D8), but for a channel that an earlier cycle left armed, which
ORPHAN_DMA = stopped disarms (D27, log entry 6). -/
def Obligations.ReadCommandChecksTransmitFifoDrained : Prop :=
  ∀ (s : State) (addr : BitVec 32) (len : BitVec 16) (sum : Byte) (i : Instr),
    i = .readConfig addr len sum ∨ i = .readDataByte addr len sum → s.slv.status = .transfer →
    ∃ t, exec i s = .next t ∧
      t = { s with
        cmd := { s.cmd with err := if (s.bus 2).tx = [] then s.cmd.err else s.par.errTx }
        dma := t.dma
        slv := { s.slv with handler := .callbackDue } } ∧
      (∀ c, t.chan c = { s.chan c with armed := (s.chan c).armed && s.par.orphanDma == .live })

/-- WRITE_CONFIG and WRITE_DATA_BYTE in Transfer (T1): with n = CMD_LEN / W, the error ERR_RX exactly when fewer than n
entries are in the receive FIFO; then, check passed or failed, n units are stored from CFG_PTR + CMD_ADDR, or CMD_ADDR, on:
the entries present, then free values, one draw each; every address outside the units reads as before (R234, R238, R250,
R252; D8, D19, D25). The channels are as ORPHAN_DMA says (D27, log entry 6). -/
def Obligations.WriteCommandCommitsUnits : Prop :=
  ∀ (s : State) (addr : BitVec 32) (len : BitVec 16) (sum : Byte) (i : Instr) (dst : Addr),
    (i = .writeConfig addr len sum ∧ dst = wrap s.par.aw (s.slv.cfgPtr + s.cmd.addr.toNat)) ∨
      (i = .writeDataByte addr len sum ∧ dst = s.cmd.addr.toNat) →
    s.slv.status = .transfer → s.par.Legal →
    let w := frameWidth 2 s
    let n := s.cmd.len.toNat / w
    ∃ t writes free, exec i s = .next t ∧ OnlyWrites writes ∧ free.length = n - (s.bus 2).rx.length ∧
      t = { s with
        buses := t.buses
        dma := t.dma
        mem := t.mem
        cmd := { s.cmd with err := if (s.bus 2).rx.length < n then s.par.errRx else s.cmd.err }
        slv := { s.slv with handler := .callbackDue }
        draws := s.draws + (n - (s.bus 2).rx.length)
        hist := writes ++ s.hist } ∧
      t.mem = withUnits s.par.aw s.mem dst w 0 ((s.bus 2).rx.take n ++ free) ∧
      (∀ a, OutsideUnits s.par.aw a dst w 0 n → byteAt t.mem a = byteAt s.mem a) ∧
      (∀ c, t.chan c = { s.chan c with armed := (s.chan c).armed && s.par.orphanDma == .live }) ∧
      (∀ j, j ≠ 2 → t.bus j = s.bus j) ∧ t.bus 2 = { s.bus 2 with rx := (s.bus 2).rx.drop n }

/-- READ_DATA_BLOCK and WRITE_DATA_BLOCK in Transfer (T1): error 3 exactly when the done bit of channel DMA_CH is clear;
the done bit is only read: not waited for, not cleared (44_dma.md R277); a transfer left behind stays armed when ORPHAN_DMA is
live, and makes no further beat when it is stopped (R279, D27; log entry 6). -/
def Obligations.BlockCommandReadsDoneBitOnce : Prop :=
  ∀ (s : State) (addr : BitVec 32) (len : BitVec 16) (sum : Byte) (i : Instr),
    i = .readDataBlock addr len sum ∨ i = .writeDataBlock addr len sum → s.slv.status = .transfer →
    ∃ t, exec i s = .next t ∧
      t = { s with
        cmd := { s.cmd with err := if (s.chan s.slv.dmaCh).done then s.cmd.err else 3 }
        dma := t.dma
        slv := { s.slv with handler := .callbackDue } } ∧
      (∀ c, t.chan c = { s.chan c with armed := (s.chan c).armed && s.par.orphanDma == .live }) ∧
      (s.par.orphanDma = .stopped → ∀ c, dmaBeat c t = t)

/-- 42_slave_fsm.md R195: at an edge in Transfer the Transfer phase runs and always ends in Idle with the ready pin high:
T1 (state u), then the callback delivered once with the descriptor if one is registered, its return, and the re-arm, which
leaves bus 2 ready for a header. Whatever command the descriptor holds. T2 and T3 touch no memory: it is as T1 left it,
unchanged but for the units of a write command. The register values of bus 2 after the re-arm are D23 (its FIFOs D18), the
three-step grain is D42; the channels stay as they are when ORPHAN_DMA is live and are no longer armed, from T1 on, when it is
stopped (44_dma.md R279, D27, log entry 6). -/
def Obligations.TransferPhaseEndsInIdleWithPinHigh : Prop :=
  ∀ (s : State) (rest : List Action), EdgeNext s .transfer ([.slave, .callbackReturn, .slave] ++ rest) →
    s.par.Legal → 2 < s.numBus →
    ∃ u t writes pins, step s = .next u ∧ core.run 4 s = .next t ∧ OnlyWrites writes ∧
      (pins = [] ∨ pins = [Event.pin s.slv.rdyPin true]) ∧
      u.cmd = { s.cmd with err := u.cmd.err } ∧
      (∀ c, u.chan c = { s.chan c with armed := (s.chan c).armed && s.par.orphanDma == .live }) ∧
      t = { s with
        buses := t.buses
        dma := t.dma
        mem := u.mem
        draws := u.draws
        slv := { s.slv with status := .idle, handler := .none, edgePend := false }
        cmd := u.cmd
        rdy := true
        rdyDriven := true
        hist := pins ++ (if s.slv.cb.isSome then [Event.callback u.cmd] else []) ++ writes ++ s.hist
        sched := rest } ∧
      (s.cmd.op ≠ s.par.opc.writeConfig → s.cmd.op ≠ s.par.opc.writeDataByte → t.mem = s.mem ∧ t.draws = s.draws) ∧
      (∀ a dst, (s.cmd.op = s.par.opc.writeConfig ∧ dst = wrap s.par.aw (s.slv.cfgPtr + s.cmd.addr.toNat)) ∨
          (s.cmd.op = s.par.opc.writeDataByte ∧ dst = s.cmd.addr.toNat) →
        OutsideUnits s.par.aw a dst (frameWidth 2 s) 0 (s.cmd.len.toNat / frameWidth 2 s) →
        byteAt t.mem a = byteAt s.mem a) ∧
      (∀ c, t.chan c = { s.chan c with armed := (s.chan c).armed && s.par.orphanDma == .live }) ∧
      (∀ j, j ≠ 2 → t.bus j = s.bus j) ∧
      t.bus 2 = { s.bus 2 with
        en := true, tx := [], rx := [], dir := .receiveOnly, outEn := false, frameBits := (s.bus 2).dbl, workMode := 0 }

/-- A callback that has not returned holds the slave role: its turn changes nothing, and the pin stays low (R209; D30). -/
def Obligations.CallbackHoldsSlaveUntilItReturns : Prop :=
  ∀ (s : State) (rest : List Action), s.slv.handler = .inCallback → s.sched = .slave :: rest →
    step s = .next { s with sched := rest }

/-- A write-type command whose payload is complete, followed by a read-type command of the same address and length, sends
the payload back, each entry cut to its unit (20_memory.md R77, derived there). The length is the descriptor's. -/
def Obligations.WriteThenReadReturnsPayload : Prop :=
  ∀ (s u : State) (len : BitVec 16) (config : Bool), s.par.Legal →
    s.slv.status = .transfer → s.cmd.len.toNat = decodedLen len → decodedLen len ≤ 8 →
    (s.bus 2).rx.length = decodedLen len / frameWidth 2 s →
    let w := if config then Instr.writeConfig s.cmd.addr len 0 else Instr.writeDataByte s.cmd.addr len 0
    let op := if config then s.par.opc.readConfig else s.par.opc.readDataByte
    let sum := headerSum op s.cmd.addr len
    let r := if config then Instr.readConfig s.cmd.addr len sum else Instr.readDataByte s.cmd.addr len sum
    ∃ t, exec w s = .next t ∧ t.cmd.err = s.cmd.err ∧
      (u.mem = t.mem → u.par = s.par → 2 < u.numBus → u.slv.status = .command → u.slv.cfgPtr = s.slv.cfgPtr →
        (u.bus 2).dbl = (s.bus 2).dbl →
        ∃ v, exec r u = .next v ∧
          (v.bus 2).tx.map BitVec.toNat = (s.bus 2).rx.map fun e => e.toNat % 2 ^ (8 * frameWidth 2 s))

/-! ### The master operations: requests -/

/-- SEND and SENDW accepted (S0, S1): chip-select one-hot, TRANSMIT_ONLY, enabled, in one step; the operands are latched;
SENDW goes to its command words first (R144, R145, R164; D12). That SEND leaves the registers of the command prefix as they
were is log entry 29 (DEDUCED), and that an address is taken modulo 2^AW is log entry 28. -/
def Obligations.SendRequestOpensTransmit : Prop :=
  ∀ (s : State) (bus cs : Nat) (cbuf : Addr) (ccnt : BitVec 32) (buf : Addr) (len : BitVec 32),
    Open s → MasterBus s bus → cs < s.par.numCs → (s.bus bus).dblWritten = true →
    ∀ i ∈ [Instr.send bus cs buf len, Instr.sendw bus cs cbuf ccnt buf len],
    ∃ t, exec i s = .next t ∧ t = { s with buses := t.buses, mst := t.mst } ∧
      (∀ a, byteAt t.mem a = byteAt s.mem a) ∧ (∀ j, j ≠ bus → t.bus j = s.bus j) ∧
      t.bus bus = { s.bus bus with cs := 2 ^ cs, dir := .transmitOnly, en := true } ∧
      (i = .send bus cs buf len → t.mst = { s.mst with
        phase := .fill, op := .send, bus := bus, csel := cs, buf := wrap s.par.aw buf, rem := len.toNat, idx := 0
        w := frameBytes (s.bus bus).dbl.toNat }) ∧
      (i = .sendw bus cs cbuf ccnt buf len →
        t.mst = ⟨.cmd, .sendw, bus, cs, wrap s.par.aw cbuf, ccnt.toNat, wrap s.par.aw buf, len.toNat, 0,
          frameBytes (s.bus bus).dbl.toNat⟩)

/-- RECV and RECVW accepted (V0, V1): the direction says whether there is a prefix, the receive-length register holds the
frame count minus one modulo 2^32, the bus is enabled, the chip-select not yet asserted (R154, R155, R170; D13, D14). That
RECV latches its command length, in bytes, in the register of the command count is log entry 29 (DEDUCED), and that an address
is taken modulo 2^AW is log entry 28. -/
def Obligations.RecvRequestOpensReceive : Prop :=
  ∀ (s : State) (bus cs : Nat) (cbuf : Addr) (ccnt : BitVec 32) (buf : Addr) (len : BitVec 32),
    Open s → MasterBus s bus → cs < s.par.numCs → (s.bus bus).dblWritten = true →
    ∀ i ∈ [Instr.recv bus cs cbuf ccnt buf len, Instr.recvw bus cs cbuf ccnt buf len],
    let w := frameBytes (s.bus bus).dbl.toNat
    ∃ t, exec i s = .next t ∧ t = { s with buses := t.buses, mst := t.mst } ∧
      (∀ a, byteAt t.mem a = byteAt s.mem a) ∧ (∀ j, j ≠ bus → t.bus j = s.bus j) ∧
      t.bus bus = { s.bus bus with
        dir := if ccnt = 0 then .receiveOnly else .readAfterWrite
        rxcnt := BitVec.ofNat 32 (len.toNat / w + (2 ^ 32 - 1))
        en := true } ∧
      t.mst = ⟨.cmd, if i = .recv bus cs cbuf ccnt buf len then .recv else .recvw, bus, cs, wrap s.par.aw cbuf, ccnt.toNat,
        wrap s.par.aw buf, len.toNat / w, 0, w⟩

/-- A master operation on a bus that no BUS_CONFIG has configured stops with UninitRead (10_state.md R28,
70_reset_and_hazards.md R343; D32). -/
def Obligations.UnconfiguredBusFaults : Prop :=
  ∀ (s : State) (bus cs : Nat) (p q : Addr) (n m : BitVec 32), Open s → MasterBus s bus → cs < s.par.numCs →
    (s.bus bus).dblWritten = false → ∀ i ∈ masterOps bus cs p n q m, exec i s = .fault (.uninitRead bus)

/-- A request is turned away, and nothing changes, while the machine is halted, while a slave handler or the callback is in
progress, while a master operation is in progress (R301, R142, R357; D35; for SLAVE_CONFIG log entry 20). -/
def Obligations.ClosedEngineTurnsRequestsAway : Prop :=
  ∀ (s : State) (i : Instr), i.format = .hreq → ¬ Open s → exec i s = .next s

/-- Validate (41_master.md R141; D20, D38): the master operations and the two bus configurations abort on a bus out of
range, then on the slave bus, with everything but the fatal state and the history as it was; a chip select out of range is
turned away (the configurations validate chip select 0). The order of the checks is that of 60_exceptions.md R309. -/
def Obligations.ValidateAbortsBeforeAnyWrite : Prop :=
  ∀ (s : State) (bus cs dbl : Nat) (p q : Addr) (n m : BitVec 32) (wm : BitVec 2) (il al wc : BitVec 8), Open s →
    (∀ i ∈ Instr.busConfig bus dbl wm :: Instr.nonstdConfig bus il al wc :: masterOps bus cs p n q m,
      (s.numBus ≤ bus → exec i s = .next { s with
        fatal := true, fatalCause := 1, hist := .fault (.abort .busOutOfRange) :: s.hist }) ∧
      (bus = 2 ∧ 2 < s.numBus → exec i s = .next { s with
        fatal := true, fatalCause := 2, hist := .fault (.abort .slaveBusInMaster) :: s.hist })) ∧
    (∀ i ∈ masterOps bus cs p n q m, MasterBus s bus → s.par.numCs ≤ cs → exec i s = .next s) ∧
    (∀ i ∈ [Instr.busConfig bus dbl wm, Instr.nonstdConfig bus il al wc], MasterBus s bus → s.par.numCs = 0 →
      exec i s = .next s)

/-! ### The master operations: the steps of MASTER -/

/-- Step C of SENDW: the command words, 4 bytes each whatever the frame width, are pushed as whole entries in order, behind
what the FIFO holds; with room for all of them no fault is recorded (R165). -/
def Obligations.SendwPushesCommandWords : Prop :=
  ∀ (s : State) (rest : List Action), MasterNext s .cmd rest → s.mst.op = .sendw → s.mst.bus < s.numBus →
    (s.bus s.mst.bus).tx.length + s.mst.cmdCnt ≤ 32 →
    ∃ t reads, step s = .next t ∧ OnlyReads reads ∧
      t = { s with
        buses := t.buses, mst := { s.mst with phase := .fill }, hist := reads ++ s.hist, sched := rest } ∧
      (∀ j, j ≠ s.mst.bus → t.bus j = s.bus j) ∧
      t.bus s.mst.bus = { s.bus s.mst.bus with
        tx := (s.bus s.mst.bus).tx ++ unitsOf s.par.aw s.mem s.mst.cmdPtr 4 0 s.mst.cmdCnt }

/-- A command prefix longer than the room, of SENDW (words of 4 bytes), RECV (units of W bytes) or RECVW (words), or the
filler of RECV and RECVW into a full FIFO: the entries that fit are pushed, the rest are lost, TxOverflow is recorded, and the
operation goes on as it does when the prefix fits (R33 (1), R156, R157, R165, R171; D17, D19). That no pop of the link falls
inside the step is log entry 33. -/
def Obligations.PrefixOverflowIsRecorded : Prop :=
  ∀ (s : State) (rest : List Action), MasterNext s .cmd rest → s.mst.op ≠ .send → s.mst.bus < s.numBus →
    (s.bus s.mst.bus).tx.length ≤ 32 →
    let w := if s.mst.op = .recv then s.mst.w else 4
    let n := if s.mst.op = .recv then s.mst.cmdCnt / s.mst.w else s.mst.cmdCnt
    let pushed := if s.mst.op ≠ .sendw ∧ s.mst.cmdCnt = 0 then [0xFFFFFFFF] else unitsOf s.par.aw s.mem s.mst.cmdPtr w 0 n
    32 < (s.bus s.mst.bus).tx.length + pushed.length →
    ∃ t evs, step s = .next t ∧ OnlyReadsOrOverflows s.mst.bus evs ∧ Event.fault (.txOverflow s.mst.bus) ∈ evs ∧
      t = { s with
        buses := t.buses
        mst := { s.mst with phase := if s.mst.op = .sendw then .fill else .drain }
        hist := evs ++ s.hist
        sched := rest } ∧
      (∀ j, j ≠ s.mst.bus → t.bus j = s.bus j) ∧
      t.bus s.mst.bus = { s.bus s.mst.bus with
        tx := ((s.bus s.mst.bus).tx ++ pushed).take 32
        cs := if s.mst.op = .sendw then (s.bus s.mst.bus).cs else 2 ^ s.mst.csel }

/-- Step V2 of RECV and RECVW: with no prefix one all-ones filler entry, else the prefix units (W bytes each for RECV, 4 for
RECVW); then the chip-select (R156, R157, R171; D13, D16). -/
def Obligations.RecvPushesPrefixThenChipSelect : Prop :=
  ∀ (s : State) (rest : List Action), MasterNext s .cmd rest → s.mst.bus < s.numBus →
    s.mst.op = .recv ∨ s.mst.op = .recvw →
    let w := if s.mst.op = .recv then s.mst.w else 4
    let n := if s.mst.op = .recv then s.mst.cmdCnt / s.mst.w else s.mst.cmdCnt
    let pushed := if s.mst.cmdCnt = 0 then [0xFFFFFFFF] else unitsOf s.par.aw s.mem s.mst.cmdPtr w 0 n
    (s.bus s.mst.bus).tx.length + pushed.length ≤ 32 →
    ∃ t reads, step s = .next t ∧ OnlyReads reads ∧
      t = { s with
        buses := t.buses, mst := { s.mst with phase := .drain }, hist := reads ++ s.hist, sched := rest } ∧
      (∀ j, j ≠ s.mst.bus → t.bus j = s.bus j) ∧
      t.bus s.mst.bus = { s.bus s.mst.bus with
        tx := (s.bus s.mst.bus).tx ++ pushed, cs := 2 ^ s.mst.csel }

/-- One fill iteration (S2): n = (min(free, rem) / W) * W; n / W units are pushed in ascending order, never more than the
room, so no overflow; idx and rem advance; with nothing left M_WAIT follows (R146, R147; D10, log entry 17). -/
def Obligations.FillIterationPushesWholeUnits : Prop :=
  ∀ (s : State) (rest : List Action), MasterNext s .fill rest → s.mst.bus < s.numBus →
    (s.bus s.mst.bus).tx.length ≤ 32 →
    let n := min (32 - (s.bus s.mst.bus).tx.length) s.mst.rem / s.mst.w * s.mst.w
    ∃ t reads, step s = .next t ∧ OnlyReads reads ∧
      t = { s with
        buses := t.buses
        mst := { s.mst with
          phase := if s.mst.rem = n then .wait else .fill, idx := s.mst.idx + n / s.mst.w, rem := s.mst.rem - n }
        hist := reads ++ s.hist
        sched := rest } ∧
      (∀ j, j ≠ s.mst.bus → t.bus j = s.bus j) ∧
      t.bus s.mst.bus = { s.bus s.mst.bus with
        tx := (s.bus s.mst.bus).tx ++ unitsOf s.par.aw s.mem s.mst.buf s.mst.w s.mst.idx (n / s.mst.w) } ∧
      (t.bus s.mst.bus).tx.length ≤ 32

/-- SEND with a remainder smaller than the frame width never ends: every step, whatever the turn, that answers a next state
keeps the operation in M_FILL with the same remainder and width (so no number of steps leaves it), the bus enabled and its
chip-select asserted; a turn of MASTER changes nothing at all (R148; D11). -/
def Obligations.FillWithShortRemainderHangs : Prop :=
  ∀ s t : State, step s = .next t → s.mst.phase = .fill → 0 < s.mst.rem → s.mst.rem < s.mst.w →
    t.mst = s.mst ∧
    (s.mst.bus ≠ 2 → (t.bus s.mst.bus).en = (s.bus s.mst.bus).en ∧ (t.bus s.mst.bus).cs = (s.bus s.mst.bus).cs) ∧
    (∀ rest, s.sched = .master :: rest → t = { s with sched := rest })

/-- 41_master.md R150: the completion wait ends exactly at a poll that finds the transmit FIFO empty and the controller not
busy; a poll has no side effect, and there is no bound on their number. -/
def Obligations.CompletionWaitPollsStatus : Prop :=
  ∀ (s : State) (k : Nat), s.fatal = false → s.mst.phase = .wait → s.sched = List.replicate (k + 1) .master →
    ((s.bus s.mst.bus).tx = [] ∧ (s.bus s.mst.bus).busy = false →
      step s = .next { s with mst := { s.mst with phase := .fin }, sched := List.replicate k .master }) ∧
    (¬ ((s.bus s.mst.bus).tx = [] ∧ (s.bus s.mst.bus).busy = false) →
      core.run (k + 1) s = .next { s with sched := [] })

/-- One drain iteration (V3): n = min(RxLevel, rem) entries are popped and stored as units idx, idx+1, … of the output
buffer; every address outside them reads as before; idx and rem advance; with nothing left the closing step follows (R158;
D15, log entry 17). -/
def Obligations.DrainIterationStoresReceivedUnits : Prop :=
  ∀ (s : State) (rest : List Action), MasterNext s .drain rest → s.mst.bus < s.numBus →
    let n := min (s.bus s.mst.bus).rx.length s.mst.rem
    ∃ t writes, step s = .next t ∧ OnlyWrites writes ∧
      t = { s with
        buses := t.buses
        mem := t.mem
        mst := { s.mst with
          phase := if s.mst.rem = n then .fin else .drain, idx := s.mst.idx + n, rem := s.mst.rem - n }
        hist := writes ++ s.hist
        sched := rest } ∧
      t.mem = withUnits s.par.aw s.mem s.mst.buf s.mst.w s.mst.idx ((s.bus s.mst.bus).rx.take n) ∧
      (∀ a, OutsideUnits s.par.aw a s.mst.buf s.mst.w s.mst.idx n → byteAt t.mem a = byteAt s.mem a) ∧
      (∀ j, j ≠ s.mst.bus → t.bus j = s.bus j) ∧
      t.bus s.mst.bus = { s.bus s.mst.bus with rx := (s.bus s.mst.bus).rx.drop n }

/-- The closing step (S4, V4): chip-select off, controller off with both FIFOs empty, M_IDLE, nothing else (R151, R159; D18). -/
def Obligations.ClosingStepReleasesBus : Prop :=
  ∀ (s : State) (rest : List Action), MasterNext s .fin rest → s.mst.bus < s.numBus →
    ∃ t, step s = .next t ∧
      t = { s with buses := t.buses, mst := { s.mst with phase := .idle }, sched := rest } ∧
      (∀ j, j ≠ s.mst.bus → t.bus j = s.bus j) ∧
      t.bus s.mst.bus = { s.bus s.mst.bus with cs := 0, en := false, tx := [], rx := [] }

/-- A SEND of at most 32 bytes, a whole number of units, on an idle bus whose link drains it, under one schedule: the request,
one fill iteration, the link taking every entry, a poll and the closing step. The wire has carried exactly the units of the
buffer in order, no memory has changed, and the bus is released (R152 is derived in the spec; the schedule is log entry 11).
Longer buffers, and SENDW, are the statements on the steps of MASTER one by one. -/
def Obligations.SendDeliversBufferInOrder : Prop :=
  ∀ (s : State) (bus cs : Nat) (buf : Addr) (len : BitVec 32) (rest : List Action),
    let w := frameBytes (s.bus bus).dbl.toNat
    let n := len.toNat / w
    let i := Instr.send bus cs buf len
    Open s → MasterBus s bus → cs < s.par.numCs → WellFormed s.par.opc i = true →
    (s.bus bus).dblWritten = true → (s.bus bus).tx = [] → (s.bus bus).busy = false →
    len.toNat % w = 0 → len.toNat ≤ 32 →
    s.sched = [.request (encode s.par.opc i), .master] ++ List.replicate n (.linkOut bus) ++ [.master, .master] ++ rest →
    ∃ t reads, core.run (n + 4) s = .next t ∧ OnlyReads reads ∧
      t.hist = ((unitsOf s.par.aw s.mem buf w 0 n).map (Event.wireOut bus)).reverse ++ reads ++ s.hist ∧
      t.mem = s.mem ∧ t.mst.phase = .idle ∧ t.sched = rest ∧ (∀ j, j ≠ bus → t.bus j = s.bus j) ∧
      t.bus bus = { s.bus bus with cs := 0, dir := .transmitOnly, en := false, rx := [] }

/-! ### The configuration operations -/

/-- BUS_CONFIG accepted writes DBL, FRAME_BITS and WORK_MODE of the bus; the clock call is the only other trace; a
data-bit-length outside 4 to 32, of any size, aborts with cause 4 (R180, R321; D2, D36). -/
def Obligations.BusConfigWritesThreeRegisters : Prop :=
  ∀ (s : State) (bus dbl : Nat) (wm : BitVec 2), Open s → MasterBus s bus → 0 < s.par.numCs →
    (4 ≤ dbl ∧ dbl ≤ 32 → ∃ t, exec (.busConfig bus dbl wm) s = .next t ∧
      t = { s with buses := t.buses, hist := .collab (.clockEnable bus) :: s.hist } ∧
      (∀ a, byteAt t.mem a = byteAt s.mem a) ∧ (∀ j, j ≠ bus → t.bus j = s.bus j) ∧
      t.bus bus = { s.bus bus with
        dbl := BitVec.ofNat 6 dbl, dblWritten := true, frameBits := BitVec.ofNat 6 dbl, workMode := wm } ∧
      (t.bus bus).dbl.toNat = dbl) ∧
    (dbl < 4 ∨ 32 < dbl → exec (.busConfig bus dbl wm) s = .next { s with
      fatal := true, fatalCause := 4, hist := .fault (.abort .badConfig) :: s.hist })

/-- NONSTD_CONFIG accepted writes the three framing fields of the bus, nothing else; an unsupported combination aborts with
cause 3 (R182). Which combinations are supported is a parameter (D37); its default is R182's (log entry 5). -/
def Obligations.NonstdConfigWritesFramingFields : Prop :=
  ∀ (s : State) (bus : Nat) (il al wc : BitVec 8), Open s → MasterBus s bus → 0 < s.par.numCs →
    let supported := ∃ b ∈ s.par.nonStd, il ∈ b.instrLens ∧ al ∈ b.addrLens ∧ wc ∈ b.waitCycles
    (supported → ∃ t, exec (.nonstdConfig bus il al wc) s = .next t ∧ t = { s with buses := t.buses } ∧
      (∀ a, byteAt t.mem a = byteAt s.mem a) ∧ (∀ j, j ≠ bus → t.bus j = s.bus j) ∧
      t.bus bus = { s.bus bus with instrLen := il, addrLen := al, waitCycles := wc }) ∧
    (¬ supported → exec (.nonstdConfig bus il al wc) s = .next { s with
      fatal := true, fatalCause := 3, hist := .fault (.abort .unsupportedFraming) :: s.hist }) ∧
    (s.par = .default →
      (supported ↔ il.toNat ∈ [0, 4, 8, 16] ∧ al.toNat % 4 = 0 ∧ al.toNat ≤ 60 ∧ wc.toNat < 32))

/-- SLAVE_CONFIG accepted writes every field of the instance, clears a pending edge, leaves Idle with the pin high and bus 2
receiving with empty FIFOs, and makes the collaborator calls in their order; without a bus 2 it aborts with cause 1; a bad
data-bit-length, of any size, or channel number aborts with cause 4 (R190, R196, R324; D2, D23, D31; the pin event is log
entry 21; that CFG_PTR is taken modulo 2^AW is log entry 28; the channels are as ORPHAN_DMA says, log entry 6;
that equal pins are accepted like any others is log entry 34). -/
def Obligations.SlaveConfigCreatesInstance : Prop :=
  ∀ (s : State) (ip rp ch dbl : Nat) (ptr : Addr) (len : BitVec 32) (cb : Option Nat), Open s →
    (2 < s.numBus ∧ 4 ≤ dbl ∧ dbl ≤ 32 ∧ ch < s.numDmaCh →
      ∃ t, exec (.slaveConfig ip rp ch dbl ptr len cb) s = .next t ∧
      t = { s with
        buses := t.buses
        dma := t.dma
        slv := ⟨true, .idle, .none, wrap s.par.aw ptr, len, cb, ch, rp, ip, s.par.wmOff, s.par.oeOff, s.par.fsOff, false⟩
        rdy := true
        rdyDriven := true
        hist := [Event.pin rp true, .collab .intcEnable, .collab .intcRegister, .collab .intcSetPriority,
          .collab (.registerEdgeCallback ip), .collab (.setEdgeTriggerRising ip), .collab (.setDriveMode ip false),
          .collab (.setDriveMode rp true), .collab (.clockEnable 2)] ++ s.hist } ∧
      (∀ a, byteAt t.mem a = byteAt s.mem a) ∧ (∀ j, j ≠ 2 → t.bus j = s.bus j) ∧
      (∀ c, t.chan c = { s.chan c with armed := (s.chan c).armed && s.par.orphanDma == .live }) ∧
      t.bus 2 = { s.bus 2 with
        dbl := BitVec.ofNat 6 dbl, dblWritten := true, en := true, tx := [], rx := [], dir := .receiveOnly, outEn := false
        frameBits := BitVec.ofNat 6 dbl, workMode := 0 } ∧
      (t.bus 2).dbl.toNat = dbl) ∧
    (s.numBus ≤ 2 → exec (.slaveConfig ip rp ch dbl ptr len cb) s = .next { s with
      fatal := true, fatalCause := 1, hist := .fault (.abort .busOutOfRange) :: s.hist }) ∧
    (2 < s.numBus ∧ (dbl < 4 ∨ 32 < dbl ∨ s.numDmaCh ≤ ch) →
      exec (.slaveConfig ip rp ch dbl ptr len cb) s = .next { s with
        fatal := true, fatalCause := 4, hist := .fault (.abort .badConfig) :: s.hist })

/-! ### The environment -/

/-- A rising edge is latched only while SLV_ACTIVE = 1, merges with a pending one, and is recorded (45_handshake.md R294;
D21, D40). -/
def Obligations.EdgeLatchedOnceWhileActive : Prop :=
  ∀ (s : State) (rest : List Action), s.sched = .edge :: .edge :: rest →
    core.run 2 s = .next { s with
      slv := { s.slv with edgePend := s.slv.active || s.slv.edgePend }, hist := .edge :: .edge :: s.hist, sched := rest }

/-- A DMA beat from the data register to memory: one entry is popped, its four bytes stand at DST, every other address reads
as before, DST and REM move by 4, and the last beat sets done and disarms (44_dma.md R275; D26; while bus 2 is enabled, R24). -/
def Obligations.DmaBeatWritesMemory : Prop :=
  ∀ (s : State) (c : Nat) (dst : Addr) (e : Entry) (es : List Entry) (rest : List Action), s.par.Legal → c < s.numDmaCh →
    s.sched = .dma c :: rest → (s.chan c).armed = true → (s.chan c).src = .dr 2 → (s.chan c).dst = .mem dst →
    (s.chan c).dstMode = .increment → 0 < (s.chan c).rem → (s.bus 2).en = true → (s.bus 2).rx = e :: es →
    ∃ t, step s = .next t ∧
      t = { s with buses := t.buses, dma := t.dma, mem := t.mem, hist := .memW dst 4 e :: s.hist, sched := rest } ∧
      (∀ j < 4, byteAt t.mem (wrap s.par.aw (dst + j)) = byteOf e j) ∧
      (∀ a, (∀ j < 4, a ≠ wrap s.par.aw (dst + j)) → byteAt t.mem a = byteAt s.mem a) ∧
      (∀ j, j ≠ 2 → t.bus j = s.bus j) ∧ t.bus 2 = { s.bus 2 with rx := es } ∧
      (∀ d, d ≠ c → t.chan d = s.chan d) ∧
      t.chan c = { s.chan c with
        dst := .mem (wrap s.par.aw (dst + 4)), rem := (s.chan c).rem - 4
        done := if (s.chan c).rem ≤ 4 then true else (s.chan c).done, armed := decide (4 < (s.chan c).rem) }

/-- A DMA beat from memory to the data register: four bytes at SRC become one entry at the tail of the transmit FIFO, no
memory changes, SRC and REM move by 4, and the last beat sets done and disarms (44_dma.md R276; D26; while bus 2 is
enabled, R24). -/
def Obligations.DmaBeatFillsTransmitFifo : Prop :=
  ∀ (s : State) (c : Nat) (src : Addr) (rest : List Action), c < s.numDmaCh →
    s.sched = .dma c :: rest → (s.chan c).armed = true → (s.chan c).src = .mem src → (s.chan c).dst = .dr 2 →
    (s.chan c).srcMode = .increment → 0 < (s.chan c).rem → (s.bus 2).en = true → (s.bus 2).tx.length < 32 →
    ∃ t, step s = .next t ∧
      t = { s with buses := t.buses, dma := t.dma, hist := .memR src 4 :: s.hist, sched := rest } ∧
      (∀ a, byteAt t.mem a = byteAt s.mem a) ∧
      (∀ j, j ≠ 2 → t.bus j = s.bus j) ∧
      t.bus 2 = { s.bus 2 with tx := (s.bus 2).tx ++ [loadBytes s.par.aw s.mem src 4] } ∧
      (∀ d, d ≠ c → t.chan d = s.chan d) ∧
      t.chan c = { s.chan c with
        src := .mem (wrap s.par.aw (src + 4)), rem := (s.chan c).rem - 4
        done := if (s.chan c).rem ≤ 4 then true else (s.chan c).done, armed := decide (4 < (s.chan c).rem) }

/-- An entry from the environment: dropped with no trace while the bus is disabled, at the tail of a FIFO with room, lost
with RxOverflow recorded when it is full (R24, R32, R33, R256; D19). For REMOTE on bus 2 and LINK on the others. -/
def Obligations.ReceivedEntryQueuedOrOverflows : Prop :=
  ∀ (s : State) (b : Nat) (e : Entry) (rest : List Action), b < s.numBus →
    s.sched = (if b = 2 then .remoteIn e else .linkIn b e) :: rest →
    ((s.bus b).en = false → step s = .next { s with sched := rest }) ∧
    ((s.bus b).en = true → 32 ≤ (s.bus b).rx.length →
      step s = .next { s with hist := .fault (.rxOverflow b) :: s.hist, sched := rest }) ∧
    ((s.bus b).en = true → (s.bus b).rx.length < 32 → ∃ t, step s = .next t ∧
      t = { s with buses := t.buses, hist := .wireIn b e :: s.hist, sched := rest } ∧
      (∀ j, j ≠ b → t.bus j = s.bus j) ∧ t.bus b = { s.bus b with rx := (s.bus b).rx ++ [e] })

/-- An entry leaves at the head of the transmit FIFO of an enabled bus and is seen on the wire; from an empty FIFO, or a
disabled bus, nothing moves and no state of the engine changes (R24, R31, R256; log entry 31). -/
def Obligations.SentEntryLeavesAtHead : Prop :=
  ∀ (s : State) (b : Nat) (rest : List Action), b < s.numBus →
    s.sched = (if b = 2 then .remoteOut else .linkOut b) :: rest →
    ((s.bus b).en = false ∨ (s.bus b).tx = [] → step s = .next { s with sched := rest }) ∧
    (∀ e es, (s.bus b).en = true → (s.bus b).tx = e :: es → ∃ t, step s = .next t ∧
      t = { s with buses := t.buses, hist := .wireOut b e :: s.hist, sched := rest } ∧
      (∀ j, j ≠ b → t.bus j = s.bus j) ∧ t.bus b = { s.bus b with tx := es })

/-! ### The whole machine -/

/-- Reset, under every value of the parameters: every value 10_state.md R53 gives (D32 but for Idle). -/
def Obligations.ResetGivesSpecifiedValues : Prop :=
  ∀ (p : Params) (nb nd : Nat),
    let r := State.resetOf p nb nd
    r.par = p ∧ r.numBus = nb ∧ r.numDmaCh = nd ∧
    (∀ i, (r.bus i).en = false ∧ (r.bus i).cs = 0 ∧ (r.bus i).busy = false ∧
      tfe i r = true ∧ (r.bus i).tx = [] ∧ (r.bus i).rx = []) ∧
    r.slv.active = false ∧ r.slv.status = .idle ∧ r.slv.cb = none ∧ r.slv.edgePend = false ∧ r.mst.phase = .idle ∧
    r.fatal = false ∧ (∀ c, (r.chan c).armed = false ∧ (r.chan c).done = false) ∧
    State.reset = State.resetOf .default 4 6

/-- The invariant holds after reset, under every legal value of the parameters; the defaults are legal. -/
def Obligations.InvariantHoldsAtReset : Prop :=
  (∀ (p : Params) (nb nd : Nat), p.Legal → EngineInv (State.resetOf p nb nd)) ∧ Params.default.Legal ∧
    EngineInv State.reset

/-- Every step keeps the invariant: memory canonical; FIFOs at most 32 entries, empty while the bus is off; data-bit-lengths
4 to 32; ready pin low exactly in Transfer; the descriptor in Transfer an accepted command; a master operation on an enabled
configured bus other than 2; armed channels with whole beats to go; addresses of AW bits; legal parameters; and, when
ORPHAN_DMA is stopped, no channel armed but between an accepted Command phase and the closing edge (R279, D27, log entry 6). -/
def Obligations.EveryStepKeepsInvariant : Prop :=
  ∀ s t : State, EngineInv s → step s = .next t → EngineInv t

/-- No step changes the parameters (00_scope.md R9, 10_state.md R21): the numbers of buses and channels among them. -/
def Obligations.NoStepChangesParameters : Prop :=
  ∀ s t : State, step s = .next t → t.par = s.par ∧ t.numBus = s.numBus ∧ t.numDmaCh = s.numDmaCh

/-- FATAL is sticky: no step clears it, none changes its cause, and the history only grows (R301, R306; D20). -/
def Obligations.FatalAndHistoryAreNeverCleared : Prop :=
  ∀ s t : State, step s = .next t →
    (s.fatal = true → t.fatal = true ∧ t.fatalCause = s.fatalCause) ∧ ∃ l, t.hist = l ++ s.hist

/-- While FATAL = 1 the agents of the engine take no step: a request, a turn of MASTER and a turn of SLAVE change nothing; an
edge is still latched (R301; D20). -/
def Obligations.FatalHaltsEngineAgents : Prop :=
  ∀ (s : State) (a : Action) (rest : List Action), s.fatal = true → s.sched = a :: rest →
    ((∃ bytes, a = .request bytes) ∨ a = .master ∨ a = .slave →
      step s = .next { s with sched := rest }) ∧
    (a = .edge → ∃ t, step s = .next t ∧ (s.slv.active = true → t.slv.edgePend = true) ∧ t.rdy = s.rdy)

/-- The two roles share no state but memory and the fatal state (70_reset_and_hazards.md R347): a turn of MASTER leaves bus 2,
the slave instance, the descriptor, HDR, the pin and the channels alone; a turn of SLAVE leaves the master engine and every
other bus alone. The premise is part of the invariant. -/
def Obligations.RolesShareNoState : Prop :=
  ∀ (s t : State) (rest : List Action), EngineInv s → step s = .next t →
    (s.sched = .master :: rest →
      t.bus 2 = s.bus 2 ∧ t.slv = s.slv ∧ t.cmd = s.cmd ∧ t.hdr = s.hdr ∧ t.rdy = s.rdy ∧ t.rdyDriven = s.rdyDriven ∧
        t.dma = s.dma) ∧
    (s.sched = .slave :: rest →
      t.mst = s.mst ∧ (∀ j, j ≠ 2 → t.bus j = s.bus j) ∧ t.fatal = s.fatal ∧ t.fatalCause = s.fatalCause)

/-- 45_handshake.md R290: the ready pin is written at two places: high at the end of IdleRearm, which leaves the state Idle,
and low at the end of an accepted Command phase, which leaves it Transfer; each is the last action, so the pin event, with
the pin number RDY_PIN and the level RDY, is the newest of the history. -/
def Obligations.ReadyPinWrittenAtTwoPlaces : Prop :=
  ∀ s t : State, step s = .next t → t.rdy ≠ s.rdy →
    t.hist.head? = some (.pin t.slv.rdyPin t.rdy) ∧
    ((t.rdy = true ∧ t.slv.status = .idle) ∨
    (t.rdy = false ∧ t.slv.status = .transfer ∧ s.slv.status = .command ∧ ∃ rest, s.sched = .slave :: rest))

/-- 45_handshake.md R293: the engine never reads the ready pin. Two states that differ only in the level of the pin and in
the history take steps that differ only in these. -/
def Obligations.ReadyPinIsNeverRead : Prop :=
  ∀ (s t : State) (rdy driven : Bool) (hist : List Event), step s = .next t →
    ∃ rdy' driven' hist',
      step { s with rdy := rdy, rdyDriven := driven, hist := hist }
        = .next { t with rdy := rdy', rdyDriven := driven', hist := hist' }

/-- The only stop: a step is never refused, and it faults only on a master request for a bus whose DBL no rule wrote. -/
def Obligations.StepStopsOnlyOnUnconfiguredBus : Prop :=
  ∀ s : State, (∀ r, step s ≠ .refused r) ∧
    ∀ f, step s = .fault f → ∃ bus cs p n q m i bytes rest, f = .uninitRead bus ∧ s.sched = .request bytes :: rest ∧
      decode s.par.opc .hreq bytes = .ok i ∧ i ∈ masterOps bus cs p n q m ∧ Open s ∧ MasterBus s bus ∧
      cs < s.par.numCs ∧
      (s.bus bus).dblWritten = false
end

