-- ==== Sys2Proof/Laws/Bytes.lean ====
section
/-! SUPPORT. Laws/Bytes.lean: bytes of a number and numbers of bytes are inverse (20_memory.md R61, R62). -/

namespace Sys2Proof

theorem le32_byteOf (v : BitVec 32) : le32 (byteOf v 0) (byteOf v 1) (byteOf v 2) (byteOf v 3) = v := by
  unfold le32 byteOf
  apply BitVec.eq_of_getLsbD_eq
  intro i hi
  simp only [BitVec.getLsbD_or, BitVec.getLsbD_shiftLeft, BitVec.getLsbD_setWidth, BitVec.getLsbD_ushiftRight]
  by_cases h1 : i < 8 <;> by_cases h2 : i < 16 <;> by_cases h3 : i < 24 <;> grind

theorem le16_byteOf (v : BitVec 16) : le16 (byteOf v 0) (byteOf v 1) = v := by
  unfold le16 byteOf
  apply BitVec.eq_of_getLsbD_eq
  intro i hi
  simp only [BitVec.getLsbD_or, BitVec.getLsbD_shiftLeft, BitVec.getLsbD_setWidth, BitVec.getLsbD_ushiftRight]
  by_cases h1 : i < 8 <;> grind

theorem byteOf_le32 (a b c d : Byte) :
    byteOf (le32 a b c d) 0 = a ∧ byteOf (le32 a b c d) 1 = b ∧ byteOf (le32 a b c d) 2 = c
      ∧ byteOf (le32 a b c d) 3 = d := by
  unfold le32 byteOf
  refine ⟨?_, ?_, ?_, ?_⟩ <;>
  · apply BitVec.eq_of_getLsbD_eq
    intro i hi
    simp only [BitVec.getLsbD_or, BitVec.getLsbD_shiftLeft, BitVec.getLsbD_setWidth, BitVec.getLsbD_ushiftRight]
    grind

theorem byteOf_le16 (a b : Byte) : byteOf (le16 a b) 0 = a ∧ byteOf (le16 a b) 1 = b := by
  unfold le16 byteOf
  refine ⟨?_, ?_⟩ <;>
  · apply BitVec.eq_of_getLsbD_eq
    intro i hi
    simp only [BitVec.getLsbD_or, BitVec.getLsbD_shiftLeft, BitVec.getLsbD_setWidth, BitVec.getLsbD_ushiftRight]
    grind

theorem le32_toNat (a b c d : Byte) :
    (le32 a b c d).toNat = a.toNat + 256 * b.toNat + 65536 * c.toNat + 16777216 * d.toNat := by
  have ha := a.isLt; have hb := b.isLt; have hc := c.isLt; have hd := d.isLt
  unfold le32
  simp only [BitVec.toNat_or, BitVec.toNat_shiftLeft, BitVec.toNat_setWidth, Nat.shiftLeft_eq]
  rw [Nat.mod_eq_of_lt (a := a.toNat) (by omega), Nat.mod_eq_of_lt (a := b.toNat) (by omega),
    Nat.mod_eq_of_lt (a := c.toNat) (by omega), Nat.mod_eq_of_lt (a := d.toNat) (by omega),
    Nat.mod_eq_of_lt (by omega), Nat.mod_eq_of_lt (by omega), Nat.mod_eq_of_lt (by omega),
    Nat.or_comm a.toNat, Nat.mul_comm b.toNat, ← Nat.two_pow_add_eq_or_of_lt (i := 8) (by omega),
    Nat.or_comm _ (_ * 2 ^ 16), Nat.mul_comm c.toNat, ← Nat.two_pow_add_eq_or_of_lt (i := 16) (by omega),
    Nat.or_comm _ (_ * 2 ^ 24), Nat.mul_comm d.toNat, ← Nat.two_pow_add_eq_or_of_lt (i := 24) (by omega)]
  omega

theorem le16_toNat (a b : Byte) : (le16 a b).toNat = a.toNat + 256 * b.toNat := by
  have ha := a.isLt; have hb := b.isLt
  unfold le16
  simp only [BitVec.toNat_or, BitVec.toNat_shiftLeft, BitVec.toNat_setWidth, Nat.shiftLeft_eq]
  rw [Nat.mod_eq_of_lt (a := a.toNat) (by omega), Nat.mod_eq_of_lt (a := b.toNat) (by omega),
    Nat.mod_eq_of_lt (by omega), Nat.or_comm a.toNat, Nat.mul_comm b.toNat,
    ← Nat.two_pow_add_eq_or_of_lt (i := 8) (by omega)]
  omega

/-! ### The words of a request record -/

@[simp] theorem natBytes_length (n v : Nat) : (natBytes n v).length = n := by
  induction n generalizing v with
  | zero => rfl
  | succ n ih => simp [natBytes, ih]

theorem leNat_lt (bytes : List Byte) : leNat bytes < 256 ^ bytes.length := by
  induction bytes with
  | nil => simp [leNat]
  | cons b bytes ih =>
    have := b.isLt
    rw [leNat, List.length_cons, Nat.pow_succ]
    omega

theorem leNat_natBytes (n v : Nat) : leNat (natBytes n v) = v % 256 ^ n := by
  induction n generalizing v with
  | zero => simp [natBytes, leNat, Nat.mod_one]
  | succ n ih =>
    rw [natBytes, leNat, ih, Nat.pow_succ, Nat.mul_comm (256 ^ n), Nat.mod_mul, BitVec.toNat_ofNat]
    omega

theorem natBytes_leNat (bytes : List Byte) : natBytes bytes.length (leNat bytes) = bytes := by
  induction bytes with
  | nil => rfl
  | cons b bytes ih =>
    have := b.isLt
    rw [List.length_cons, natBytes, leNat, show (b.toNat + 256 * leNat bytes) / 256 = leNat bytes by omega, ih,
      show (b.toNat + 256 * leNat bytes) % 256 = b.toNat by omega]
    simp

theorem wordsOf_append (b bytes : List Byte) (h : b.length = 8) : wordsOf (b ++ bytes) = leNat b :: wordsOf bytes := by
  match b, h with
  | [_, _, _, _, _, _, _, _], _ => rfl

theorem wordsOf_flatMap (l : List Nat) (h : ∀ x ∈ l, x < 2 ^ 64) : wordsOf (l.flatMap wordBytes) = l := by
  induction l with
  | nil => rfl
  | cons a l ih =>
    rw [List.flatMap_cons, wordBytes, wordsOf_append _ _ (natBytes_length 8 a), leNat_natBytes,
      ih fun x hx => h x (List.mem_cons_of_mem a hx), Nat.mod_eq_of_lt]
    exact h a List.mem_cons_self

theorem flatMap_wordBytes_length (l : List Nat) : (l.flatMap wordBytes).length = 8 * l.length := by
  induction l with
  | nil => rfl
  | cons a l ih => rw [List.flatMap_cons, List.length_append, ih, List.length_cons, wordBytes, natBytes_length]; omega

/-- Bytes that make whole words are the bytes of those words. -/
theorem flatMap_wordsOf (n : Nat) (bytes : List Byte) (h : bytes.length = 8 * n) :
    (wordsOf bytes).flatMap wordBytes = bytes ∧ (wordsOf bytes).length = n ∧ ∀ x ∈ wordsOf bytes, x < 2 ^ 64 := by
  induction n generalizing bytes with
  | zero => simp at h; subst h; simp [wordsOf]
  | succ n ih =>
    have hl : (bytes.take 8).length = 8 := by simp; omega
    obtain ⟨h1, h2, h3⟩ := ih (bytes.drop 8) (by simp; omega)
    have hb := natBytes_leNat (bytes.take 8)
    have hlt := leNat_lt (bytes.take 8)
    rw [hl] at hb hlt
    rw [← List.take_append_drop 8 bytes, wordsOf_append _ _ hl]
    refine ⟨?_, by simp [h2], ?_⟩
    · rw [List.flatMap_cons, h1, wordBytes, hb]
    · intro x hx
      rcases List.mem_cons.1 hx with rfl | hx
      · exact hlt
      · exact h3 x hx

/-- A record of nine words decodes as its words do. -/
theorem decodeRequest_flatMap (l : List Nat) (h : l.length = 9) (hl : ∀ x ∈ l, x < 2 ^ 64) :
    decodeRequest (l.flatMap wordBytes) = decodeWords l := by
  unfold decodeRequest
  rw [if_pos (by rw [flatMap_wordBytes_length, h]; rfl), wordsOf_flatMap l hl]

/-- The decoder gives operations of the format it is asked for. -/
theorem decode_format {o : Opc} {f : Format} {bytes : List Byte} {i : Instr} (h : decode o f bytes = .ok i) :
    i.format = f := by
  cases f
  · simp only [decode, decodeHeader] at h
    split at h
    · repeat' split at h
      all_goals first | (cases h; rfl) | cases h
    · cases h
  · simp only [decode, decodeRequest] at h
    split at h
    · unfold decodeWords at h
      split at h
      · repeat' split at h
        all_goals first | (cases h; rfl) | cases h
      · cases h
    · cases h

/-- A header that decodes is the encoding of what it decodes to. -/
theorem decodeHeader_ok {o : Opc} {bytes : List Byte} {i : Instr} (h : decodeHeader o bytes = .ok i) :
    i.format = .hdr ∧ encode o i = bytes := by
  unfold decodeHeader at h
  split at h
  · rename_i h0 h1 h2 h3 h4 h5 h6 h7
    obtain ⟨e1, e2, e3, e4⟩ := byteOf_le32 h1 h2 h3 h4
    obtain ⟨e5, e6⟩ := byteOf_le16 h5 h6
    repeat' split at h
    all_goals first
      | (injection h with h; subst h; simp [Instr.format, encode, headerBytes, headerBody, *])
      | cases h
  · cases h

/-- A request is encoded as its record. -/
theorem encode_request {o : Opc} {i : Instr} (h : i.format = .hreq) : encode o i = requestBytes i := by
  cases i <;> first | rfl | cases h

/-- Words that decode are those of what they decode to, and it is well formed. -/
theorem decodeWords_ok {o : Opc} {l : List Nat} {i : Instr} (h : decodeWords l = .ok i) (hl : ∀ x ∈ l, x < 2 ^ 64) :
    i.format = .hreq ∧ requestWords i = l ∧ WellFormed o i = true := by
  unfold decodeWords at h
  split at h
  · rename_i c a b d e f g x k
    simp only [List.mem_cons, List.not_mem_nil, or_false, forall_eq_or_imp, forall_eq] at hl
    obtain ⟨-, ha, hb, hd, he, hf, hg, hx, hk⟩ := hl
    split at h
    all_goals try (split at h <;> rename_i hc)
    all_goals try (split at h <;> rename_i hc')
    all_goals cases h
    all_goals simp_all [Instr.format, requestWords, WellFormed, Fits, Nat.mod_eq_of_lt]
  · cases h

end Sys2Proof
end

