-- ==== Sys2Proof/Laws/Memory.lean ====
section
/-! SUPPORT. Laws/Memory.lean: host memory: read after write, the canonical form, and the bytes of a number. -/

namespace Sys2Proof.Machine

/-! ### The list -/

theorem lookup_insert (m : List Host.Cell) (k j : Nat) (v : Byte) :
    lookup (insert m k v) j = if k = j then some v else lookup m j := by
  induction m with
  | nil => simp [insert, lookup]
  | cons c m ih =>
    obtain ⟨a, b⟩ := c
    simp only [insert]
    split
    · simp [lookup]
    · split <;> simp only [lookup] <;> grind

theorem mem_insert {m : List Host.Cell} {k : Nat} {v : Byte} {c : Host.Cell} (h : c ∈ insert m k v) :
    c = (k, v) ∨ c ∈ m := by
  induction m with
  | nil => simpa [insert] using h
  | cons d m ih => simp only [insert] at h; grind

theorem insert_wf {aw : Nat} {m : List Host.Cell} (h : Memory.wf aw m) {k : Nat} (hk : k < 2 ^ aw) (v : Byte) :
    Memory.wf aw (insert m k v) := by
  refine ⟨?_, fun c hc => ?_⟩
  · obtain ⟨hp, -⟩ := h
    induction m with
    | nil => simp [insert]
    | cons d m ih =>
      rw [List.pairwise_cons] at hp
      simp only [insert]
      split
      · refine List.pairwise_cons.2 ⟨fun x hx => ?_, List.pairwise_cons.2 hp⟩
        rcases List.mem_cons.1 hx with rfl | hx
        · assumption
        · have := hp.1 x hx; simp only at *; omega
      · split
        · subst k; exact List.pairwise_cons.2 hp
        · refine List.pairwise_cons.2 ⟨fun x hx => ?_, ih hp.2⟩
          rcases mem_insert hx with rfl | hx
          · simp only at *; omega
          · exact hp.1 x hx
  · rcases mem_insert hc with rfl | hc
    · exact hk
    · exact h.2 c hc

/-! ### Addresses -/

theorem wrap_lt (aw a : Nat) : wrap aw a < 2 ^ aw := Nat.mod_lt _ (Nat.two_pow_pos aw)

theorem wrap_of_lt {aw a : Nat} (h : a < 2 ^ aw) : wrap aw a = a := Nat.mod_eq_of_lt h

@[simp] theorem wrap_wrap (aw a : Nat) : wrap aw (wrap aw a) = wrap aw a := Nat.mod_mod _ _

@[simp] theorem wrap_add_wrap (aw a b : Nat) : wrap aw (wrap aw a + b) = wrap aw (a + b) := by simp [wrap, Nat.add_mod]

/-- Two addresses fewer than 2^AW apart differ. -/
theorem wrap_add_inj {aw a i j : Nat} (hi : i < 2 ^ aw) (hj : j < 2 ^ aw) (h : wrap aw (a + i) = wrap aw (a + j)) : i = j := by
  have h : (a + i) ≡ (a + j) [MOD 2 ^ aw] := h
  have := Nat.ModEq.add_left_cancel' a h
  rwa [Nat.ModEq, Nat.mod_eq_of_lt hi, Nat.mod_eq_of_lt hj] at this

/-- The address space holds every 32-bit wire address. -/
theorem two_pow_aw_ge {p : Params} (h : p.Legal) : 2 ^ 32 ≤ 2 ^ p.aw := Nat.pow_le_pow_right (by omega) h.aw

/-! ### One byte -/

theorem byteAt_insert (m : List Host.Cell) (a x : Addr) (v : Byte) :
    byteAt (insert m a v) x = if a = x then v else byteAt m x := by
  simp only [byteAt, lookup_insert]
  split <;> rfl

/-! ### Several bytes -/

theorem storeBytes_wf {aw : Nat} {m : List Host.Cell} (h : Memory.wf aw m) (a : Addr) (n : Nat) (v : Entry) :
    Memory.wf aw (storeBytes aw m a n v) := by
  induction n generalizing m a v with
  | zero => exact h
  | succ n ih => exact ih (insert_wf h (wrap_lt _ _) _) _ _

/-- The bytes stored are those from the address modulo 2^AW. -/
@[simp] theorem storeBytes_wrap (aw : Nat) (m : List Host.Cell) (a : Addr) (n : Nat) (v : Entry) :
    storeBytes aw m (wrap aw a) n v = storeBytes aw m a n v := by
  induction n generalizing m a v with
  | zero => rfl
  | succ n ih => rw [storeBytes, storeBytes, wrap_wrap, ← ih, wrap_add_wrap, ih]

@[simp] theorem loadBytes_wrap (aw : Nat) (m : List Host.Cell) (a : Addr) (n : Nat) :
    loadBytes aw m (wrap aw a) n = loadBytes aw m a n := by
  induction n generalizing a with
  | zero => rfl
  | succ n ih => rw [loadBytes, loadBytes, wrap_wrap, ← ih, wrap_add_wrap, ih]

/-- An address that is not among the stored bytes reads as before. -/
theorem byteAt_storeBytes_outside (aw : Nat) (m : List Host.Cell) (a x : Addr) (n : Nat) (v : Entry)
    (h : ∀ j < n, x ≠ wrap aw (a + j)) : byteAt (storeBytes aw m a n v) x = byteAt m x := by
  induction n generalizing m a v with
  | zero => rfl
  | succ n ih =>
    rw [storeBytes, ih, byteAt_insert, if_neg]
    · exact fun e => h 0 (by omega) e.symm
    · intro j hj
      have := h (j + 1) (by omega)
      rwa [Nat.add_comm j, ← Nat.add_assoc] at this

/-- Stored byte `j` reads back. -/
theorem byteAt_storeBytes_inside (aw : Nat) (m : List Host.Cell) (a : Addr) (n : Nat) (v : Entry) (hn : n ≤ 2 ^ aw)
    (j : Nat) (hj : j < n) : byteAt (storeBytes aw m a n v) (wrap aw (a + j)) = byteOf v j := by
  induction n generalizing m a v j with
  | zero => omega
  | succ n ih =>
    rw [storeBytes]
    cases j with
    | zero =>
      rw [byteAt_storeBytes_outside, byteAt_insert, if_pos (by simp)]
      · simp [byteOf]
      · intro i hi e
        rw [Nat.add_assoc] at e
        have := wrap_add_inj (by omega) (by omega) e
        omega
    | succ j =>
      have := ih (insert m (wrap aw a) (v.setWidth 8)) (a + 1) (v >>> 8) (by omega) j (by omega)
      rw [Nat.add_comm j, ← Nat.add_assoc, this]
      simp only [byteOf, ← BitVec.shiftRight_add]
      congr 2; omega

/-- A load depends on the bytes it reads, nothing else. -/
theorem loadBytes_congr {aw : Nat} {m m' : List Host.Cell} (a : Addr) (n : Nat)
    (h : ∀ j < n, byteAt m (wrap aw (a + j)) = byteAt m' (wrap aw (a + j))) :
    loadBytes aw m a n = loadBytes aw m' a n := by
  induction n generalizing a with
  | zero => rfl
  | succ n ih =>
    rw [loadBytes, loadBytes, ih]
    · have := h 0 (by omega); rw [Nat.add_zero] at this; rw [this]
    · intro j hj
      have := h (j + 1) (by omega)
      rwa [Nat.add_comm j, ← Nat.add_assoc] at this

/-- Bit `i` of a load is bit `i mod 8` of byte `i / 8`. -/
theorem loadBytes_getLsbD (aw : Nat) (m : List Host.Cell) (a : Addr) (n i : Nat) :
    (loadBytes aw m a n).getLsbD i
      = (decide (i < 32) && decide (i < 8 * n) && (byteAt m (wrap aw (a + i / 8))).getLsbD (i % 8)) := by
  induction n generalizing a i with
  | zero => simp [loadBytes]
  | succ n ih =>
    simp only [loadBytes, BitVec.getLsbD_or, BitVec.getLsbD_shiftLeft, BitVec.getLsbD_setWidth, ih]
    by_cases h : i < 8
    · simp only [h, decide_true, Bool.not_true, Bool.and_false, Bool.false_and, Bool.or_false, Nat.div_eq_of_lt,
        Nat.mod_eq_of_lt, Nat.add_zero]
      simp [show i < 32 by omega, show i < 8 * (n + 1) by omega]
    · rw [BitVec.getLsbD_of_ge _ _ (by omega)]
      rw [Nat.add_assoc, show 1 + (i - 8) / 8 = i / 8 by omega, show (i - 8) % 8 = i % 8 by omega,
        show decide (i - 8 < 8 * n) = decide (i < 8 * (n + 1)) by simp; omega]
      by_cases h2 : i < 32
      · simp [h, h2, show i - 8 < 32 by omega]
      · simp [h2]

theorem lowBytes_toNat (n : Nat) (v : Entry) : (lowBytes n v).toNat = v.toNat % 2 ^ (8 * n) := by
  rw [lowBytes, BitVec.toNat_ofNat]
  exact Nat.mod_eq_of_lt (Nat.lt_of_le_of_lt (Nat.mod_le _ _) v.isLt)

theorem lowBytes_getLsbD (n : Nat) (v : Entry) (i : Nat) : (lowBytes n v).getLsbD i = (decide (i < 8 * n) && v.getLsbD i) := by
  rw [BitVec.getLsbD, lowBytes_toNat, Nat.testBit_mod_two_pow, ← BitVec.getLsbD]

theorem byteOf_getLsbD (v : Entry) (k i : Nat) : (byteOf v k).getLsbD i = (decide (i < 8) && v.getLsbD (8 * k + i)) := by
  simp [byteOf]

/-- What is stored loads back, cut to the bytes stored (20_memory.md R62). -/
theorem loadBytes_storeBytes (aw : Nat) (m : List Host.Cell) (a : Addr) (n : Nat) (v : Entry) (hn : n ≤ 2 ^ aw) :
    loadBytes aw (storeBytes aw m a n v) a n = lowBytes n v := by
  apply BitVec.eq_of_getLsbD_eq
  intro i hi
  rw [loadBytes_getLsbD, lowBytes_getLsbD]
  by_cases h : i < 8 * n
  · rw [byteAt_storeBytes_inside _ _ _ _ _ hn _ (by omega), byteOf_getLsbD]
    simp [h, hi, show i % 8 < 8 by omega, show 8 * (i / 8) + i % 8 = i by omega]
  · simp [h]

theorem byteOf_lowBytes (n : Nat) (v : Entry) (j : Nat) (h : j < n) : byteOf (lowBytes n v) j = byteOf v j := by
  apply BitVec.eq_of_getLsbD_eq
  intro i hi
  rw [byteOf_getLsbD, byteOf_getLsbD, lowBytes_getLsbD]
  simp [show 8 * j + i < 8 * n by omega]

/-- The low byte of a number, as MemWrite records it. -/
theorem lowBytes_one (v : Entry) : lowBytes 1 v = (v.setWidth 8).setWidth 32 := by
  apply BitVec.eq_of_getLsbD_eq
  intro i hi
  rw [lowBytes_getLsbD]
  simp [hi]

end Sys2Proof.Machine
end

