-- ==== Sys2Proof/Laws/State.lean ====
section
/-! SUPPORT. Laws/State.lean: what each register write changes and what it leaves alone, one lemma per field per update,
so that no later proof unfolds a record update. -/

namespace Sys2Proof.Machine

/-! ### Reading a bus or a channel back -/

theorem bus_setBus (s : State) (i j : Nat) (b : Bus) :
    (s.setBus i b).bus j = if i = j ∧ i < s.numBus then b else s.bus j := by
  simp only [State.setBus, State.bus, State.numBus, List.getD_eq_getElem?_getD, List.getElem?_set]
  split <;> rename_i h
  · subst h; split <;> simp_all
  · simp [h]

@[simp] theorem bus_setBus_self (s : State) (i : Nat) (b : Bus) (h : i < s.numBus) : (s.setBus i b).bus i = b := by
  simp [bus_setBus, h]

@[simp] theorem bus_setBus_ne (s : State) (i j : Nat) (b : Bus) (h : i ≠ j) : (s.setBus i b).bus j = s.bus j := by
  simp [bus_setBus, h]

/-- A property of every bus survives a write of a bus that has it. -/
theorem bus_setBus_of {P : Bus → Prop} {s : State} {i j : Nat} {b : Bus} (hb : P b) (hs : P (s.bus j)) :
    P ((s.setBus i b).bus j) := by
  rw [bus_setBus]; split <;> assumption

theorem chan_setChan (s : State) (i j : Nat) (d : DmaChannel) :
    (s.setChan i d).chan j = if i = j ∧ i < s.numDmaCh then d else s.chan j := by
  simp only [State.setChan, State.chan, State.numDmaCh, List.getD_eq_getElem?_getD, List.getElem?_set]
  split <;> rename_i h
  · subst h; split <;> simp_all
  · simp [h]

@[simp] theorem chan_setChan_self (s : State) (i : Nat) (d : DmaChannel) (h : i < s.numDmaCh) :
    (s.setChan i d).chan i = d := by
  simp [chan_setChan, h]

@[simp] theorem chan_setChan_ne (s : State) (i j : Nat) (d : DmaChannel) (h : i ≠ j) :
    (s.setChan i d).chan j = s.chan j := by
  simp [chan_setChan, h]

/-- A property of every channel survives a write of a channel that has it. -/
theorem chan_setChan_of {P : DmaChannel → Prop} {s : State} {i j : Nat} {d : DmaChannel} (hd : P d) (hs : P (s.chan j)) :
    P ((s.setChan i d).chan j) := by
  rw [chan_setChan]; split <;> assumption

/-! ### setBus -/

@[simp] theorem setBus_par (s : State) (i : Nat) (b : Bus) : (s.setBus i b).par = s.par := rfl
@[simp] theorem setBus_slv (s : State) (i : Nat) (b : Bus) : (s.setBus i b).slv = s.slv := rfl
@[simp] theorem setBus_cmd (s : State) (i : Nat) (b : Bus) : (s.setBus i b).cmd = s.cmd := rfl
@[simp] theorem setBus_hdr (s : State) (i : Nat) (b : Bus) : (s.setBus i b).hdr = s.hdr := rfl
@[simp] theorem setBus_mst (s : State) (i : Nat) (b : Bus) : (s.setBus i b).mst = s.mst := rfl
@[simp] theorem setBus_fatal (s : State) (i : Nat) (b : Bus) : (s.setBus i b).fatal = s.fatal := rfl
@[simp] theorem setBus_fatalCause (s : State) (i : Nat) (b : Bus) : (s.setBus i b).fatalCause = s.fatalCause := rfl
@[simp] theorem setBus_rdy (s : State) (i : Nat) (b : Bus) : (s.setBus i b).rdy = s.rdy := rfl
@[simp] theorem setBus_rdyDriven (s : State) (i : Nat) (b : Bus) : (s.setBus i b).rdyDriven = s.rdyDriven := rfl
@[simp] theorem setBus_dma (s : State) (i : Nat) (b : Bus) : (s.setBus i b).dma = s.dma := rfl
@[simp] theorem setBus_mem (s : State) (i : Nat) (b : Bus) : (s.setBus i b).mem = s.mem := rfl
@[simp] theorem setBus_hist (s : State) (i : Nat) (b : Bus) : (s.setBus i b).hist = s.hist := rfl
@[simp] theorem setBus_draws (s : State) (i : Nat) (b : Bus) : (s.setBus i b).draws = s.draws := rfl
@[simp] theorem setBus_sched (s : State) (i : Nat) (b : Bus) : (s.setBus i b).sched = s.sched := rfl
@[simp] theorem setBus_numBus (s : State) (i : Nat) (b : Bus) : (s.setBus i b).numBus = s.numBus := by
  simp [State.setBus, State.numBus]
@[simp] theorem setBus_numDmaCh (s : State) (i : Nat) (b : Bus) : (s.setBus i b).numDmaCh = s.numDmaCh := (rfl)
@[simp] theorem setBus_chan (s : State) (i : Nat) (b : Bus) (j : Nat) : (s.setBus i b).chan j = s.chan j := rfl

/-! ### setChan -/

@[simp] theorem setChan_par (s : State) (c : Nat) (d : DmaChannel) : (s.setChan c d).par = s.par := rfl
@[simp] theorem setChan_buses (s : State) (c : Nat) (d : DmaChannel) : (s.setChan c d).buses = s.buses := rfl
@[simp] theorem setChan_slv (s : State) (c : Nat) (d : DmaChannel) : (s.setChan c d).slv = s.slv := rfl
@[simp] theorem setChan_cmd (s : State) (c : Nat) (d : DmaChannel) : (s.setChan c d).cmd = s.cmd := rfl
@[simp] theorem setChan_hdr (s : State) (c : Nat) (d : DmaChannel) : (s.setChan c d).hdr = s.hdr := rfl
@[simp] theorem setChan_mst (s : State) (c : Nat) (d : DmaChannel) : (s.setChan c d).mst = s.mst := rfl
@[simp] theorem setChan_fatal (s : State) (c : Nat) (d : DmaChannel) : (s.setChan c d).fatal = s.fatal := rfl
@[simp] theorem setChan_fatalCause (s : State) (c : Nat) (d : DmaChannel) : (s.setChan c d).fatalCause = s.fatalCause := rfl
@[simp] theorem setChan_rdy (s : State) (c : Nat) (d : DmaChannel) : (s.setChan c d).rdy = s.rdy := rfl
@[simp] theorem setChan_rdyDriven (s : State) (c : Nat) (d : DmaChannel) : (s.setChan c d).rdyDriven = s.rdyDriven := rfl
@[simp] theorem setChan_mem (s : State) (c : Nat) (d : DmaChannel) : (s.setChan c d).mem = s.mem := rfl
@[simp] theorem setChan_hist (s : State) (c : Nat) (d : DmaChannel) : (s.setChan c d).hist = s.hist := rfl
@[simp] theorem setChan_draws (s : State) (c : Nat) (d : DmaChannel) : (s.setChan c d).draws = s.draws := rfl
@[simp] theorem setChan_sched (s : State) (c : Nat) (d : DmaChannel) : (s.setChan c d).sched = s.sched := rfl
@[simp] theorem setChan_numBus (s : State) (c : Nat) (d : DmaChannel) : (s.setChan c d).numBus = s.numBus := (rfl)
@[simp] theorem setChan_numDmaCh (s : State) (c : Nat) (d : DmaChannel) : (s.setChan c d).numDmaCh = s.numDmaCh := by
  simp [State.setChan, State.numDmaCh]
@[simp] theorem setChan_bus (s : State) (c : Nat) (d : DmaChannel) (j : Nat) : (s.setChan c d).bus j = s.bus j := rfl

/-! ### setSlv -/

@[simp] theorem setSlv_par (s : State) (v : Slave) : (s.setSlv v).par = s.par := rfl
@[simp] theorem setSlv_buses (s : State) (v : Slave) : (s.setSlv v).buses = s.buses := rfl
@[simp] theorem setSlv_slv (s : State) (v : Slave) : (s.setSlv v).slv = v := rfl
@[simp] theorem setSlv_cmd (s : State) (v : Slave) : (s.setSlv v).cmd = s.cmd := rfl
@[simp] theorem setSlv_hdr (s : State) (v : Slave) : (s.setSlv v).hdr = s.hdr := rfl
@[simp] theorem setSlv_mst (s : State) (v : Slave) : (s.setSlv v).mst = s.mst := rfl
@[simp] theorem setSlv_fatal (s : State) (v : Slave) : (s.setSlv v).fatal = s.fatal := rfl
@[simp] theorem setSlv_fatalCause (s : State) (v : Slave) : (s.setSlv v).fatalCause = s.fatalCause := rfl
@[simp] theorem setSlv_rdy (s : State) (v : Slave) : (s.setSlv v).rdy = s.rdy := rfl
@[simp] theorem setSlv_rdyDriven (s : State) (v : Slave) : (s.setSlv v).rdyDriven = s.rdyDriven := rfl
@[simp] theorem setSlv_dma (s : State) (v : Slave) : (s.setSlv v).dma = s.dma := rfl
@[simp] theorem setSlv_mem (s : State) (v : Slave) : (s.setSlv v).mem = s.mem := rfl
@[simp] theorem setSlv_hist (s : State) (v : Slave) : (s.setSlv v).hist = s.hist := rfl
@[simp] theorem setSlv_draws (s : State) (v : Slave) : (s.setSlv v).draws = s.draws := rfl
@[simp] theorem setSlv_sched (s : State) (v : Slave) : (s.setSlv v).sched = s.sched := rfl
@[simp] theorem setSlv_numBus (s : State) (v : Slave) : (s.setSlv v).numBus = s.numBus := (rfl)
@[simp] theorem setSlv_numDmaCh (s : State) (v : Slave) : (s.setSlv v).numDmaCh = s.numDmaCh := (rfl)
@[simp] theorem setSlv_bus (s : State) (v : Slave) (j : Nat) : (s.setSlv v).bus j = s.bus j := rfl
@[simp] theorem setSlv_chan (s : State) (v : Slave) (j : Nat) : (s.setSlv v).chan j = s.chan j := rfl

/-! ### setCmd -/

@[simp] theorem setCmd_par (s : State) (d : Descriptor) : (s.setCmd d).par = s.par := rfl
@[simp] theorem setCmd_buses (s : State) (d : Descriptor) : (s.setCmd d).buses = s.buses := rfl
@[simp] theorem setCmd_slv (s : State) (d : Descriptor) : (s.setCmd d).slv = s.slv := rfl
@[simp] theorem setCmd_cmd (s : State) (d : Descriptor) : (s.setCmd d).cmd = d := rfl
@[simp] theorem setCmd_hdr (s : State) (d : Descriptor) : (s.setCmd d).hdr = s.hdr := rfl
@[simp] theorem setCmd_mst (s : State) (d : Descriptor) : (s.setCmd d).mst = s.mst := rfl
@[simp] theorem setCmd_fatal (s : State) (d : Descriptor) : (s.setCmd d).fatal = s.fatal := rfl
@[simp] theorem setCmd_fatalCause (s : State) (d : Descriptor) : (s.setCmd d).fatalCause = s.fatalCause := rfl
@[simp] theorem setCmd_rdy (s : State) (d : Descriptor) : (s.setCmd d).rdy = s.rdy := rfl
@[simp] theorem setCmd_rdyDriven (s : State) (d : Descriptor) : (s.setCmd d).rdyDriven = s.rdyDriven := rfl
@[simp] theorem setCmd_dma (s : State) (d : Descriptor) : (s.setCmd d).dma = s.dma := rfl
@[simp] theorem setCmd_mem (s : State) (d : Descriptor) : (s.setCmd d).mem = s.mem := rfl
@[simp] theorem setCmd_hist (s : State) (d : Descriptor) : (s.setCmd d).hist = s.hist := rfl
@[simp] theorem setCmd_draws (s : State) (d : Descriptor) : (s.setCmd d).draws = s.draws := rfl
@[simp] theorem setCmd_sched (s : State) (d : Descriptor) : (s.setCmd d).sched = s.sched := rfl
@[simp] theorem setCmd_numBus (s : State) (d : Descriptor) : (s.setCmd d).numBus = s.numBus := (rfl)
@[simp] theorem setCmd_numDmaCh (s : State) (d : Descriptor) : (s.setCmd d).numDmaCh = s.numDmaCh := (rfl)
@[simp] theorem setCmd_bus (s : State) (d : Descriptor) (j : Nat) : (s.setCmd d).bus j = s.bus j := rfl
@[simp] theorem setCmd_chan (s : State) (d : Descriptor) (j : Nat) : (s.setCmd d).chan j = s.chan j := rfl

/-! ### setHdr -/

@[simp] theorem setHdr_par (s : State) (h : Vector Byte 8) : (s.setHdr h).par = s.par := rfl
@[simp] theorem setHdr_buses (s : State) (h : Vector Byte 8) : (s.setHdr h).buses = s.buses := rfl
@[simp] theorem setHdr_slv (s : State) (h : Vector Byte 8) : (s.setHdr h).slv = s.slv := rfl
@[simp] theorem setHdr_cmd (s : State) (h : Vector Byte 8) : (s.setHdr h).cmd = s.cmd := rfl
@[simp] theorem setHdr_hdr (s : State) (h : Vector Byte 8) : (s.setHdr h).hdr = h := rfl
@[simp] theorem setHdr_mst (s : State) (h : Vector Byte 8) : (s.setHdr h).mst = s.mst := rfl
@[simp] theorem setHdr_fatal (s : State) (h : Vector Byte 8) : (s.setHdr h).fatal = s.fatal := rfl
@[simp] theorem setHdr_fatalCause (s : State) (h : Vector Byte 8) : (s.setHdr h).fatalCause = s.fatalCause := rfl
@[simp] theorem setHdr_rdy (s : State) (h : Vector Byte 8) : (s.setHdr h).rdy = s.rdy := rfl
@[simp] theorem setHdr_rdyDriven (s : State) (h : Vector Byte 8) : (s.setHdr h).rdyDriven = s.rdyDriven := rfl
@[simp] theorem setHdr_dma (s : State) (h : Vector Byte 8) : (s.setHdr h).dma = s.dma := rfl
@[simp] theorem setHdr_mem (s : State) (h : Vector Byte 8) : (s.setHdr h).mem = s.mem := rfl
@[simp] theorem setHdr_hist (s : State) (h : Vector Byte 8) : (s.setHdr h).hist = s.hist := rfl
@[simp] theorem setHdr_draws (s : State) (h : Vector Byte 8) : (s.setHdr h).draws = s.draws := rfl
@[simp] theorem setHdr_sched (s : State) (h : Vector Byte 8) : (s.setHdr h).sched = s.sched := rfl
@[simp] theorem setHdr_numBus (s : State) (h : Vector Byte 8) : (s.setHdr h).numBus = s.numBus := (rfl)
@[simp] theorem setHdr_numDmaCh (s : State) (h : Vector Byte 8) : (s.setHdr h).numDmaCh = s.numDmaCh := (rfl)
@[simp] theorem setHdr_bus (s : State) (h : Vector Byte 8) (j : Nat) : (s.setHdr h).bus j = s.bus j := rfl
@[simp] theorem setHdr_chan (s : State) (h : Vector Byte 8) (j : Nat) : (s.setHdr h).chan j = s.chan j := rfl

/-! ### setMst -/

@[simp] theorem setMst_par (s : State) (m : Master) : (s.setMst m).par = s.par := rfl
@[simp] theorem setMst_buses (s : State) (m : Master) : (s.setMst m).buses = s.buses := rfl
@[simp] theorem setMst_slv (s : State) (m : Master) : (s.setMst m).slv = s.slv := rfl
@[simp] theorem setMst_cmd (s : State) (m : Master) : (s.setMst m).cmd = s.cmd := rfl
@[simp] theorem setMst_hdr (s : State) (m : Master) : (s.setMst m).hdr = s.hdr := rfl
@[simp] theorem setMst_mst (s : State) (m : Master) : (s.setMst m).mst = m := rfl
@[simp] theorem setMst_fatal (s : State) (m : Master) : (s.setMst m).fatal = s.fatal := rfl
@[simp] theorem setMst_fatalCause (s : State) (m : Master) : (s.setMst m).fatalCause = s.fatalCause := rfl
@[simp] theorem setMst_rdy (s : State) (m : Master) : (s.setMst m).rdy = s.rdy := rfl
@[simp] theorem setMst_rdyDriven (s : State) (m : Master) : (s.setMst m).rdyDriven = s.rdyDriven := rfl
@[simp] theorem setMst_dma (s : State) (m : Master) : (s.setMst m).dma = s.dma := rfl
@[simp] theorem setMst_mem (s : State) (m : Master) : (s.setMst m).mem = s.mem := rfl
@[simp] theorem setMst_hist (s : State) (m : Master) : (s.setMst m).hist = s.hist := rfl
@[simp] theorem setMst_draws (s : State) (m : Master) : (s.setMst m).draws = s.draws := rfl
@[simp] theorem setMst_sched (s : State) (m : Master) : (s.setMst m).sched = s.sched := rfl
@[simp] theorem setMst_numBus (s : State) (m : Master) : (s.setMst m).numBus = s.numBus := (rfl)
@[simp] theorem setMst_numDmaCh (s : State) (m : Master) : (s.setMst m).numDmaCh = s.numDmaCh := (rfl)
@[simp] theorem setMst_bus (s : State) (m : Master) (j : Nat) : (s.setMst m).bus j = s.bus j := rfl
@[simp] theorem setMst_chan (s : State) (m : Master) (j : Nat) : (s.setMst m).chan j = s.chan j := rfl

/-! ### setMem -/

@[simp] theorem setMem_par (s : State) (m : List Host.Cell) : (s.setMem m).par = s.par := rfl
@[simp] theorem setMem_buses (s : State) (m : List Host.Cell) : (s.setMem m).buses = s.buses := rfl
@[simp] theorem setMem_slv (s : State) (m : List Host.Cell) : (s.setMem m).slv = s.slv := rfl
@[simp] theorem setMem_cmd (s : State) (m : List Host.Cell) : (s.setMem m).cmd = s.cmd := rfl
@[simp] theorem setMem_hdr (s : State) (m : List Host.Cell) : (s.setMem m).hdr = s.hdr := rfl
@[simp] theorem setMem_mst (s : State) (m : List Host.Cell) : (s.setMem m).mst = s.mst := rfl
@[simp] theorem setMem_fatal (s : State) (m : List Host.Cell) : (s.setMem m).fatal = s.fatal := rfl
@[simp] theorem setMem_fatalCause (s : State) (m : List Host.Cell) : (s.setMem m).fatalCause = s.fatalCause := rfl
@[simp] theorem setMem_rdy (s : State) (m : List Host.Cell) : (s.setMem m).rdy = s.rdy := rfl
@[simp] theorem setMem_rdyDriven (s : State) (m : List Host.Cell) : (s.setMem m).rdyDriven = s.rdyDriven := rfl
@[simp] theorem setMem_dma (s : State) (m : List Host.Cell) : (s.setMem m).dma = s.dma := rfl
@[simp] theorem setMem_mem (s : State) (m : List Host.Cell) : (s.setMem m).mem = m := rfl
@[simp] theorem setMem_hist (s : State) (m : List Host.Cell) : (s.setMem m).hist = s.hist := rfl
@[simp] theorem setMem_draws (s : State) (m : List Host.Cell) : (s.setMem m).draws = s.draws := rfl
@[simp] theorem setMem_sched (s : State) (m : List Host.Cell) : (s.setMem m).sched = s.sched := rfl
@[simp] theorem setMem_numBus (s : State) (m : List Host.Cell) : (s.setMem m).numBus = s.numBus := (rfl)
@[simp] theorem setMem_numDmaCh (s : State) (m : List Host.Cell) : (s.setMem m).numDmaCh = s.numDmaCh := (rfl)
@[simp] theorem setMem_bus (s : State) (m : List Host.Cell) (j : Nat) : (s.setMem m).bus j = s.bus j := rfl
@[simp] theorem setMem_chan (s : State) (m : List Host.Cell) (j : Nat) : (s.setMem m).chan j = s.chan j := rfl

/-! ### note -/

@[simp] theorem note_par (s : State) (e : Event) : (s.note e).par = s.par := rfl
@[simp] theorem note_buses (s : State) (e : Event) : (s.note e).buses = s.buses := rfl
@[simp] theorem note_slv (s : State) (e : Event) : (s.note e).slv = s.slv := rfl
@[simp] theorem note_cmd (s : State) (e : Event) : (s.note e).cmd = s.cmd := rfl
@[simp] theorem note_hdr (s : State) (e : Event) : (s.note e).hdr = s.hdr := rfl
@[simp] theorem note_mst (s : State) (e : Event) : (s.note e).mst = s.mst := rfl
@[simp] theorem note_fatal (s : State) (e : Event) : (s.note e).fatal = s.fatal := rfl
@[simp] theorem note_fatalCause (s : State) (e : Event) : (s.note e).fatalCause = s.fatalCause := rfl
@[simp] theorem note_rdy (s : State) (e : Event) : (s.note e).rdy = s.rdy := rfl
@[simp] theorem note_rdyDriven (s : State) (e : Event) : (s.note e).rdyDriven = s.rdyDriven := rfl
@[simp] theorem note_dma (s : State) (e : Event) : (s.note e).dma = s.dma := rfl
@[simp] theorem note_mem (s : State) (e : Event) : (s.note e).mem = s.mem := rfl
@[simp] theorem note_hist (s : State) (e : Event) : (s.note e).hist = e :: s.hist := rfl
@[simp] theorem note_draws (s : State) (e : Event) : (s.note e).draws = s.draws := rfl
@[simp] theorem note_sched (s : State) (e : Event) : (s.note e).sched = s.sched := rfl
@[simp] theorem note_numBus (s : State) (e : Event) : (s.note e).numBus = s.numBus := (rfl)
@[simp] theorem note_numDmaCh (s : State) (e : Event) : (s.note e).numDmaCh = s.numDmaCh := (rfl)
@[simp] theorem note_bus (s : State) (e : Event) (j : Nat) : (s.note e).bus j = s.bus j := rfl
@[simp] theorem note_chan (s : State) (e : Event) (j : Nat) : (s.note e).chan j = s.chan j := rfl

/-! ### drawn -/

@[simp] theorem drawn_par (s : State) : (s.drawn).par = s.par := rfl
@[simp] theorem drawn_buses (s : State) : (s.drawn).buses = s.buses := rfl
@[simp] theorem drawn_slv (s : State) : (s.drawn).slv = s.slv := rfl
@[simp] theorem drawn_cmd (s : State) : (s.drawn).cmd = s.cmd := rfl
@[simp] theorem drawn_hdr (s : State) : (s.drawn).hdr = s.hdr := rfl
@[simp] theorem drawn_mst (s : State) : (s.drawn).mst = s.mst := rfl
@[simp] theorem drawn_fatal (s : State) : (s.drawn).fatal = s.fatal := rfl
@[simp] theorem drawn_fatalCause (s : State) : (s.drawn).fatalCause = s.fatalCause := rfl
@[simp] theorem drawn_rdy (s : State) : (s.drawn).rdy = s.rdy := rfl
@[simp] theorem drawn_rdyDriven (s : State) : (s.drawn).rdyDriven = s.rdyDriven := rfl
@[simp] theorem drawn_dma (s : State) : (s.drawn).dma = s.dma := rfl
@[simp] theorem drawn_mem (s : State) : (s.drawn).mem = s.mem := rfl
@[simp] theorem drawn_hist (s : State) : (s.drawn).hist = s.hist := rfl
@[simp] theorem drawn_draws (s : State) : (s.drawn).draws = s.draws + 1 := rfl
@[simp] theorem drawn_sched (s : State) : (s.drawn).sched = s.sched := rfl
@[simp] theorem drawn_numBus (s : State) : (s.drawn).numBus = s.numBus := (rfl)
@[simp] theorem drawn_numDmaCh (s : State) : (s.drawn).numDmaCh = s.numDmaCh := (rfl)
@[simp] theorem drawn_bus (s : State) (j : Nat) : (s.drawn).bus j = s.bus j := rfl
@[simp] theorem drawn_chan (s : State) (j : Nat) : (s.drawn).chan j = s.chan j := rfl

/-! ### setSched -/

@[simp] theorem setSched_par (s : State) (l : List Action) : (s.setSched l).par = s.par := rfl
@[simp] theorem setSched_buses (s : State) (l : List Action) : (s.setSched l).buses = s.buses := rfl
@[simp] theorem setSched_slv (s : State) (l : List Action) : (s.setSched l).slv = s.slv := rfl
@[simp] theorem setSched_cmd (s : State) (l : List Action) : (s.setSched l).cmd = s.cmd := rfl
@[simp] theorem setSched_hdr (s : State) (l : List Action) : (s.setSched l).hdr = s.hdr := rfl
@[simp] theorem setSched_mst (s : State) (l : List Action) : (s.setSched l).mst = s.mst := rfl
@[simp] theorem setSched_fatal (s : State) (l : List Action) : (s.setSched l).fatal = s.fatal := rfl
@[simp] theorem setSched_fatalCause (s : State) (l : List Action) : (s.setSched l).fatalCause = s.fatalCause := rfl
@[simp] theorem setSched_rdy (s : State) (l : List Action) : (s.setSched l).rdy = s.rdy := rfl
@[simp] theorem setSched_rdyDriven (s : State) (l : List Action) : (s.setSched l).rdyDriven = s.rdyDriven := rfl
@[simp] theorem setSched_dma (s : State) (l : List Action) : (s.setSched l).dma = s.dma := rfl
@[simp] theorem setSched_mem (s : State) (l : List Action) : (s.setSched l).mem = s.mem := rfl
@[simp] theorem setSched_hist (s : State) (l : List Action) : (s.setSched l).hist = s.hist := rfl
@[simp] theorem setSched_draws (s : State) (l : List Action) : (s.setSched l).draws = s.draws := rfl
@[simp] theorem setSched_sched (s : State) (l : List Action) : (s.setSched l).sched = l := rfl
@[simp] theorem setSched_numBus (s : State) (l : List Action) : (s.setSched l).numBus = s.numBus := (rfl)
@[simp] theorem setSched_numDmaCh (s : State) (l : List Action) : (s.setSched l).numDmaCh = s.numDmaCh := (rfl)
@[simp] theorem setSched_bus (s : State) (l : List Action) (j : Nat) : (s.setSched l).bus j = s.bus j := rfl
@[simp] theorem setSched_chan (s : State) (l : List Action) (j : Nat) : (s.setSched l).chan j = s.chan j := rfl

/-! ### Equal states, and states written out -/

theorem buses_eq_of_bus {s t : State} (hn : s.numBus = t.numBus) (h : ∀ j, s.bus j = t.bus j) : s.buses = t.buses := by
  apply List.ext_getElem hn
  intro i h1 h2
  have := h i
  simpa [State.bus, List.getD_eq_getElem?_getD, h1, h2] using this

theorem dma_eq_of_chan {s t : State} (hn : s.numDmaCh = t.numDmaCh) (h : ∀ c, s.chan c = t.chan c) : s.dma = t.dma := by
  apply List.ext_getElem hn
  intro i h1 h2
  have := h i
  simpa [State.chan, List.getD_eq_getElem?_getD, h1, h2] using this

/-- States whose parameters, buses, channels and other fields agree are equal. -/
theorem State.eq_of_fields {s t : State} (h1 : ∀ j, s.bus j = t.bus j) (h2 : s.slv = t.slv) (h3 : s.cmd = t.cmd)
    (h4 : s.hdr = t.hdr) (h5 : s.mst = t.mst) (h6 : s.fatal = t.fatal) (h7 : s.fatalCause = t.fatalCause)
    (h8 : s.rdy = t.rdy) (h9 : s.rdyDriven = t.rdyDriven) (h10 : ∀ c, s.chan c = t.chan c) (h11 : s.mem = t.mem)
    (h12 : s.hist = t.hist) (h13 : s.draws = t.draws) (h14 : s.sched = t.sched) (h15 : s.par = t.par)
    (h16 : s.numBus = t.numBus) (h17 : s.numDmaCh = t.numDmaCh) : s = t := by
  have h1 := buses_eq_of_bus h16 h1
  have h10 := dma_eq_of_chan h17 h10
  cases s; cases t; simp_all

@[simp] theorem Bus.eta (b : Bus) : Bus.mk b.en b.cs b.dir b.workMode b.outEn b.frameBits b.dbl b.dblWritten b.rxcnt
    b.busy b.tx b.rx b.instrLen b.addrLen b.waitCycles = b := rfl

@[simp] theorem State.eta (s : State) : State.mk s.par s.buses s.slv s.cmd s.hdr s.mst s.fatal s.fatalCause s.rdy
    s.rdyDriven s.dma s.mem s.hist s.draws s.sched = s := rfl

/-- A state written out with the buses of `s` has the buses of `s`. -/
@[simp] theorem bus_mk (s : State) (par slv cmd hdr mst fatal cause rdy driven dma mem hist draws sched) (j : Nat) :
    (State.mk par s.buses slv cmd hdr mst fatal cause rdy driven dma mem hist draws sched).bus j = s.bus j := rfl

@[simp] theorem numBus_mk (s : State) (par slv cmd hdr mst fatal cause rdy driven dma mem hist draws sched) :
    (State.mk par s.buses slv cmd hdr mst fatal cause rdy driven dma mem hist draws sched).numBus = s.numBus := (rfl)

/-- A state written out with the channels of `s` has the channels of `s`. -/
@[simp] theorem chan_mk (s : State) (par buses slv cmd hdr mst fatal cause rdy driven mem hist draws sched) (c : Nat) :
    (State.mk par buses slv cmd hdr mst fatal cause rdy driven s.dma mem hist draws sched).chan c = s.chan c := rfl

@[simp] theorem numDmaCh_mk (s : State) (par buses slv cmd hdr mst fatal cause rdy driven mem hist draws sched) :
    (State.mk par buses slv cmd hdr mst fatal cause rdy driven s.dma mem hist draws sched).numDmaCh = s.numDmaCh := (rfl)

/-- A bus that does not exist reads as after reset. -/
theorem bus_of_ge (s : State) {i : Nat} (h : s.numBus ≤ i) : s.bus i = Bus.reset := by
  simp only [State.bus, List.getD_eq_getElem?_getD]
  rw [List.getElem?_eq_none h]; rfl

/-- A bus that is enabled exists. -/
theorem lt_of_en {s : State} {i : Nat} (h : (s.bus i).en = true) : i < s.numBus := by
  by_contra hn
  rw [bus_of_ge s (Nat.le_of_not_lt hn)] at h
  cases h

/-- A bus whose receive FIFO holds an entry exists. -/
theorem lt_of_rx {s : State} {i : Nat} {e : Entry} {rest : List Entry} (h : (s.bus i).rx = e :: rest) : i < s.numBus := by
  by_contra hn
  rw [bus_of_ge s (Nat.le_of_not_lt hn)] at h
  cases h

/-- A bus that does not exist is not written. -/
theorem setBus_of_ge (s : State) {i : Nat} (b : Bus) (h : s.numBus ≤ i) : s.setBus i b = s := by
  unfold State.setBus; rw [List.set_eq_of_length_le h]

theorem chan_of_ge (s : State) {c : Nat} (h : s.numDmaCh ≤ c) : s.chan c = DmaChannel.reset := by
  simp only [State.chan, List.getD_eq_getElem?_getD]
  rw [List.getElem?_eq_none h]; rfl

@[simp] theorem setBus_setBus (s : State) (i : Nat) (b b' : Bus) : (s.setBus i b).setBus i b' = s.setBus i b' := by
  simp [State.setBus]

@[simp] theorem setBus_self (s : State) (i : Nat) : s.setBus i (s.bus i) = s := by
  apply State.eq_of_fields <;> simp [bus_setBus]

@[simp] theorem setChan_setChan (s : State) (i : Nat) (d d' : DmaChannel) :
    (s.setChan i d).setChan i d' = s.setChan i d' := by
  simp [State.setChan]

@[simp] theorem setChan_self (s : State) (i : Nat) : s.setChan i (s.chan i) = s := by
  apply State.eq_of_fields <;> simp [chan_setChan]

@[simp] theorem setChan_setBus_self (s : State) (i c : Nat) (b : Bus) :
    (s.setBus i b).setChan c (s.chan c) = s.setBus i b := by
  rw [← setBus_chan s i b, setChan_self]

/-! ### Reset -/

@[simp] theorem resetOf_bus (p : Params) (nb nd i : Nat) : (State.resetOf p nb nd).bus i = Bus.reset := by
  simp only [State.bus, State.resetOf, List.getD_eq_getElem?_getD, List.getElem?_replicate]
  split <;> rfl

@[simp] theorem resetOf_chan (p : Params) (nb nd c : Nat) : (State.resetOf p nb nd).chan c = DmaChannel.reset := by
  simp only [State.chan, State.resetOf, List.getD_eq_getElem?_getD, List.getElem?_replicate]
  split <;> rfl

@[simp] theorem resetOf_numBus (p : Params) (nb nd : Nat) : (State.resetOf p nb nd).numBus = nb := by
  simp [State.numBus, State.resetOf]

@[simp] theorem resetOf_numDmaCh (p : Params) (nb nd : Nat) : (State.resetOf p nb nd).numDmaCh = nd := by
  simp [State.numDmaCh, State.resetOf]

/-! ### The channels after the closing edge and after a re-arm -/

@[simp] theorem leaveOrphan_reset (p : Params) : leaveOrphan p DmaChannel.reset = DmaChannel.reset := rfl

/-- With ORPHAN_DMA = live nothing is disarmed. -/
theorem leaveOrphan_live {p : Params} (h : p.orphanDma = .live) (d : DmaChannel) : leaveOrphan p d = d := by
  simp [leaveOrphan, h]

/-- With ORPHAN_DMA = stopped every channel is disarmed. -/
theorem leaveOrphan_stopped {p : Params} (h : p.orphanDma = .stopped) (d : DmaChannel) :
    (leaveOrphan p d).armed = false := by simp [leaveOrphan, h]

@[simp] theorem leaveOrphans_chan (s : State) (c : Nat) : (leaveOrphans s).chan c = leaveOrphan s.par (s.chan c) := by
  simp only [State.chan, leaveOrphans, List.getD_eq_getElem?_getD, List.getElem?_map]
  cases s.dma[c]? <;> rfl

@[simp] theorem leaveOrphans_par (s : State) : (leaveOrphans s).par = s.par := rfl
@[simp] theorem leaveOrphans_buses (s : State) : (leaveOrphans s).buses = s.buses := rfl
@[simp] theorem leaveOrphans_slv (s : State) : (leaveOrphans s).slv = s.slv := rfl
@[simp] theorem leaveOrphans_cmd (s : State) : (leaveOrphans s).cmd = s.cmd := rfl
@[simp] theorem leaveOrphans_hdr (s : State) : (leaveOrphans s).hdr = s.hdr := rfl
@[simp] theorem leaveOrphans_mst (s : State) : (leaveOrphans s).mst = s.mst := rfl
@[simp] theorem leaveOrphans_fatal (s : State) : (leaveOrphans s).fatal = s.fatal := rfl
@[simp] theorem leaveOrphans_fatalCause (s : State) : (leaveOrphans s).fatalCause = s.fatalCause := rfl
@[simp] theorem leaveOrphans_rdy (s : State) : (leaveOrphans s).rdy = s.rdy := rfl
@[simp] theorem leaveOrphans_rdyDriven (s : State) : (leaveOrphans s).rdyDriven = s.rdyDriven := rfl
@[simp] theorem leaveOrphans_mem (s : State) : (leaveOrphans s).mem = s.mem := rfl
@[simp] theorem leaveOrphans_hist (s : State) : (leaveOrphans s).hist = s.hist := rfl
@[simp] theorem leaveOrphans_draws (s : State) : (leaveOrphans s).draws = s.draws := rfl
@[simp] theorem leaveOrphans_sched (s : State) : (leaveOrphans s).sched = s.sched := rfl
@[simp] theorem leaveOrphans_bus (s : State) (j : Nat) : (leaveOrphans s).bus j = s.bus j := rfl
@[simp] theorem leaveOrphans_numBus (s : State) : (leaveOrphans s).numBus = s.numBus := (rfl)
@[simp] theorem leaveOrphans_numDmaCh (s : State) : (leaveOrphans s).numDmaCh = s.numDmaCh := by
  simp [leaveOrphans, State.numDmaCh]

/-! ### The abort -/

@[simp] theorem raiseAbort_par (c : AbortCause) (s : State) : (raiseAbort c s).par = s.par := rfl
@[simp] theorem raiseAbort_buses (c : AbortCause) (s : State) : (raiseAbort c s).buses = s.buses := rfl
@[simp] theorem raiseAbort_slv (c : AbortCause) (s : State) : (raiseAbort c s).slv = s.slv := rfl
@[simp] theorem raiseAbort_cmd (c : AbortCause) (s : State) : (raiseAbort c s).cmd = s.cmd := rfl
@[simp] theorem raiseAbort_hdr (c : AbortCause) (s : State) : (raiseAbort c s).hdr = s.hdr := rfl
@[simp] theorem raiseAbort_mst (c : AbortCause) (s : State) : (raiseAbort c s).mst = s.mst := rfl
@[simp] theorem raiseAbort_fatal (c : AbortCause) (s : State) : (raiseAbort c s).fatal = true := rfl
@[simp] theorem raiseAbort_fatalCause (c : AbortCause) (s : State) : (raiseAbort c s).fatalCause = c.code := rfl
@[simp] theorem raiseAbort_rdy (c : AbortCause) (s : State) : (raiseAbort c s).rdy = s.rdy := rfl
@[simp] theorem raiseAbort_rdyDriven (c : AbortCause) (s : State) : (raiseAbort c s).rdyDriven = s.rdyDriven := rfl
@[simp] theorem raiseAbort_dma (c : AbortCause) (s : State) : (raiseAbort c s).dma = s.dma := rfl
@[simp] theorem raiseAbort_mem (c : AbortCause) (s : State) : (raiseAbort c s).mem = s.mem := rfl
@[simp] theorem raiseAbort_hist (c : AbortCause) (s : State) : (raiseAbort c s).hist = .fault (.abort c) :: s.hist := rfl
@[simp] theorem raiseAbort_draws (c : AbortCause) (s : State) : (raiseAbort c s).draws = s.draws := rfl
@[simp] theorem raiseAbort_sched (c : AbortCause) (s : State) : (raiseAbort c s).sched = s.sched := rfl
@[simp] theorem raiseAbort_numBus (c : AbortCause) (s : State) : (raiseAbort c s).numBus = s.numBus := (rfl)
@[simp] theorem raiseAbort_numDmaCh (c : AbortCause) (s : State) : (raiseAbort c s).numDmaCh = s.numDmaCh := (rfl)
@[simp] theorem raiseAbort_bus (c : AbortCause) (s : State) (j : Nat) : (raiseAbort c s).bus j = s.bus j := rfl
@[simp] theorem raiseAbort_chan (c : AbortCause) (s : State) (j : Nat) : (raiseAbort c s).chan j = s.chan j := rfl

end Sys2Proof.Machine
end

