-- ==== Sys2Proof/Laws/Units.lean ====
section
/-! SUPPORT. Laws/Units.lean: everything a move of units between memory and a FIFO can do: one lemma for each of
LoadUnit, StoreUnit, `pushUnits` and `popUnits`. -/

namespace Sys2Proof.Machine

/-! ### One unit -/

/-- The accesses of a load, newest first (40_classifier.md R126, 20_memory.md R64). -/
def unitReads (aw : Nat) (a : Addr) (k w : Nat) : List Event :=
  if aligned a w then [.memR (unitAddr aw a k w) w]
  else ((List.range w).map fun j => Event.memR (wrap aw (unitAddr aw a k w + j)) 1).reverse

/-- The accesses of a store, newest first (40_classifier.md R127). -/
def unitWrites (aw : Nat) (a : Addr) (k w : Nat) (e : Entry) : List Event :=
  if aligned a w then [.memW (unitAddr aw a k w) w (lowBytes w e)]
  else ((List.range w).map fun j => Event.memW (wrap aw (unitAddr aw a k w + j)) 1 ((byteOf e j).setWidth 32)).reverse

theorem onlyReads_nil : OnlyReads [] := by simp [OnlyReads]

theorem onlyWrites_nil : OnlyWrites [] := by simp [OnlyWrites]

theorem OnlyReads.append {l l' : List Event} (h : OnlyReads l) (h' : OnlyReads l') : OnlyReads (l ++ l') := by
  intro e he
  rcases List.mem_append.1 he with he | he
  exacts [h e he, h' e he]

theorem OnlyWrites.append {l l' : List Event} (h : OnlyWrites l) (h' : OnlyWrites l') : OnlyWrites (l ++ l') := by
  intro e he
  rcases List.mem_append.1 he with he | he
  exacts [h e he, h' e he]

theorem onlyReads_unitReads (aw : Nat) (a : Addr) (k w : Nat) : OnlyReads (unitReads aw a k w) := by
  intro e he
  unfold unitReads at he
  split at he
  · exact ⟨_, _, List.mem_singleton.1 he⟩
  · obtain ⟨j, -, rfl⟩ := List.mem_map.1 (List.mem_reverse.1 he)
    exact ⟨_, _, rfl⟩

theorem onlyWrites_unitWrites (aw : Nat) (a : Addr) (k w : Nat) (v : Entry) : OnlyWrites (unitWrites aw a k w v) := by
  intro e he
  unfold unitWrites at he
  split at he
  · exact ⟨_, _, _, List.mem_singleton.1 he⟩
  · obtain ⟨j, -, rfl⟩ := List.mem_map.1 (List.mem_reverse.1 he)
    exact ⟨_, _, _, rfl⟩

/-- Both arms of a misaligned move walk the same way: the head of the reversed list is the newest access. -/
theorem reverse_map_range_succ {α : Type} (f : Nat → α) (j n : Nat) :
    ((List.range (n + 1)).map fun i => f (j + i)).reverse
      = ((List.range n).map fun i => f (j + 1 + i)).reverse ++ [f j] := by
  rw [List.range_succ_eq_map]
  simp only [List.map_cons, List.map_map, List.reverse_cons, Nat.add_zero]
  congr 3
  funext i
  simp only [Function.comp]
  congr 1; omega

theorem shiftLeft_comm_or (x y : Entry) (j : Nat) : x <<< (8 * j) ||| y <<< (8 * (j + 1)) = (x ||| y <<< 8) <<< (8 * j) := by
  rw [Nat.mul_succ, BitVec.shiftLeft_or_distrib, ← BitVec.shiftLeft_add, Nat.add_comm]

theorem loadBytewise_eq (base : Addr) (j n : Nat) (s : State) :
    loadBytewise base j n s = (loadBytes s.par.aw s.mem (base + j) n <<< (8 * j), { s with
      hist := ((List.range n).map fun i => Event.memR (wrap s.par.aw (base + (j + i))) 1).reverse ++ s.hist }) := by
  induction n generalizing j s with
  | zero => simp [loadBytewise, loadBytes]
  | succ n ih =>
    rw [loadBytewise, ih, reverse_map_range_succ (fun x => Event.memR (wrap s.par.aw (base + x)) 1)]
    simp only [memRead, note_mem, note_par, Prod.mk.injEq]
    constructor
    · rw [loadBytes, ← Nat.add_assoc, shiftLeft_comm_or]; simp [loadBytes]
    · apply State.eq_of_fields <;> simp [State.note]

/-- LoadUnit: the value is that of the unit's bytes, aligned or not; nothing changes but the history. -/
theorem loadUnit_eq (a : Addr) (k w : Nat) (s : State) :
    loadUnit a k w s = (loadBytes s.par.aw s.mem (unitAddr s.par.aw a k w) w, { s with
      hist := unitReads s.par.aw a k w ++ s.hist }) := by
  unfold loadUnit unitReads
  split
  · rfl
  · rw [loadBytewise_eq]; simp

theorem storeBytewise_eq (base : Addr) (j n : Nat) (e : Entry) (s : State) :
    storeBytewise base j n e s = { s with
      mem := storeBytes s.par.aw s.mem (base + j) n (e >>> (8 * j))
      hist := ((List.range n).map fun i =>
        Event.memW (wrap s.par.aw (base + (j + i))) 1 ((byteOf e (j + i)).setWidth 32)).reverse ++ s.hist } := by
  induction n generalizing j s with
  | zero => simp [storeBytewise, storeBytes]
  | succ n ih =>
    rw [storeBytewise, ih,
      reverse_map_range_succ (fun x => Event.memW (wrap s.par.aw (base + x)) 1 ((byteOf e x).setWidth 32))]
    apply State.eq_of_fields <;> try simp [memWrite]
    · rw [storeBytes, storeBytes, storeBytes, ← BitVec.shiftRight_add, Nat.mul_succ, Nat.add_assoc]
    · rw [lowBytes_one]; rfl

/-- StoreUnit: the low `w` bytes of the entry stand at the unit's address, aligned or not; nothing else changes but the
history. -/
theorem storeUnit_eq (a : Addr) (k w : Nat) (e : Entry) (s : State) :
    storeUnit a k w e s = { s with
      mem := storeBytes s.par.aw s.mem (unitAddr s.par.aw a k w) w e
      hist := unitWrites s.par.aw a k w e ++ s.hist } := by
  unfold storeUnit unitWrites
  split
  · rfl
  · rw [storeBytewise_eq]; simp

/-! ### Several units -/

theorem unitsOf_succ (aw : Nat) (m : List Host.Cell) (buf : Addr) (w k n : Nat) :
    unitsOf aw m buf w k (n + 1) = loadBytes aw m (unitAddr aw buf k w) w :: unitsOf aw m buf w (k + 1) n := by
  unfold unitsOf
  rw [List.range_succ_eq_map]
  simp only [List.map_cons, List.map_map, Nat.add_zero]
  congr 2
  funext j
  simp only [Function.comp]
  congr 2; omega

@[simp] theorem unitsOf_length (aw : Nat) (m : List Host.Cell) (buf : Addr) (w k n : Nat) :
    (unitsOf aw m buf w k n).length = n := by
  simp [unitsOf]

/-- `pushUnits`: the units of the buffer, unit `k` first, go to the tail of the transmit FIFO as far as there is room;
each that finds none is lost and recorded. Nothing else changes but the history. -/
theorem pushUnits_eq (bus : Nat) (buf : Addr) (w k n : Nat) (s : State) :
    ∃ evs : List Event, pushUnits bus buf w k n s = { s.setBus bus { s.bus bus with
        tx := (s.bus bus).tx ++ (unitsOf s.par.aw s.mem buf w k n).take (32 - (s.bus bus).tx.length) } with
        hist := evs ++ s.hist } ∧
      (∀ e ∈ evs, (∃ a n, e = .memR a n) ∨ e = .fault (.txOverflow bus)) ∧
      ((s.bus bus).tx.length + n ≤ 32 → OnlyReads evs) ∧
      (bus < s.numBus → 32 < (s.bus bus).tx.length + n → 0 < n → Event.fault (.txOverflow bus) ∈ evs) := by
  induction n generalizing k s with
  | zero => exact ⟨[], by simp [pushUnits, unitsOf], by simp, fun _ => onlyReads_nil, by simp⟩
  | succ n ih =>
    simp only [pushUnits, loadUnit_eq]
    have hur := onlyReads_unitReads s.par.aw buf k w
    by_cases hlev : (s.bus bus).tx.length < 32
    · have hp : txPush bus (loadBytes s.par.aw s.mem (unitAddr s.par.aw buf k w) w)
          { s with hist := unitReads s.par.aw buf k w ++ s.hist }
          = { s.setBus bus { s.bus bus with tx := (s.bus bus).tx ++ [loadBytes s.par.aw s.mem (unitAddr s.par.aw buf k w) w] } with
              hist := unitReads s.par.aw buf k w ++ s.hist } := by
        simp only [txPush, txLevel, bus_mk, Config.fifoDepth, hlev, if_true]
        apply State.eq_of_fields <;> simp [bus_setBus]
      rw [hp]
      obtain ⟨evs, he, hm, hr, hf⟩ := ih (k + 1) { s.setBus bus { s.bus bus with
        tx := (s.bus bus).tx ++ [loadBytes s.par.aw s.mem (unitAddr s.par.aw buf k w) w] } with
        hist := unitReads s.par.aw buf k w ++ s.hist }
      refine ⟨evs ++ unitReads s.par.aw buf k w, ?_, ?_, ?_, ?_⟩
      · rw [he, unitsOf_succ, show 32 - (s.bus bus).tx.length = 32 - ((s.bus bus).tx.length + 1) + 1 by omega,
          List.take_succ_cons]
        by_cases hb : bus < s.numBus
        · apply State.eq_of_fields <;> simp [hb, bus_setBus]
          intro j; split <;> simp_all
        · apply State.eq_of_fields <;> simp [hb, bus_setBus]
      · intro e h
        rcases List.mem_append.1 h with h | h
        · exact hm e h
        · exact .inl (hur e h)
      · intro h
        refine (hr ?_).append hur
        simp only [bus_mk, bus_setBus]
        split
        · simp; omega
        · omega
      · intro hb h _
        simp [hb] at hf
        exact List.mem_append_left _ (hf (by omega) (by omega))
    · have hp : txPush bus (loadBytes s.par.aw s.mem (unitAddr s.par.aw buf k w) w)
          { s with hist := unitReads s.par.aw buf k w ++ s.hist }
          = { s with hist := .fault (.txOverflow bus) :: unitReads s.par.aw buf k w ++ s.hist } := by
        simp only [txPush, txLevel, bus_mk, Config.fifoDepth, hlev, if_false]
        rfl
      rw [hp]
      obtain ⟨evs, he, hm, hr, hf⟩ := ih (k + 1) { s with
        hist := .fault (.txOverflow bus) :: unitReads s.par.aw buf k w ++ s.hist }
      refine ⟨evs ++ .fault (.txOverflow bus) :: unitReads s.par.aw buf k w, ?_, ?_, ?_, ?_⟩
      · rw [he]
        have : 32 - (s.bus bus).tx.length = 0 := by omega
        apply State.eq_of_fields <;> simp [this, bus_setBus]
      · intro e h
        rcases List.mem_append.1 h with h | h
        · exact hm e h
        · rcases List.mem_cons.1 h with rfl | h
          · exact .inr rfl
          · exact .inl (hur e h)
      · intro h; omega
      · intro hb h _; simp

/-- The entries `n` pops of a receive FIFO give: those present, then free ones, one draw each (10_state.md R33 (2)). -/
def poppedEntries (rx : List Entry) (draws n : Nat) : List Entry :=
  rx.take n ++ (List.range (n - rx.length)).map fun i => Config.drawEntry (draws + i)

theorem poppedEntries_cons (e : Entry) (rx : List Entry) (draws n : Nat) :
    poppedEntries (e :: rx) draws (n + 1) = e :: poppedEntries rx draws n := by
  simp [poppedEntries]

theorem poppedEntries_nil (draws n : Nat) :
    poppedEntries [] draws (n + 1) = Config.drawEntry draws :: poppedEntries [] (draws + 1) n := by
  simp only [poppedEntries, List.take_nil, List.nil_append, List.length_nil, Nat.sub_zero, List.range_succ_eq_map,
    List.map_cons, List.map_map, Nat.add_zero]
  congr 2; funext i; simp only [Function.comp]; congr 1; omega

@[simp] theorem poppedEntries_length (rx : List Entry) (draws n : Nat) : (poppedEntries rx draws n).length = n := by
  simp [poppedEntries]; omega

/-- RxPop: the head leaves, or one draw is counted; nothing else changes. -/
theorem rxPop_eq (i : Nat) (s : State) :
    rxPop i s = ((s.bus i).rx.headD (Config.drawEntry s.draws), { s.setBus i { s.bus i with rx := (s.bus i).rx.drop 1 } with
      draws := s.draws + (1 - (s.bus i).rx.length) }) := by
  unfold rxPop
  split <;> rename_i h <;> simp only [h, List.headD_cons, List.headD_nil, Prod.mk.injEq, true_and]
  · apply State.eq_of_fields <;> simp [bus_setBus]
  · have : ({ s.bus i with rx := List.drop 1 [] } : Bus) = s.bus i := by
      rw [List.drop_nil, ← h]
    rw [this, setBus_self]; rfl

/-- `popUnits`: the entries popped stand as units of the buffer, unit `k` first; nothing else changes but the history. -/
theorem popUnits_eq (bus : Nat) (buf : Addr) (w k n : Nat) (s : State) :
    ∃ writes, OnlyWrites writes ∧
      popUnits bus buf w k n s = { s.setBus bus { s.bus bus with rx := (s.bus bus).rx.drop n } with
        mem := withUnits s.par.aw s.mem buf w k (poppedEntries (s.bus bus).rx s.draws n)
        draws := s.draws + (n - (s.bus bus).rx.length)
        hist := writes ++ s.hist } := by
  induction n generalizing k s with
  | zero => exact ⟨[], onlyWrites_nil, by simp [popUnits, poppedEntries, withUnits]⟩
  | succ n ih =>
    simp only [popUnits, storeUnit_eq]
    obtain ⟨writes, hw, he⟩ := ih (k + 1) { (rxPop bus s).2 with
      mem := storeBytes (rxPop bus s).2.par.aw (rxPop bus s).2.mem (unitAddr (rxPop bus s).2.par.aw buf k w) w (rxPop bus s).1
      hist := unitWrites (rxPop bus s).2.par.aw buf k w (rxPop bus s).1 ++ (rxPop bus s).2.hist }
    refine ⟨writes ++ unitWrites (rxPop bus s).2.par.aw buf k w (rxPop bus s).1,
      hw.append (onlyWrites_unitWrites _ _ _ _ _), ?_⟩
    rw [he, rxPop_eq]
    cases hrx : (s.bus bus).rx with
    | cons e rest =>
      have hb : bus < s.numBus := by
        by_contra h
        rw [bus_of_ge s (by omega)] at hrx
        simp [Bus.reset] at hrx
      apply State.eq_of_fields <;> simp [bus_setBus, hb, poppedEntries_cons, withUnits]
      · intro j; split <;> simp
    | nil =>
      have hself : ({ s.bus bus with rx := [] } : Bus) = s.bus bus := by rw [← hrx]
      apply State.eq_of_fields <;> simp [bus_setBus, hrx, poppedEntries_nil, withUnits, hself]
      omega

/-! ### The bytes of several units -/

theorem withUnits_wf {aw : Nat} {m : List Host.Cell} (h : Memory.wf aw m) (buf : Addr) (w k : Nat) (es : List Entry) :
    Memory.wf aw (withUnits aw m buf w k es) := by
  induction es generalizing m k with
  | nil => exact h
  | cons e es ih => exact ih (storeBytes_wf h _ _ _) _

theorem byteAt_withUnits_outside (aw : Nat) (m : List Host.Cell) (a buf : Addr) (w k : Nat) (es : List Entry)
    (h : OutsideUnits aw a buf w k es.length) : byteAt (withUnits aw m buf w k es) a = byteAt m a := by
  induction es generalizing m k with
  | nil => rfl
  | cons e es ih =>
    rw [withUnits, ih, byteAt_storeBytes_outside]
    · exact h 0 (by simp)
    · intro j hj i hi
      have := h (j + 1) (by simpa using hj) i hi
      rwa [show k + (j + 1) = k + 1 + j by omega] at this

/-- Two bytes of different units of one buffer have different addresses, as long as the units do not wrap around. -/
theorem unit_byte_ne (aw : Nat) (buf : Addr) (w k j i i' : Nat) (hi : i < w) (hi' : i' < w) (hfit : (j + 2) * w ≤ 2 ^ aw) :
    wrap aw (unitAddr aw buf k w + i) ≠ wrap aw (unitAddr aw buf (k + 1 + j) w + i') := by
  intro e
  have h1 : (k + 1 + j) * w = k * w + (1 + j) * w := by ring
  have h2 : (j + 2) * w = (1 + j) * w + w := by ring
  have h3 : 1 * w ≤ (1 + j) * w := Nat.mul_le_mul_right w (by omega)
  simp only [unitAddr, wrap_add_wrap] at e
  rw [h1, ← Nat.add_assoc, Nat.add_assoc (buf + k * w)] at e
  have := wrap_add_inj (by omega) (by omega) e
  omega

/-- Units stored load back, each cut to its width (20_memory.md R77). -/
theorem unitsOf_withUnits (aw : Nat) (m : List Host.Cell) (buf : Addr) (w k : Nat) (es : List Entry)
    (hfit : (es.length + 1) * w ≤ 2 ^ aw) :
    unitsOf aw (withUnits aw m buf w k es) buf w k es.length = es.map (lowBytes w) := by
  induction es generalizing m k with
  | nil => rfl
  | cons e es ih =>
    have hle : (es.length + 1) * w ≤ (es.length + 1 + 1) * w := Nat.mul_le_mul_right w (by omega)
    have hw : w ≤ (es.length + 1) * w := Nat.le_mul_of_pos_left w (by omega)
    simp only [List.length_cons] at hfit
    rw [List.length_cons, unitsOf_succ, List.map_cons, withUnits, ih _ _ (by omega)]
    congr 1
    rw [← loadBytes_storeBytes aw m (unitAddr aw buf k w) w e (by omega)]
    apply loadBytes_congr
    intro i hi
    apply byteAt_withUnits_outside
    intro j hj i' hi'
    refine unit_byte_ne aw buf w k j i i' hi hi' (Nat.le_trans (Nat.mul_le_mul_right w ?_) hfit)
    omega

/-- The address of a unit is that of the buffer modulo 2^AW. -/
@[simp] theorem unitAddr_wrap (aw : Nat) (a : Addr) (k w : Nat) : unitAddr aw (wrap aw a) k w = unitAddr aw a k w := by
  simp [unitAddr]

@[simp] theorem unitsOf_wrap (aw : Nat) (m : List Host.Cell) (a : Addr) (w k n : Nat) :
    unitsOf aw m (wrap aw a) w k n = unitsOf aw m a w k n := by
  simp only [unitsOf, unitAddr_wrap]

@[simp] theorem withUnits_wrap (aw : Nat) (m : List Host.Cell) (a : Addr) (w k : Nat) (es : List Entry) :
    withUnits aw m (wrap aw a) w k es = withUnits aw m a w k es := by
  induction es generalizing m k with
  | nil => rfl
  | cons e es ih => simp only [withUnits, unitAddr_wrap, ih]

end Sys2Proof.Machine
end

