-- ==== Sys2Proof/Laws/Slave.lean ====
section
/-! SUPPORT. Laws/Slave.lean: everything the shared steps of the slave role can do: programming bus 2, driving the ready
pin, the return to Idle, the header read, the preload and the commit. -/

namespace Sys2Proof.Machine

/-! ### Bus 2 and the pin -/

@[simp] theorem slaveBus_eq : Config.slaveBus = 2 := rfl

/-- Bus 2 as CtrlProgram leaves it (42_slave_fsm.md R197): enabled, both FIFOs empty. -/
def programmed (dir : Dir) (outEn : Bool) (bits : BitVec 6) (b : Bus) : Bus :=
  { b with en := true, tx := [], rx := [], dir := dir, outEn := outEn, frameBits := bits, workMode := 0 }

/-- CtrlProgram writes bus 2, nothing else. -/
@[simp] theorem ctrlProgram_eq (dir : Dir) (outEn : Bool) (bits : BitVec 6) (s : State) :
    ctrlProgram dir outEn bits s = s.setBus 2 (programmed dir outEn bits (s.bus 2)) := by
  by_cases h : 2 < s.numBus
  · simp [ctrlProgram, setEnable, programmed, h]
  · simp [ctrlProgram, setEnable, setBus_of_ge _ _ (Nat.le_of_not_lt h)]

/-- Bus 2 with reception for a header: what IdleRearm leaves (42_slave_fsm.md R196). -/
def rearmed (b : Bus) : Bus := programmed .receiveOnly false b.dbl b

/-- The event of driving the ready pin to a level: none if it is already driven there (45_handshake.md R291). -/
def pinEvents (level : Bool) (s : State) : List Event :=
  if s.rdyDriven && s.rdy == level then [] else [.pin s.slv.rdyPin level]

theorem pinEvents_cases (level : Bool) (s : State) :
    pinEvents level s = [] ∨ pinEvents level s = [.pin s.slv.rdyPin level] := by
  unfold pinEvents; split <;> simp

/-- PinSet writes the pin, nothing else. -/
theorem pinSet_eq (level : Bool) (s : State) :
    pinSet level s = { s with rdy := level, rdyDriven := true, hist := pinEvents level s ++ s.hist } := by
  unfold pinSet pinEvents
  split
  · rename_i h
    simp at h
    apply State.eq_of_fields <;> simp [h]
  · rfl

/-- IdleRearm: Idle, bus 2 receiving, the channels as ORPHAN_DMA says, the ready pin high; nothing else changes. -/
theorem idleRearm_eq (s : State) :
    idleRearm s = { (leaveOrphans s).setBus 2 (rearmed (s.bus 2)) with
      slv := { s.slv with status := .idle }, rdy := true, rdyDriven := true, hist := pinEvents true s ++ s.hist } := by
  simp only [idleRearm, pinSet_eq, ctrlProgram_eq]
  apply State.eq_of_fields <;> simp [setStatus, bus_setBus, rearmed, pinEvents]

/-- The end of T1: the channels as ORPHAN_DMA says, T2 next; nothing else changes. -/
theorem endT1_eq (s : State) :
    endT1 s = { leaveOrphans s with slv := { s.slv with handler := .callbackDue } } := rfl

/-! ### Frame widths -/

/-- The frame width of a bus is its DBL's: a write of a bus that leaves DBL alone leaves every frame width alone. -/
theorem frameWidth_setBus {s : State} {i : Nat} {b : Bus} (h : b.dbl = (s.bus i).dbl) (j : Nat) :
    frameWidth j (s.setBus i b) = frameWidth j s := by
  unfold frameWidth
  rw [bus_setBus]
  split
  · rename_i hh; rw [← hh.1, h]
  · rfl

theorem frameBytes_cases (b : Nat) : frameBytes b = 1 ∨ frameBytes b = 2 ∨ frameBytes b = 4 := by
  unfold frameBytes; cases classify b <;> simp [WidthClass.bytes]

theorem frameBytes_pos (b : Nat) : 0 < frameBytes b := by
  rcases frameBytes_cases b with h | h | h <;> omega

theorem frameBytes_le (b : Nat) : frameBytes b ≤ 4 := by
  rcases frameBytes_cases b with h | h | h <;> omega

/-- A header is a whole number of units. -/
theorem units_mul_width (b : Nat) : 8 / frameBytes b * frameBytes b = 8 := by
  rcases frameBytes_cases b with h | h | h <;> rw [h]

/-! ### The header read -/

/-- The bytes of entries of `w` bytes each (30_encoding.md R97). -/
def entryBytes (w : Nat) (es : List Entry) : List Byte := es.flatMap fun e => (List.range w).map (byteOf e)

@[simp] theorem entryBytes_length (w : Nat) (es : List Entry) : (entryBytes w es).length = es.length * w := by
  simp [entryBytes, List.length_flatMap, List.map_const']

theorem popHeader_eq (w n : Nat) (s : State) :
    popHeader w n s = (entryBytes w (poppedEntries (s.bus 2).rx s.draws n), {
      s.setBus 2 { s.bus 2 with rx := (s.bus 2).rx.drop n } with draws := s.draws + (n - (s.bus 2).rx.length) }) := by
  induction n generalizing s with
  | zero => simp [popHeader, poppedEntries, entryBytes]
  | succ n ih =>
    simp only [popHeader, ih, slaveBus_eq, Prod.mk.injEq]
    rw [rxPop_eq]
    cases hrx : (s.bus 2).rx with
    | cons e rest =>
      have h2 := lt_of_rx hrx
      constructor
      · simp [poppedEntries_cons, entryBytes, h2]
      · apply State.eq_of_fields <;> simp [bus_setBus, h2]
        intro j; split <;> simp
    | nil =>
      have hself : ({ s.bus 2 with rx := [] } : Bus) = s.bus 2 := by rw [← hrx]
      constructor
      · simp [poppedEntries_nil, entryBytes, hself, hrx]
      · apply State.eq_of_fields <;> simp [bus_setBus, hself, hrx]
        omega

/-- HDR holds the eight bytes it is filled from. -/
theorem hdrOf_toList {bytes : List Byte} (h : bytes.length = 8) : (hdrOf bytes).toList = bytes := by
  apply List.ext_getElem
  · simp [h]
  · intro i h1 h2
    simp [hdrOf, List.getD_eq_getElem?_getD, h2]

/-- The bytes the header read takes: those of the entries present, then of free ones. -/
def fetchedBytes (s : State) : List Byte :=
  entryBytes (frameWidth 2 s) (poppedEntries (s.bus 2).rx s.draws (8 / frameWidth 2 s))

@[simp] theorem fetchedBytes_length (s : State) : (fetchedBytes s).length = 8 := by
  simp [fetchedBytes, frameWidth, units_mul_width]

/-- The header read pops bus 2 and fills HDR; nothing else changes. -/
theorem fetchHeader_eq (s : State) :
    fetchHeader s = { s.setBus 2 { s.bus 2 with rx := (s.bus 2).rx.drop (8 / frameWidth 2 s) } with
      hdr := hdrOf (fetchedBytes s), draws := s.draws + (8 / frameWidth 2 s - (s.bus 2).rx.length) } := by
  simp only [fetchHeader, popHeader_eq]; rfl

theorem fetchHeader_hdr (s : State) : (fetchHeader s).hdr.toList = fetchedBytes s := by
  rw [fetchHeader_eq]; exact hdrOf_toList (fetchedBytes_length s)

/-- The header read takes the bytes that `headerOf` says. -/
theorem fetchedBytes_eq_headerOf (s : State) : fetchedBytes s = headerOf s := by
  have h : poppedEntries (s.bus 2).rx s.draws (8 / frameWidth 2 s)
      = (List.range (8 / frameWidth 2 s)).map (headerEntry s) := by
    apply List.ext_getElem
    · simp
    · intro i h1 h2
      simp only [poppedEntries, headerEntry, List.getElem_map, List.getElem_range]
      by_cases hi : i < (s.bus 2).rx.length
      · rw [List.getElem_append_left (by simp at h2 ⊢; omega)]
        simp [hi]
      · rw [List.getElem_append_right (by simp; omega)]
        simp at h2
        simp [show (s.bus 2).rx.length ≤ i by omega, show min (8 / frameWidth 2 s) (s.bus 2).rx.length
          = (s.bus 2).rx.length by omega]
  unfold fetchedBytes headerOf entryBytes
  rw [h, List.flatMap_map, Config.hdrLen]

/-! ### Setup and commit -/

/-- The preload: bus 2 transmits and holds the units of the source, unit 0 first; nothing else changes but the history. -/
theorem preload_eq (src : Addr) (s : State) (h : unitCount s ≤ 32) :
    ∃ reads, OnlyReads reads ∧ preload src s = { s.setBus 2 { programmed .transmitOnly true (s.bus 2).dbl (s.bus 2) with
        tx := unitsOf s.par.aw s.mem src (frameWidth 2 s) 0 (unitCount s) } with hist := reads ++ s.hist } := by
  have hw : frameWidth 2 (s.setBus 2 (programmed .transmitOnly true (s.bus 2).dbl (s.bus 2))) = frameWidth 2 s := by
    rw [frameWidth_setBus]; rfl
  have hn : unitCount (s.setBus 2 (programmed .transmitOnly true (s.bus 2).dbl (s.bus 2))) = unitCount s := by
    rw [unitCount, unitCount, setBus_cmd, slaveBus_eq, hw]
  obtain ⟨evs, he, -, hr, -⟩ := pushUnits_eq 2 src (frameWidth 2 s) 0 (unitCount s)
    (s.setBus 2 (programmed .transmitOnly true (s.bus 2).dbl (s.bus 2)))
  refine ⟨evs, hr ?_, ?_⟩
  · rw [bus_setBus]
    split
    · simpa [programmed] using h
    · rename_i h2
      rw [bus_of_ge s (by omega)]
      simpa [Bus.reset] using h
  simp only [preload, ctrlProgram_eq, slaveBus_eq, hw, hn, he]
  apply State.eq_of_fields <;> simp [bus_setBus, programmed]
  intro j
  split
  · rename_i h2
    simp only [h2.2, if_true, List.length_nil, Nat.sub_zero, List.nil_append]
    rw [List.take_of_length_le (by simpa using h)]
  · rfl

/-- The commit: the units popped stand at the destination; nothing else changes but the history. -/
theorem commit_eq (dst : Addr) (s : State) :
    ∃ writes, OnlyWrites writes ∧
      commit dst s = { s.setBus 2 { s.bus 2 with rx := (s.bus 2).rx.drop (unitCount s) } with
        mem := withUnits s.par.aw s.mem dst (frameWidth 2 s) 0 (poppedEntries (s.bus 2).rx s.draws (unitCount s))
        draws := s.draws + (unitCount s - (s.bus 2).rx.length)
        hist := writes ++ s.hist } := popUnits_eq 2 dst (frameWidth 2 s) 0 (unitCount s) s

/-- Arming the channel for READ_DATA_BLOCK: bus 2, channel DMA_CH, two events; nothing else. -/
theorem armRead_eq (s : State) :
    armRead s = { (s.setBus 2 (programmed .transmitOnly true 32 (s.bus 2))).setChan s.slv.dmaCh
        ⟨reqLine s.par 2 .tx, true, .mem (rawAddr s), .dr 2, .increment, .fixed, 4, 32, s.cmd.len.toNat * 4, false⟩ with
      hist := .dmaArmed s.slv.dmaCh (.mem (rawAddr s)) (.dr 2) .increment .fixed 4 32 (s.cmd.len.toNat * 4)
        :: .collab (.dmaSelect s.slv.dmaCh (reqLine s.par 2 .tx)) :: s.hist } := by
  simp only [armRead, ctrlProgram_eq]
  apply State.eq_of_fields <;>
    simp [dmaArm, dmaSelect, rawAddr, blockBytes, Config.dmaBurst, Config.dmaWidth, Config.dmaLenFactor]
  intro c
  simp only [chan_setChan, note_chan, setBus_chan, note_numDmaCh, setChan_numDmaCh, setBus_numDmaCh]
  split
  · rename_i h; simp [h.2]
  · rfl

/-- Arming the channel for WRITE_DATA_BLOCK. -/
theorem armWrite_eq (s : State) :
    armWrite s = { (s.setBus 2 (programmed .receiveOnly false 32 (s.bus 2))).setChan s.slv.dmaCh
        ⟨reqLine s.par 2 .rx, true, .dr 2, .mem (blockAddr s), .fixed, .increment, 4, 32, s.cmd.len.toNat * 4, false⟩ with
      hist := .dmaArmed s.slv.dmaCh (.dr 2) (.mem (blockAddr s)) .fixed .increment 4 32 (s.cmd.len.toNat * 4)
        :: .collab (.dmaSelect s.slv.dmaCh (reqLine s.par 2 .rx)) :: s.hist } := by
  simp only [armWrite, ctrlProgram_eq]
  apply State.eq_of_fields <;>
    simp [dmaArm, dmaSelect, blockAddr, blockBytes, Config.dmaBurst, Config.dmaWidth, Config.dmaLenFactor]
  intro c
  simp only [chan_setChan, note_chan, setBus_chan, note_numDmaCh, setChan_numDmaCh, setBus_numDmaCh]
  split
  · rename_i h; simp [h.2]
  · rfl

/-- The masked address is the multiple of 16 at or below the address (44_dma.md R273), zero-extended. -/
theorem blockAddr_eq {s : State} (hp : s.par.Legal) : blockAddr s = s.cmd.addr.toNat / 16 * 16 := by
  have h : s.cmd.addr &&& ~~~(BitVec.ofNat 32 (Config.blockAlign - 1)) = (s.cmd.addr >>> 4) <<< 4 := by
    apply BitVec.eq_of_getLsbD_eq
    intro i hi
    have : (15#32).getLsbD i = decide (i < 4) := (by decide : ∀ i < 32, (15#32).getLsbD i = decide (i < 4)) i hi
    simp only [Config.blockAlign, BitVec.getLsbD_and, BitVec.getLsbD_not, BitVec.getLsbD_shiftLeft,
      BitVec.getLsbD_ushiftRight, hi, decide_true, Bool.true_and]
    by_cases h4 : i < 4
    · simp [h4, this]
    · simp [h4, this, show 4 + (i - 4) = i by omega]
  have hlt := s.cmd.addr.isLt
  have hv : ((s.cmd.addr >>> 4) <<< 4).toNat = s.cmd.addr.toNat / 16 * 16 := by
    simp only [BitVec.toNat_shiftLeft, BitVec.toNat_ushiftRight, Nat.shiftLeft_eq, Nat.shiftRight_eq_div_pow]
    omega
  rw [blockAddr, h, hv, wrap_of_lt]
  have := two_pow_aw_ge hp
  omega

/-- The wire address is zero-extended to AW bits (30_encoding.md R93). -/
theorem rawAddr_eq {s : State} (hp : s.par.Legal) : rawAddr s = s.cmd.addr.toNat :=
  wrap_of_lt (Nat.lt_of_lt_of_le s.cmd.addr.isLt (two_pow_aw_ge hp))

/-! ### The Command phase -/

theorem enterTransfer_eq (setup : State → State) (s : State) :
    enterTransfer setup s = pinSet false (setup { s with slv := { s.slv with status := .transfer } }) := rfl

theorem commandPhase_accept {op : Byte} {nonBlock : Bool} {setup : State → State} {addr : BitVec 32} {len : BitVec 16}
    {sum : Byte} {s : State} (hs : sum = headerSum op addr len) (hl : nonBlock = true → decodedLen len ≤ 8) :
    commandPhase op nonBlock setup addr len sum s = enterTransfer setup (latchCommand op addr len s) := by
  unfold commandPhase
  rw [if_neg (by simp [hs]), if_neg]
  simp only [Bool.and_eq_true, decide_eq_true_eq, not_and, not_lt]
  exact hl

/-- The Command phase returns to Idle, or it enters Transfer with a command it accepts. -/
theorem commandPhase_cases (op : Byte) (nonBlock : Bool) (setup : State → State) (addr : BitVec 32) (len : BitVec 16)
    (sum : Byte) (s : State) :
    (commandPhase op nonBlock setup addr len sum s = idleRearm s ∧ sum ≠ headerSum op addr len) ∨
    (commandPhase op nonBlock setup addr len sum s = idleRearm (latchCommand op addr len s) ∧
      sum = headerSum op addr len ∧ nonBlock = true ∧ 8 < decodedLen len) ∨
    (commandPhase op nonBlock setup addr len sum s = enterTransfer setup (latchCommand op addr len s) ∧
      sum = headerSum op addr len ∧ (nonBlock = true → decodedLen len ≤ 8)) := by
  unfold commandPhase
  split
  · exact .inl ⟨rfl, by assumption⟩
  · rename_i h
    simp only [ne_eq, not_not] at h
    split <;> rename_i h2
    · simp only [Bool.and_eq_true, decide_eq_true_eq] at h2
      exact .inr (.inl ⟨rfl, h, h2⟩)
    · simp only [Bool.and_eq_true, decide_eq_true_eq, not_and, not_lt] at h2
      exact .inr (.inr ⟨rfl, h, h2⟩)

theorem decodedLen_pos (len : BitVec 16) : 1 ≤ decodedLen len := by
  unfold decodedLen Config.lenZeroMeans; split <;> omega

theorem decodedLen_le (len : BitVec 16) : decodedLen len ≤ 65536 := by
  unfold decodedLen Config.lenZeroMeans; split <;> omega

/-- The descriptor holds the decoded length whole. -/
theorem latchCommand_len (op : Byte) (addr : BitVec 32) (len : BitVec 16) (s : State) :
    (latchCommand op addr len s).cmd.len.toNat = decodedLen len := by
  have := decodedLen_le len
  simp [latchCommand]; omega

theorem unitCount_latchCommand (op : Byte) (addr : BitVec 32) (len : BitVec 16) (s : State) :
    unitCount (latchCommand op addr len s) = decodedLen len / frameWidth 2 s := by
  rw [unitCount, latchCommand_len]; rfl

end Sys2Proof.Machine
end

