-- ==== Sys2Proof/Laws/Step.lean ====
section
/-! SUPPORT. Laws/Step.lean: what one step runs: the turn of the schedule, and for the slave role the half of a wire
command that an edge runs. -/

namespace Sys2Proof.Machine

/-! ### Turns -/

theorem step_of_sched {s : State} {a : Action} {rest : List Action} (h : s.sched = a :: rest) :
    step s = turn a (s.setSched rest) := by
  simp [step, stepTurn, h]

theorem step_of_nil {s : State} (h : s.sched = []) : step s = .next s := by
  simp [step, stepTurn, h]

/-- The state in which the edge handler of a step runs: the turn taken, the edge acknowledged. -/
def acked (rest : List Action) (s : State) : State := acknowledge (s.setSched rest)

theorem acked_eq (rest : List Action) (s : State) :
    acked rest s = { s with slv := { s.slv with edgePend := false }, sched := rest } := rfl

@[simp] theorem acked_par (rest : List Action) (s : State) : (acked rest s).par = s.par := rfl
@[simp] theorem acked_numBus (rest : List Action) (s : State) : (acked rest s).numBus = s.numBus := (rfl)
@[simp] theorem acked_numDmaCh (rest : List Action) (s : State) : (acked rest s).numDmaCh = s.numDmaCh := (rfl)
@[simp] theorem acked_bus (rest : List Action) (s : State) (i : Nat) : (acked rest s).bus i = s.bus i := rfl
@[simp] theorem acked_chan (rest : List Action) (s : State) (c : Nat) : (acked rest s).chan c = s.chan c := rfl
@[simp] theorem acked_slv (rest : List Action) (s : State) : (acked rest s).slv = { s.slv with edgePend := false } := rfl
@[simp] theorem acked_cmd (rest : List Action) (s : State) : (acked rest s).cmd = s.cmd := rfl
@[simp] theorem acked_mst (rest : List Action) (s : State) : (acked rest s).mst = s.mst := rfl
@[simp] theorem acked_mem (rest : List Action) (s : State) : (acked rest s).mem = s.mem := rfl
@[simp] theorem acked_hist (rest : List Action) (s : State) : (acked rest s).hist = s.hist := rfl
@[simp] theorem acked_hdr (rest : List Action) (s : State) : (acked rest s).hdr = s.hdr := rfl
@[simp] theorem acked_draws (rest : List Action) (s : State) : (acked rest s).draws = s.draws := rfl
@[simp] theorem acked_fatal (rest : List Action) (s : State) : (acked rest s).fatal = s.fatal := rfl
@[simp] theorem acked_fatalCause (rest : List Action) (s : State) : (acked rest s).fatalCause = s.fatalCause := rfl
@[simp] theorem acked_rdy (rest : List Action) (s : State) : (acked rest s).rdy = s.rdy := rfl
@[simp] theorem acked_rdyDriven (rest : List Action) (s : State) : (acked rest s).rdyDriven = s.rdyDriven := rfl
@[simp] theorem acked_sched (rest : List Action) (s : State) : (acked rest s).sched = rest := rfl
@[simp] theorem acked_frameWidth (rest : List Action) (s : State) : frameWidth 2 (acked rest s) = frameWidth 2 s := rfl

/-- A step that runs the edge handler (42_slave_fsm.md R192). -/
theorem step_edge {s : State} {st : SlvStatus} {rest : List Action} (h : EdgeNext s st rest) :
    step s = edgeHandler (acked rest s) := by
  obtain ⟨h1, h2, h3, h4, h5, -⟩ := h
  rw [step_of_sched h1]
  simp only [turn, slaveStep, setSched_fatal, h2, setSched_slv, h3, h4, h5]
  rfl

theorem step_command {s : State} {rest : List Action} (h : EdgeNext s .command rest) :
    step s = runHeader (acked rest s) := by
  rw [step_edge h, edgeHandler, acked_slv, h.2.2.2.2.2]

theorem step_transfer {s : State} {rest : List Action} (h : EdgeNext s .transfer rest) :
    step s = runCompletion (acked rest s) := by
  rw [step_edge h, edgeHandler, acked_slv, h.2.2.2.2.2]

theorem fetchedBytes_acked (s : State) (rest : List Action) : fetchedBytes (acked rest s) = headerOf s :=
  fetchedBytes_eq_headerOf (acked rest s)

/-! ### The two halves of a wire command -/

/-- The setup of a wire command (43_slave_ops.md R232 to R242). -/
def setupOf : Instr → State → State
  | .readConfig _ _ _ => fun t => preload (cfgAddr t) t
  | .writeConfig _ _ _ => receive
  | .readDataByte _ _ _ => fun t => preload (rawAddr t) t
  | .writeDataByte _ _ _ => receive
  | .readDataBlock _ _ _ => armRead
  | .writeDataBlock _ _ _ => armWrite
  | .send _ _ _ _ => id
  | .recv _ _ _ _ _ _ => id
  | .sendw _ _ _ _ _ _ => id
  | .recvw _ _ _ _ _ _ => id
  | .busConfig _ _ _ => id
  | .nonstdConfig _ _ _ _ => id
  | .slaveConfig _ _ _ _ _ _ _ => id

/-- The completion check and the commit of a wire command (43_slave_ops.md R250, R252). -/
def completionOf : Instr → State → State
  | .readConfig _ _ _ => checkTx
  | .writeConfig _ _ _ => fun s => commit (cfgAddr s) (checkRx s)
  | .readDataByte _ _ _ => checkTx
  | .writeDataByte _ _ _ => fun s => commit (rawAddr s) (checkRx s)
  | .readDataBlock _ _ _ => checkDma
  | .writeDataBlock _ _ _ => checkDma
  | .send _ _ _ _ => id
  | .recv _ _ _ _ _ _ => id
  | .sendw _ _ _ _ _ _ => id
  | .recvw _ _ _ _ _ _ => id
  | .busConfig _ _ _ => id
  | .nonstdConfig _ _ _ _ => id
  | .slaveConfig _ _ _ _ _ _ _ => id

/-- The command is one of the four non-block commands. -/
def nonBlockOf : Instr → Bool
  | .readConfig _ _ _ => true
  | .writeConfig _ _ _ => true
  | .readDataByte _ _ _ => true
  | .writeDataByte _ _ _ => true
  | .readDataBlock _ _ _ => false
  | .writeDataBlock _ _ _ => false
  | .send _ _ _ _ => false
  | .recv _ _ _ _ _ _ => false
  | .sendw _ _ _ _ _ _ => false
  | .recvw _ _ _ _ _ _ => false
  | .busConfig _ _ _ => false
  | .nonstdConfig _ _ _ _ => false
  | .slaveConfig _ _ _ _ _ _ _ => false

/-- Outside Transfer a wire command runs its Command phase. -/
theorem exec_command {i : Instr} {addr : BitVec 32} {len : BitVec 16} {sum : Byte} (hi : i ∈ wireCommands addr len sum)
    {s : State} (h : s.slv.status ≠ .transfer) :
    exec i s = .next (commandPhase (opcodeOf s.par.opc i) (nonBlockOf i) (setupOf i) addr len sum s) := by
  simp only [wireCommands, List.mem_cons, List.not_mem_nil, or_false] at hi
  rcases hi with rfl | rfl | rfl | rfl | rfl | rfl <;>
  · simp only [exec, execReadConfig, execWriteConfig, execReadDataByte, execWriteDataByte, execReadDataBlock,
      execWriteDataBlock]
    rfl

/-- In Transfer a wire command runs its completion half, step T1. -/
theorem exec_transfer {i : Instr} {addr : BitVec 32} {len : BitVec 16} {sum : Byte} (hi : i ∈ wireCommands addr len sum)
    {s : State} (h : s.slv.status = .transfer) : exec i s = .next (endT1 (completionOf i s)) := by
  simp only [wireCommands, List.mem_cons, List.not_mem_nil, or_false] at hi
  rcases hi with rfl | rfl | rfl | rfl | rfl | rfl <;>
  · simp only [exec, execReadConfig, execWriteConfig, execReadDataByte, execWriteDataByte, execReadDataBlock,
      execWriteDataBlock, h]
    rfl

/-! ### Headers and commands -/

/-- Any eight bytes are a header with some fields. -/
theorem exists_headerBytes {bytes : List Byte} (h : bytes.length = 8) :
    ∃ op addr len sum, bytes = headerBytes op addr len sum := by
  match bytes, h with
  | [h0, h1, h2, h3, h4, h5, h6, h7], _ =>
    refine ⟨h0, le32 h1 h2 h3 h4, le16 h5 h6, h7, ?_⟩
    simp [headerBytes, headerBody, byteOf_le32, byteOf_le16]

/-- The opcode byte selects the command, or none. -/
theorem decodeHeader_headerBytes (o : Opc) (op : Byte) (addr : BitVec 32) (len : BitVec 16) (sum : Byte) :
    (∃ i ∈ wireCommands addr len sum, opcodeOf o i = op ∧ nonBlockOf i = isNonBlock o op ∧
      decodeHeader o (headerBytes op addr len sum) = .ok i) ∨
    (isKnown o op = false ∧ decodeHeader o (headerBytes op addr len sum) = .error (.unknownOpcode op)) := by
  simp only [headerBytes, headerBody, List.cons_append, List.nil_append, decodeHeader, le32_byteOf, le16_byteOf]
  by_cases h0 : op = o.readConfig
  · exact .inl ⟨.readConfig addr len sum, by simp [wireCommands], by simp [h0, opcodeOf],
      by simp [nonBlockOf, isNonBlock, Opc.nonBlock, h0], by simp [h0]⟩
  by_cases h1 : op = o.writeConfig
  · exact .inl ⟨.writeConfig addr len sum, by simp [wireCommands], by simp [h1, opcodeOf],
      by simp [nonBlockOf, isNonBlock, Opc.nonBlock, h1], by rw [if_neg h0, if_pos h1]⟩
  by_cases h2 : op = o.readDataByte
  · exact .inl ⟨.readDataByte addr len sum, by simp [wireCommands], by simp [h2, opcodeOf],
      by simp [nonBlockOf, isNonBlock, Opc.nonBlock, h2], by rw [if_neg h0, if_neg h1, if_pos h2]⟩
  by_cases h3 : op = o.writeDataByte
  · exact .inl ⟨.writeDataByte addr len sum, by simp [wireCommands], by simp [h3, opcodeOf],
      by simp [nonBlockOf, isNonBlock, Opc.nonBlock, h3], by rw [if_neg h0, if_neg h1, if_neg h2, if_pos h3]⟩
  have hn : isNonBlock o op = false := by simp [isNonBlock, Opc.nonBlock, h0, h1, h2, h3]
  by_cases h4 : op = o.readDataBlock
  · exact .inl ⟨.readDataBlock addr len sum, by simp [wireCommands], by simp [h4, opcodeOf], hn.symm, by
      rw [if_neg h0, if_neg h1, if_neg h2, if_neg h3, if_pos h4]⟩
  by_cases h5 : op = o.writeDataBlock
  · exact .inl ⟨.writeDataBlock addr len sum, by simp [wireCommands], by simp [h5, opcodeOf], hn.symm, by
      rw [if_neg h0, if_neg h1, if_neg h2, if_neg h3, if_neg h4, if_pos h5]⟩
  exact .inr ⟨by simp [isKnown, hn, isBlock, Opc.block, h4, h5], by simp [*]⟩

/-- A wire command decodes from its own bytes, under a legal opcode map. -/
theorem decodeHeader_of_mem {o : Opc} (ho : o.Legal) {i : Instr} {addr : BitVec 32} {len : BitVec 16} {sum : Byte}
    (hi : i ∈ wireCommands addr len sum) : decodeHeader o (headerBytes (opcodeOf o i) addr len sum) = .ok i := by
  have hd := ho.1
  simp only [Opc.nonBlock, Opc.block, List.cons_append, List.nil_append, List.nodup_cons, List.mem_cons,
    List.not_mem_nil, or_false, not_or] at hd
  simp only [wireCommands, List.mem_cons, List.not_mem_nil, or_false] at hi
  rcases hi with rfl | rfl | rfl | rfl | rfl | rfl <;>
    simp [headerBytes, headerBody, decodeHeader, le32_byteOf, le16_byteOf, opcodeOf, Ne.symm, hd, eq_comm]

/-- Under a legal opcode map the opcode byte says whether the command is a block command (30_encoding.md R96). -/
theorem isNonBlock_opcodeOf {o : Opc} (ho : o.Legal) {i : Instr} {addr : BitVec 32} {len : BitVec 16} {sum : Byte}
    (hi : i ∈ wireCommands addr len sum) :
    isNonBlock o (opcodeOf o i) = nonBlockOf i ∧ isBlock o (opcodeOf o i) = !nonBlockOf i := by
  have hd := ho.1
  simp only [Opc.nonBlock, Opc.block, List.cons_append, List.nil_append, List.nodup_cons, List.mem_cons,
    List.not_mem_nil, or_false, not_or] at hd
  simp only [wireCommands, List.mem_cons, List.not_mem_nil, or_false] at hi
  rcases hi with rfl | rfl | rfl | rfl | rfl | rfl <;>
    simp [isNonBlock, isBlock, Opc.nonBlock, Opc.block, opcodeOf, nonBlockOf, hd, eq_comm]

theorem isKnown_opcodeOf (o : Opc) {i : Instr} {addr : BitVec 32} {len : BitVec 16} {sum : Byte}
    (hi : i ∈ wireCommands addr len sum) : isKnown o (opcodeOf o i) = true := by
  simp only [wireCommands, List.mem_cons, List.not_mem_nil, or_false] at hi
  rcases hi with rfl | rfl | rfl | rfl | rfl | rfl <;>
    simp [isKnown, isNonBlock, isBlock, Opc.nonBlock, Opc.block, opcodeOf]

/-- The bytes rejected are those of the header. -/
theorem rejectHeader_eq {op : Byte} {addr : BitVec 32} {len : BitVec 16} {sum : Byte} {t : State}
    (h : t.hdr.toList = headerBytes op addr len sum) : rejectHeader t = rejectUnknown op addr len sum t := by
  have key : ∀ i (hi : i < 8), t.hdr[i] = (headerBytes op addr len sum).getD i 0 := by
    intro i hi
    rw [← h]; simp [List.getD_eq_getElem?_getD, hi]
  simp only [rejectHeader]
  rw [key 0 (by omega), key 1 (by omega), key 2 (by omega), key 3 (by omega), key 4 (by omega), key 5 (by omega),
    key 6 (by omega), key 7 (by omega)]
  simp only [headerBytes, headerBody, List.cons_append, List.nil_append, List.getD_cons_zero, List.getD_cons_succ,
    le32_byteOf, le16_byteOf]

/-- The Command phase: of the header read, a known opcode runs its command, any other is rejected. -/
theorem runHeader_eq {s : State} {op : Byte} {addr : BitVec 32} {len : BitVec 16} {sum : Byte}
    (h : fetchedBytes s = headerBytes op addr len sum) :
    (∃ i ∈ wireCommands addr len sum, opcodeOf s.par.opc i = op ∧ nonBlockOf i = isNonBlock s.par.opc op ∧
      runHeader s = exec i (fetchHeader s)) ∨
    (isKnown s.par.opc op = false ∧ runHeader s = .next (rejectUnknown op addr len sum (fetchHeader s))) := by
  have hh := fetchHeader_hdr s
  rw [h] at hh
  simp only [runHeader, decode]
  rw [hh]
  rcases decodeHeader_headerBytes s.par.opc op addr len sum with ⟨i, hi, ho, hn, hd⟩ | ⟨hk, hd⟩
  · exact .inl ⟨i, hi, ho, hn, by rw [hd]⟩
  · exact .inr ⟨hk, by rw [hd]; simp only [rejectHeader_eq hh]⟩

/-- The Transfer phase, T1: the command that the descriptor holds, or nothing when it holds none. -/
theorem runCompletion_eq (s : State) :
    (∃ i addr len sum, i ∈ wireCommands addr len sum ∧ opcodeOf s.par.opc i = s.cmd.op ∧ runCompletion s = exec i s) ∨
    (isKnown s.par.opc s.cmd.op = false ∧ runCompletion s = .next (endT1 s)) := by
  simp only [runCompletion, latchedHeader, encodeHdr, decode]
  rcases decodeHeader_headerBytes s.par.opc s.cmd.op s.cmd.addr (s.cmd.len.setWidth 16)
    (headerSum s.cmd.op s.cmd.addr (s.cmd.len.setWidth 16)) with ⟨i, hi, ho, -, hd⟩ | ⟨hk, hd⟩
  · exact .inl ⟨i, _, _, _, hi, ho, by rw [hd]⟩
  · exact .inr ⟨hk, by rw [hd]⟩

/-- Everything a step of the Command phase can do with a header of given bytes (42_slave_fsm.md R207): a bad checksum
returns to Idle; an unknown opcode, or a non-block command of more than 8 bytes, returns to Idle with the descriptor
written; any other command enters Transfer. -/
theorem step_command_cases {s : State} {rest : List Action} (h : EdgeNext s .command rest) {op : Byte}
    {addr : BitVec 32} {len : BitVec 16} {sum : Byte} (hb : headerOf s = headerBytes op addr len sum) :
    (sum ≠ headerSum op addr len ∧ step s = .next (idleRearm (fetchHeader (acked rest s)))) ∨
    (sum = headerSum op addr len ∧
      (isKnown s.par.opc op = false ∨ (isNonBlock s.par.opc op = true ∧ 8 < decodedLen len)) ∧
      step s = .next (idleRearm (latchCommand op addr len (fetchHeader (acked rest s))))) ∨
    (∃ i ∈ wireCommands addr len sum, opcodeOf s.par.opc i = op ∧ nonBlockOf i = isNonBlock s.par.opc op ∧
      sum = headerSum op addr len ∧ (nonBlockOf i = true → decodedLen len ≤ 8) ∧
      step s = .next (enterTransfer (setupOf i) (latchCommand op addr len (fetchHeader (acked rest s))))) := by
  rw [step_command h]
  have hs : (fetchHeader (acked rest s)).slv.status ≠ .transfer := by
    rw [fetchHeader_eq]; simp [h.2.2.2.2.2]
  have hp : (fetchHeader (acked rest s)).par = s.par := by rw [fetchHeader_eq]; simp
  rw [← fetchedBytes_acked s rest] at hb
  rcases runHeader_eq hb with ⟨i, hi, ho, hn, he⟩ | ⟨hk, he⟩
  · rw [acked_par] at ho hn
    rw [he, exec_command hi hs, hp, ho]
    rcases commandPhase_cases op (nonBlockOf i) (setupOf i) addr len sum (fetchHeader (acked rest s)) with
      ⟨hc, h1⟩ | ⟨hc, h1, h2, h3⟩ | ⟨hc, h1, h2⟩
    · exact .inl ⟨h1, by rw [hc]⟩
    · exact .inr (.inl ⟨h1, .inr ⟨hn ▸ h2, h3⟩, by rw [hc]⟩)
    · exact .inr (.inr ⟨i, hi, ho, hn, h1, h2, by rw [hc]⟩)
  · rw [he]
    unfold rejectUnknown
    split
    · exact .inl ⟨by assumption, rfl⟩
    · rename_i h1
      exact .inr (.inl ⟨not_not.1 h1, .inl hk, rfl⟩)

/-- Everything a setup can change: bus 2, which it programs and whose transmit FIFO it may fill; channel DMA_CH, which a
block command arms; and the history. -/
theorem setupOf_eq {i : Instr} {addr : BitVec 32} {len : BitVec 16} {sum : Byte} (hi : i ∈ wireCommands addr len sum)
    {s : State} (hn : nonBlockOf i = true → unitCount s ≤ 32) :
    ∃ dir out bits tx d evs, setupOf i s = { (s.setBus 2 { programmed dir out bits (s.bus 2) with tx := tx }).setChan
        s.slv.dmaCh d with hist := evs ++ s.hist } ∧
      dir ≠ .reserved ∧ tx.length ≤ 32 ∧
      (d = s.chan s.slv.dmaCh ∨ (d.armed = true ∧ d.done = false ∧ d.rem = s.cmd.len.toNat * 4 ∧
        d.src.Within s.par.aw ∧ d.dst.Within s.par.aw)) := by
  simp only [wireCommands, List.mem_cons, List.not_mem_nil, or_false] at hi
  rcases hi with rfl | rfl | rfl | rfl | rfl | rfl
  · obtain ⟨reads, -, he⟩ := preload_eq (cfgAddr s) s (hn rfl)
    refine ⟨.transmitOnly, true, (s.bus 2).dbl, unitsOf s.par.aw s.mem (cfgAddr s) (frameWidth 2 s) 0 (unitCount s),
      s.chan s.slv.dmaCh, reads, he.trans ?_, by simp, by simpa using hn rfl, .inl rfl⟩
    rw [setChan_setBus_self]
  · refine ⟨.receiveOnly, false, (s.bus 2).dbl, [], s.chan s.slv.dmaCh, [], ?_, by simp, by simp, .inl rfl⟩
    apply State.eq_of_fields <;> simp [setupOf, receive, programmed]
  · obtain ⟨reads, -, he⟩ := preload_eq (rawAddr s) s (hn rfl)
    refine ⟨.transmitOnly, true, (s.bus 2).dbl, unitsOf s.par.aw s.mem (rawAddr s) (frameWidth 2 s) 0 (unitCount s),
      s.chan s.slv.dmaCh, reads, he.trans ?_, by simp, by simpa using hn rfl, .inl rfl⟩
    rw [setChan_setBus_self]
  · refine ⟨.receiveOnly, false, (s.bus 2).dbl, [], s.chan s.slv.dmaCh, [], ?_, by simp, by simp, .inl rfl⟩
    apply State.eq_of_fields <;> simp [setupOf, receive, programmed]
  · exact ⟨.transmitOnly, true, 32, [],
      ⟨reqLine s.par 2 .tx, true, .mem (rawAddr s), .dr 2, .increment, .fixed, 4, 32, s.cmd.len.toNat * 4, false⟩,
      [.dmaArmed s.slv.dmaCh (.mem (rawAddr s)) (.dr 2) .increment .fixed 4 32 (s.cmd.len.toNat * 4),
        .collab (.dmaSelect s.slv.dmaCh (reqLine s.par 2 .tx))], (armRead_eq s).trans rfl, by simp, by simp,
      .inr ⟨rfl, rfl, rfl, wrap_lt _ _, trivial⟩⟩
  · exact ⟨.receiveOnly, false, 32, [],
      ⟨reqLine s.par 2 .rx, true, .dr 2, .mem (blockAddr s), .fixed, .increment, 4, 32, s.cmd.len.toNat * 4, false⟩,
      [.dmaArmed s.slv.dmaCh (.dr 2) (.mem (blockAddr s)) .fixed .increment 4 32 (s.cmd.len.toNat * 4),
        .collab (.dmaSelect s.slv.dmaCh (reqLine s.par 2 .rx))], (armWrite_eq s).trans rfl, by simp, by simp,
      .inr ⟨rfl, rfl, rfl, trivial, wrap_lt _ _⟩⟩

/-- Everything an accepted Command phase changes: the descriptor, the status, the pin, bus 2, and channel DMA_CH when it
is a block command. -/
theorem enterTransfer_setupOf_eq {i : Instr} {addr : BitVec 32} {len : BitVec 16} {sum : Byte}
    (hi : i ∈ wireCommands addr len sum) (hl : nonBlockOf i = true → decodedLen len ≤ 8) (op : Byte) (s : State) :
    ∃ dir out bits tx d evs, enterTransfer (setupOf i) (latchCommand op addr len s) =
      { (s.setBus 2 { programmed dir out bits (s.bus 2) with tx := tx }).setChan s.slv.dmaCh d with
        cmd := ⟨op, addr, BitVec.ofNat 17 (decodedLen len), 0⟩
        slv := { s.slv with status := .transfer }
        rdy := false
        rdyDriven := true
        hist := pinEvents false s ++ evs ++ s.hist } ∧
      dir ≠ .reserved ∧ tx.length ≤ 32 ∧
      (d = s.chan s.slv.dmaCh ∨ (d.armed = true ∧ d.done = false ∧ d.rem = decodedLen len * 4 ∧
        d.src.Within s.par.aw ∧ d.dst.Within s.par.aw)) := by
  have hn : nonBlockOf i = true →
      unitCount (setStatus .transfer (latchCommand op addr len s)) ≤ 32 := by
    intro hb
    have : unitCount (setStatus .transfer (latchCommand op addr len s)) = decodedLen len / frameWidth 2 s :=
      unitCount_latchCommand op addr len s
    rw [this]
    exact (Nat.div_le_self _ _).trans ((hl hb).trans (by omega))
  obtain ⟨dir, out, bits, tx, d, evs, he, h1, h2, h3⟩ := setupOf_eq hi hn
  refine ⟨dir, out, bits, tx, d, evs, ?_, h1, h2, ?_⟩
  · rw [enterTransfer, pinSet_eq, he]
    apply State.eq_of_fields <;> simp [bus_setBus, chan_setChan, latchCommand, pinEvents, Config.errOk, setStatus]
  · rcases h3 with h3 | ⟨h3, h4, h5, h6⟩
    · exact .inl h3
    · exact .inr ⟨h3, h4, by rw [h5, ← latchCommand_len op addr len s]; rfl, h6⟩

/-- A completion check writes the error code, nothing else. -/
theorem failWith_eq (failed : Bool) (code : Byte) (s : State) :
    failWith failed code s = { s with cmd := { s.cmd with err := if failed then code else s.cmd.err } } := by
  unfold failWith; split <;> simp_all [State.setCmd]

/-- Everything a completion half can change: the error code, entries popped from bus 2, memory, and the history. -/
theorem completionOf_eq {i : Instr} {addr : BitVec 32} {len : BitVec 16} {sum : Byte}
    (hi : i ∈ wireCommands addr len sum) (s : State) :
    ∃ err m draws mem writes, completionOf i s = { s.setBus 2 { s.bus 2 with rx := (s.bus 2).rx.drop m } with
        cmd := { s.cmd with err := err }, mem := mem, draws := draws, hist := writes ++ s.hist } ∧
      OnlyWrites writes ∧ (Memory.wf s.par.aw s.mem → Memory.wf s.par.aw mem) := by
  have hcheck : ∀ failed code, ∃ err m draws mem writes, failWith failed code s =
      { s.setBus 2 { s.bus 2 with rx := (s.bus 2).rx.drop m } with
        cmd := { s.cmd with err := err }, mem := mem, draws := draws, hist := writes ++ s.hist } ∧
      OnlyWrites writes ∧ (Memory.wf s.par.aw s.mem → Memory.wf s.par.aw mem) := fun failed code =>
    ⟨_, 0, s.draws, s.mem, [], by rw [failWith_eq]; apply State.eq_of_fields <;> simp; rfl, onlyWrites_nil, id⟩
  have hcommit : ∀ dst, ∃ err m draws mem writes, commit dst (checkRx s) =
      { s.setBus 2 { s.bus 2 with rx := (s.bus 2).rx.drop m } with
        cmd := { s.cmd with err := err }, mem := mem, draws := draws, hist := writes ++ s.hist } ∧
      OnlyWrites writes ∧ (Memory.wf s.par.aw s.mem → Memory.wf s.par.aw mem) := by
    intro dst
    obtain ⟨writes, hw, he⟩ := commit_eq dst (checkRx s)
    refine ⟨(checkRx s).cmd.err, unitCount (checkRx s), (commit dst (checkRx s)).draws, (commit dst (checkRx s)).mem,
      writes, ?_, hw, fun h => ?_⟩
    · rw [he, checkRx, failWith_eq]
      apply State.eq_of_fields <;> simp [bus_setBus]
    · rw [he, checkRx, failWith_eq]
      exact withUnits_wf h _ _ _ _
  simp only [wireCommands, List.mem_cons, List.not_mem_nil, or_false] at hi
  rcases hi with rfl | rfl | rfl | rfl | rfl | rfl
  exacts [hcheck _ _, hcommit _, hcheck _ _, hcommit _, hcheck _ _, hcheck _ _]

/-- Everything step T1 can do (42_slave_fsm.md R208), whatever command the descriptor holds. -/
theorem step_transfer_eq {s : State} {rest : List Action} (h : EdgeNext s .transfer rest) :
    ∃ err m draws mem writes, step s = .next { (leaveOrphans s).setBus 2 { s.bus 2 with rx := (s.bus 2).rx.drop m } with
        cmd := { s.cmd with err := err }
        mem := mem
        draws := draws
        hist := writes ++ s.hist
        slv := { s.slv with edgePend := false, handler := .callbackDue }
        sched := rest } ∧
      OnlyWrites writes ∧ (Memory.wf s.par.aw s.mem → Memory.wf s.par.aw mem) := by
  rw [step_transfer h]
  rcases runCompletion_eq (acked rest s) with ⟨i, addr, len, sum, hi, -, he⟩ | ⟨-, he⟩
  · obtain ⟨err, m, draws, mem, writes, hc, hw, hm⟩ := completionOf_eq hi (acked rest s)
    refine ⟨err, m, draws, mem, writes, ?_, hw, hm⟩
    rw [he, exec_transfer (s := acked rest s) hi h.2.2.2.2.2, hc, endT1_eq]
    rfl
  · refine ⟨s.cmd.err, 0, s.draws, s.mem, [], ?_, onlyWrites_nil, id⟩
    rw [he, endT1_eq]
    congr 1
    rw [show (s.bus 2).rx.drop 0 = (s.bus 2).rx from rfl, ← leaveOrphans_bus s 2, setBus_self]
    rfl

/-! ### Runs -/

theorem run_zero (s : State) : core.run 0 s = .next s := rfl

theorem run_succ {k : Nat} {s t : State} (h : step s = .next t) : core.run (k + 1) s = core.run k t := by
  have : core.step s = .next t := h
  simp only [Host.Core.run, this]

/-- A run cut in two. -/
theorem run_add {k l : Nat} {s t : State} (h : core.run k s = .next t) : core.run (k + l) s = core.run l t := by
  induction k generalizing s with
  | zero => cases h; simp
  | succ k ih =>
    rw [show k + 1 + l = (k + l) + 1 by omega]
    cases hs : step s with
    | next u =>
      rw [run_succ hs] at h
      rw [run_succ hs]
      exact ih h
    | fault f =>
      have hs' : core.step s = .fault f := hs
      simp only [Host.Core.run, hs'] at h; cases h
    | refused f =>
      have hs' : core.step s = .refused f := hs
      simp only [Host.Core.run, hs'] at h; cases h

end Sys2Proof.Machine
end

