-- ==== Sys2Proof/Laws/Master.lean ====
section
/-! SUPPORT. Laws/Master.lean: everything the checks of a request, and the steps of the agent MASTER, can do. -/

namespace Sys2Proof.Machine

/-! ### The checks -/

theorem closed_eq_false {s : State} (h : Open s) : closed s = false := by
  obtain ⟨h1, h2, h3⟩ := h
  simp [closed, h1, h2, h3]

theorem closed_eq_true {s : State} (h : ¬ Open s) : closed s = true := by
  by_contra hc
  apply h
  simpa [closed, Open, and_assoc] using hc

theorem validate_closed {bus cs : Nat} {s : State} (h : closed s = true) : validate bus cs s = .turnAway := by
  simp [validate, h]

theorem validate_accept {bus cs : Nat} {s : State} (h : Open s) (hb : MasterBus s bus) (hc : cs < s.par.numCs) :
    validate bus cs s = .accept := by
  obtain ⟨h1, h2⟩ := hb
  unfold validate
  rw [closed_eq_false h]
  rw [if_neg (by simp), if_neg (by omega), if_neg h2, if_neg (by omega)]

/-- Everything Validate can answer (41_master.md R141). -/
theorem validate_cases (bus cs : Nat) (s : State) :
    validate bus cs s = .turnAway ∨ (∃ c, validate bus cs s = .abort c ∧ Open s) ∨
      (validate bus cs s = .accept ∧ Open s ∧ MasterBus s bus ∧ cs < s.par.numCs) := by
  by_cases h : Open s
  · unfold validate
    rw [closed_eq_false h, if_neg (by simp)]
    split
    · exact .inr (.inl ⟨_, rfl, h⟩)
    · split
      · exact .inr (.inl ⟨_, rfl, h⟩)
      · split
        · exact .inl rfl
        · rename_i h1 h2 h3
          exact .inr (.inr ⟨rfl, h, ⟨Nat.lt_of_not_le h1, h2⟩, Nat.lt_of_not_le h3⟩)
  · exact .inl (validate_closed (closed_eq_true h))

theorem dblLegal_iff (dbl : Nat) : dblLegal dbl = true ↔ 4 ≤ dbl ∧ dbl ≤ 32 := by
  unfold dblLegal
  rw [Bool.and_eq_true, decide_eq_true_eq, decide_eq_true_eq]
  rfl

/-- A legal data-bit-length fits DBL. -/
theorem dblLegal_toNat {dbl : Nat} (h : dblLegal dbl = true) :
    Config.dblMin ≤ (BitVec.ofNat 6 dbl).toNat ∧ (BitVec.ofNat 6 dbl).toNat ≤ Config.dblMax := by
  obtain ⟨h1, h2⟩ := (dblLegal_iff dbl).1 h
  rw [BitVec.toNat_ofNat, Nat.mod_eq_of_lt (by omega)]
  exact ⟨h1, h2⟩

/-- Everything the checks of SLAVE_CONFIG can answer (42_slave_fsm.md R190). -/
theorem validateSlave_cases (ch dbl : Nat) (s : State) :
    (validateSlave ch dbl s = .turnAway ∧ ¬ Open s) ∨
      (validateSlave ch dbl s = .abort .busOutOfRange ∧ Open s ∧ s.numBus ≤ 2) ∨
      (validateSlave ch dbl s = .abort .badConfig ∧ Open s ∧ 2 < s.numBus ∧ (dblLegal dbl = false ∨ s.numDmaCh ≤ ch)) ∨
      (validateSlave ch dbl s = .accept ∧ Open s ∧ 2 < s.numBus ∧ dblLegal dbl = true ∧ ch < s.numDmaCh) := by
  by_cases h : Open s
  · unfold validateSlave
    rw [closed_eq_false h, if_neg (by simp)]
    split
    · rename_i hn
      exact .inr (.inl ⟨rfl, h, hn⟩)
    · rename_i hn
      have hn : 2 < s.numBus := Nat.lt_of_not_le hn
      split
      · rename_i hd
        exact .inr (.inr (.inl ⟨rfl, h, hn, .inl (by simpa using hd)⟩))
      · rename_i hd
        split
        · rename_i hc
          exact .inr (.inr (.inl ⟨rfl, h, hn, .inr hc⟩))
        · rename_i hc
          exact .inr (.inr (.inr ⟨rfl, h, hn, by simpa using hd, Nat.lt_of_not_le hc⟩))
  · exact .inl ⟨by simp [validateSlave, closed_eq_true h], h⟩

theorem csMask_eq (cs : Nat) : csMask cs = 2 ^ cs := by simp [csMask, Nat.shiftLeft_eq]

/-! ### The steps of MASTER -/

/-- What MASTER does in a phase. -/
def phaseStep (p : MstPhase) (s : State) : State :=
  match p with
  | .idle => s
  | .cmd => masterCmd s
  | .fill => masterFill s
  | .wait => masterWait s
  | .drain => masterDrain s
  | .fin => masterEnd s

theorem masterStep_eq (s : State) : masterStep s = if s.fatal then s else phaseStep s.mst.phase s := rfl

/-- A turn of MASTER in a phase (41_master.md R143). -/
theorem step_master {s : State} {p : MstPhase} {rest : List Action} (h : MasterNext s p rest) :
    step s = .next (phaseStep p (s.setSched rest)) := by
  obtain ⟨h1, h2, rfl⟩ := h
  rw [step_of_sched h1]
  simp only [turn, masterStep_eq, setSched_fatal, h2, setSched_mst]
  rfl

/-- Pushing units where there is room for all. -/
theorem pushUnits_room (bus : Nat) (buf : Addr) (w k n : Nat) (s : State) (h : (s.bus bus).tx.length + n ≤ 32) :
    ∃ reads, OnlyReads reads ∧ pushUnits bus buf w k n s = { s.setBus bus { s.bus bus with
        tx := (s.bus bus).tx ++ unitsOf s.par.aw s.mem buf w k n } with hist := reads ++ s.hist } := by
  obtain ⟨evs, he, -, hr, -⟩ := pushUnits_eq bus buf w k n s
  refine ⟨evs, hr h, ?_⟩
  rw [he, List.take_of_length_le (by simp; omega)]

/-- TxPush: the entry stands at the tail, or it is lost and a fault recorded. -/
theorem txPush_eq (i : Nat) (v : Entry) (s : State) :
    txPush i v s = { s.setBus i { s.bus i with tx := (s.bus i).tx ++ [v].take (32 - (s.bus i).tx.length) } with
      hist := (if (s.bus i).tx.length < 32 then [] else [.fault (.txOverflow i)]) ++ s.hist } := by
  by_cases h : (s.bus i).tx.length < 32
  · rw [txPush, if_pos (show txLevel i s < Config.fifoDepth from h), List.take_of_length_le (by simp; omega), if_pos h]
    apply State.eq_of_fields <;> simp
  · rw [txPush, if_neg (show ¬ txLevel i s < Config.fifoDepth from h), show 32 - (s.bus i).tx.length = 0 by omega,
      if_neg h]
    apply State.eq_of_fields <;> simp

/-- The entries that the prefix step pushes: the filler, or the units of the prefix (41_master.md R156, R157, R165, R171). -/
def prefixEntries (s : State) : List Entry :=
  let units := fun w n => unitsOf s.par.aw s.mem s.mst.cmdPtr w 0 n
  match s.mst.op with
  | .send => []
  | .sendw => units 4 s.mst.cmdCnt
  | .recv => if s.mst.cmdCnt = 0 then [filler] else units s.mst.w (s.mst.cmdCnt / s.mst.w)
  | .recvw => if s.mst.cmdCnt = 0 then [filler] else units 4 s.mst.cmdCnt

/-- The phase after the prefix step, and whether it asserts the chip-select. -/
def prefixNext (s : State) : MstPhase × Nat :=
  match s.mst.op with
  | .send => (.fill, (s.bus s.mst.bus).cs)
  | .sendw => (.fill, (s.bus s.mst.bus).cs)
  | .recv => (.drain, csMask s.mst.csel)
  | .recvw => (.drain, csMask s.mst.csel)

/-- Everything the prefix step can do (41_master.md R156, R165, R171): the entries at the tail of the transmit FIFO, as far
as there is room, the chip-select, the phase, and the history: only reads when all fit, an overflow when one does not. -/
theorem masterCmd_eq (s : State) :
    ∃ evs, masterCmd s = { s.setBus s.mst.bus { s.bus s.mst.bus with
          tx := (s.bus s.mst.bus).tx ++ (prefixEntries s).take (32 - (s.bus s.mst.bus).tx.length)
          cs := (prefixNext s).2 } with
        mst := { s.mst with phase := (prefixNext s).1 }, hist := evs ++ s.hist } ∧
      OnlyReadsOrOverflows s.mst.bus evs ∧
      ((s.bus s.mst.bus).tx.length + (prefixEntries s).length ≤ 32 → OnlyReads evs) ∧
      (s.mst.bus < s.numBus → (s.bus s.mst.bus).tx.length ≤ 32 →
        32 < (s.bus s.mst.bus).tx.length + (prefixEntries s).length → Event.fault (.txOverflow s.mst.bus) ∈ evs) := by
  have hrecv : ∀ w n, ∃ evs, recvPrefix w n s = { s.setBus s.mst.bus { s.bus s.mst.bus with
          tx := (s.bus s.mst.bus).tx ++ (if s.mst.cmdCnt = 0 then [filler] else
            unitsOf s.par.aw s.mem s.mst.cmdPtr w 0 n).take (32 - (s.bus s.mst.bus).tx.length)
          cs := csMask s.mst.csel } with
        mst := { s.mst with phase := .drain }, hist := evs ++ s.hist } ∧
      OnlyReadsOrOverflows s.mst.bus evs ∧
      ((s.bus s.mst.bus).tx.length + (if s.mst.cmdCnt = 0 then [filler] else
        unitsOf s.par.aw s.mem s.mst.cmdPtr w 0 n).length ≤ 32 → OnlyReads evs) ∧
      (s.mst.bus < s.numBus → (s.bus s.mst.bus).tx.length ≤ 32 →
        32 < (s.bus s.mst.bus).tx.length + (if s.mst.cmdCnt = 0 then [filler] else
          unitsOf s.par.aw s.mem s.mst.cmdPtr w 0 n).length → Event.fault (.txOverflow s.mst.bus) ∈ evs) := by
    intro w n
    have hput : ∀ tx evs, setPhase .drain (assertCs { s.setBus s.mst.bus { s.bus s.mst.bus with tx := tx } with
        hist := evs }) = { s.setBus s.mst.bus { s.bus s.mst.bus with tx := tx, cs := csMask s.mst.csel } with
        mst := { s.mst with phase := .drain }, hist := evs } := by
      intro tx evs
      by_cases hb : s.mst.bus < s.numBus
      · apply State.eq_of_fields <;> simp [setPhase, assertCs, bus_setBus, hb]
        intro j; split <;> simp_all
      · apply State.eq_of_fields <;> simp [setPhase, assertCs, bus_setBus, hb]
    unfold recvPrefix
    by_cases h0 : s.mst.cmdCnt = 0
    · simp only [h0, if_true, txPush_eq, hput]
      refine ⟨if (s.bus s.mst.bus).tx.length < 32 then [] else [.fault (.txOverflow s.mst.bus)], rfl, ?_, ?_, ?_⟩
      · intro e he
        split at he
        · cases he
        · exact .inr (List.mem_singleton.1 he)
      · intro h
        rw [if_pos (by simp at h; omega)]
        exact onlyReads_nil
      · intro _ _ h
        rw [if_neg (by simp at h; omega)]
        exact List.mem_singleton_self _
    · simp only [h0, if_false]
      obtain ⟨evs, he, h1, h2, h3⟩ := pushUnits_eq s.mst.bus s.mst.cmdPtr w 0 n s
      rw [he, hput]
      refine ⟨evs, rfl, h1, fun h => h2 (by simpa using h), fun hb ht h => h3 hb (by simpa using h) ?_⟩
      simp at h; omega
  unfold masterCmd
  split <;> rename_i hop
  · rw [show prefixEntries s = [] by simp [prefixEntries, hop],
      show prefixNext s = (.fill, (s.bus s.mst.bus).cs) by simp [prefixNext, hop]]
    refine ⟨[], ?_, by simp [OnlyReadsOrOverflows], fun _ => onlyReads_nil, fun _ ht h => ?_⟩
    · apply State.eq_of_fields <;> simp [setPhase]
    · simp at h; omega
  · rw [show prefixEntries s = unitsOf s.par.aw s.mem s.mst.cmdPtr 4 0 s.mst.cmdCnt by simp [prefixEntries, hop],
      show prefixNext s = (.fill, (s.bus s.mst.bus).cs) by simp [prefixNext, hop]]
    obtain ⟨evs, he, h1, h2, h3⟩ := pushUnits_eq s.mst.bus s.mst.cmdPtr 4 0 s.mst.cmdCnt s
    refine ⟨evs, ?_, h1, fun h => h2 (by simpa using h), fun hb ht h => h3 hb (by simpa using h) ?_⟩
    · rw [he]; apply State.eq_of_fields <;> simp [setPhase]
    · simp at h; omega
  · rw [show prefixEntries s = if s.mst.cmdCnt = 0 then [filler] else
        unitsOf s.par.aw s.mem s.mst.cmdPtr s.mst.w 0 (s.mst.cmdCnt / s.mst.w) by simp [prefixEntries, hop],
      show prefixNext s = (.drain, csMask s.mst.csel) by simp [prefixNext, hop]]
    exact hrecv _ _
  · rw [show prefixEntries s = if s.mst.cmdCnt = 0 then [filler] else
        unitsOf s.par.aw s.mem s.mst.cmdPtr 4 0 s.mst.cmdCnt by simp [prefixEntries, hop],
      show prefixNext s = (.drain, csMask s.mst.csel) by simp [prefixNext, hop]]
    exact hrecv _ _

/-- One fill iteration (41_master.md R146): whole units, never more than the room. -/
theorem masterFill_eq (s : State) (ht : (s.bus s.mst.bus).tx.length ≤ 32) :
    ∃ reads, OnlyReads reads ∧ masterFill s = { s.setBus s.mst.bus { s.bus s.mst.bus with
        tx := (s.bus s.mst.bus).tx ++ unitsOf s.par.aw s.mem s.mst.buf s.mst.w s.mst.idx (fillBytes s / s.mst.w) } with
        mst := { s.mst with
          phase := if s.mst.rem = fillBytes s then .wait else s.mst.phase
          idx := s.mst.idx + fillBytes s / s.mst.w
          rem := s.mst.rem - fillBytes s }
        hist := reads ++ s.hist } ∧
      fillBytes s ≤ s.mst.rem ∧ (s.bus s.mst.bus).tx.length + fillBytes s / s.mst.w ≤ 32 := by
  have h1 : fillBytes s ≤ min (32 - (s.bus s.mst.bus).tx.length) s.mst.rem := Nat.div_mul_le_self _ _
  have h2 : fillBytes s / s.mst.w ≤ fillBytes s := Nat.div_le_self _ _
  have h3 : (s.bus s.mst.bus).tx.length + fillBytes s / s.mst.w ≤ 32 := by omega
  obtain ⟨reads, hr, he⟩ := pushUnits_room s.mst.bus s.mst.buf s.mst.w s.mst.idx (fillBytes s / s.mst.w) s h3
  refine ⟨reads, hr, ?_, by omega, h3⟩
  simp only [masterFill, he, advance, leaveLoop, setPhase]
  by_cases hz : s.mst.rem = fillBytes s
  · rw [if_pos (by simp [hz])]
    apply State.eq_of_fields <;> simp [hz, bus_setBus]
  · rw [if_neg (by simp; omega)]
    apply State.eq_of_fields <;> simp [hz, bus_setBus]

/-- One drain iteration (41_master.md R158): never more than is present, so no draw. -/
theorem masterDrain_eq (s : State) :
    ∃ writes, OnlyWrites writes ∧ masterDrain s = { s.setBus s.mst.bus { s.bus s.mst.bus with
        rx := (s.bus s.mst.bus).rx.drop (drainCount s) } with
        mem := withUnits s.par.aw s.mem s.mst.buf s.mst.w s.mst.idx ((s.bus s.mst.bus).rx.take (drainCount s))
        mst := { s.mst with
          phase := if s.mst.rem = drainCount s then .fin else s.mst.phase
          idx := s.mst.idx + drainCount s
          rem := s.mst.rem - drainCount s }
        hist := writes ++ s.hist } := by
  have h1 : drainCount s ≤ (s.bus s.mst.bus).rx.length := Nat.min_le_left _ _
  have h2 : drainCount s ≤ s.mst.rem := Nat.min_le_right _ _
  obtain ⟨writes, hw, he⟩ := popUnits_eq s.mst.bus s.mst.buf s.mst.w s.mst.idx (drainCount s) s
  refine ⟨writes, hw, ?_⟩
  simp only [masterDrain, he, advance, leaveLoop, setPhase]
  have h0 : drainCount s - (s.bus s.mst.bus).rx.length = 0 := by omega
  by_cases hz : s.mst.rem = drainCount s
  · rw [if_pos (by simp [hz])]
    apply State.eq_of_fields <;> simp [hz, bus_setBus, h0, poppedEntries]
  · rw [if_neg (by simp; omega)]
    apply State.eq_of_fields <;> simp [hz, bus_setBus, h0, poppedEntries]

/-- The closing step (41_master.md R151, R159). -/
theorem masterEnd_eq (s : State) :
    masterEnd s = { s.setBus s.mst.bus { s.bus s.mst.bus with cs := 0, en := false, tx := [], rx := [] } with
      mst := { s.mst with phase := .idle } } := by
  by_cases hb : s.mst.bus < s.numBus
  · apply State.eq_of_fields <;> simp [masterEnd, setPhase, setEnable, bus_setBus, hb]
  · apply State.eq_of_fields <;> simp [masterEnd, setPhase, setEnable, bus_setBus, hb]

/-- Everything a step of MASTER can change, in any state: the bus of the operation, the engine's own registers, memory,
the count of draws, and the history, which grows. -/
theorem phaseStep_frame (p : MstPhase) (s : State) :
    ∃ b m mem draws evs, phaseStep p s = { s.setBus s.mst.bus b with
      mst := m, mem := mem, draws := draws, hist := evs ++ s.hist } := by
  cases p
  · exact ⟨s.bus s.mst.bus, s.mst, s.mem, s.draws, [], by rw [setBus_self]; rfl⟩
  · obtain ⟨evs, he, -⟩ := masterCmd_eq s
    refine ⟨{ s.bus s.mst.bus with
        tx := (s.bus s.mst.bus).tx ++ (prefixEntries s).take (32 - (s.bus s.mst.bus).tx.length)
        cs := (prefixNext s).2 }, { s.mst with phase := (prefixNext s).1 }, s.mem, s.draws, evs, ?_⟩
    rw [phaseStep, he]
    apply State.eq_of_fields <;> simp
  · obtain ⟨evs, he, -⟩ := pushUnits_eq s.mst.bus s.mst.buf s.mst.w s.mst.idx (fillBytes s / s.mst.w) s
    refine ⟨{ s.bus s.mst.bus with tx := (s.bus s.mst.bus).tx ++ (unitsOf s.par.aw s.mem s.mst.buf s.mst.w s.mst.idx
        (fillBytes s / s.mst.w)).take (32 - (s.bus s.mst.bus).tx.length) }, (masterFill s).mst, s.mem, s.draws, evs, ?_⟩
    · simp only [phaseStep, masterFill, he, leaveLoop]
      split <;> apply State.eq_of_fields <;> simp [setPhase, advance]
  · refine ⟨s.bus s.mst.bus, (masterWait s).mst, s.mem, s.draws, [], ?_⟩
    rw [setBus_self, phaseStep, masterWait]
    split <;> rfl
  · obtain ⟨writes, -, he⟩ := masterDrain_eq s
    exact ⟨_, _, _, (masterDrain s).draws, writes, by rw [phaseStep, he]⟩
  · refine ⟨{ s.bus s.mst.bus with cs := 0, en := false, tx := [], rx := [] }, { s.mst with phase := .idle }, s.mem,
      s.draws, [], ?_⟩
    · rw [phaseStep, masterEnd_eq]
      apply State.eq_of_fields <;> simp

/-! ### The requests -/

/-- The instance that SLAVE_CONFIG creates: bus 2's data-bit-length, the Slave Instance State, the collaborator calls. -/
theorem newInstance_eq (ip rp ch dbl : Nat) (ptr : Addr) (len : BitVec 32) (cb : Option Nat) (s : State) :
    newInstance ip rp ch dbl ptr len cb s = { s.setBus 2 { s.bus 2 with
        dbl := BitVec.ofNat 6 dbl, dblWritten := true } with
      slv := ⟨true, s.slv.status, s.slv.handler, wrap s.par.aw ptr, len, cb, ch, rp, ip, s.par.wmOff, s.par.oeOff,
        s.par.fsOff, false⟩
      rdyDriven := false
      hist := [.collab .intcEnable, .collab .intcRegister, .collab .intcSetPriority, .collab (.registerEdgeCallback ip),
        .collab (.setEdgeTriggerRising ip), .collab (.setDriveMode ip false), .collab (.setDriveMode rp true),
        .collab (.clockEnable 2)] ++ s.hist } := by
  apply State.eq_of_fields <;> simp [newInstance, slaveCalls, call]

/-- Everything a request can do: nothing, an abort, a write of one master bus and the engine's registers, a new slave
instance, or the one fault. -/
theorem exec_request_cases {i : Instr} (hi : i.format = .hreq) (s : State) :
    exec i s = .next s ∨ (∃ c, Open s ∧ exec i s = .next (raiseAbort c s)) ∨
    (∃ bus b m evs, MasterBus s bus ∧ Open s ∧
      exec i s = .next { s.setBus bus b with mst := m, hist := evs ++ s.hist }) ∨
    (∃ ip rp ch dbl ptr len cb, Open s ∧
      exec i s = .next (idleRearm (newInstance ip rp ch dbl ptr len cb s))) ∨
    (∃ bus cs p n q m, i ∈ masterOps bus cs p n q m ∧ Open s ∧ MasterBus s bus ∧ cs < s.par.numCs ∧
      (s.bus bus).dblWritten = false ∧ exec i s = .fault (.uninitRead bus)) := by
  have hgo : ∀ bus cs p n q m t, i ∈ masterOps bus cs p n q m →
      exec i s = onVerdict (validate bus cs s) s (withWidth bus s t) →
      (∃ b m evs, t = { s.setBus bus b with mst := m, hist := evs ++ s.hist }) →
      exec i s = .next s ∨ (∃ c, Open s ∧ exec i s = .next (raiseAbort c s)) ∨
      (∃ bus b m evs, MasterBus s bus ∧ Open s ∧
        exec i s = .next { s.setBus bus b with mst := m, hist := evs ++ s.hist }) ∨
      (∃ ip rp ch dbl ptr len cb, Open s ∧
        exec i s = .next (idleRearm (newInstance ip rp ch dbl ptr len cb s))) ∨
      (∃ bus cs p n q m, i ∈ masterOps bus cs p n q m ∧ Open s ∧ MasterBus s bus ∧ cs < s.par.numCs ∧
        (s.bus bus).dblWritten = false ∧ exec i s = .fault (.uninitRead bus)) := by
    intro bus cs p n q m t hm he ⟨b, m', evs, ht⟩
    rcases validate_cases bus cs s with hv | ⟨c, hv, ho⟩ | ⟨hv, ho, hb, hc⟩ <;> rw [hv] at he
    · exact .inl he
    · exact .inr (.inl ⟨c, ho, he⟩)
    · simp only [onVerdict, withWidth] at he
      split at he
      · exact .inr (.inr (.inl ⟨bus, b, m', evs, hb, ho, by rw [he, ht]⟩))
      · rename_i hd
        exact .inr (.inr (.inr (.inr ⟨bus, cs, p, n, q, m, hm, ho, hb, hc, by simpa using hd, he⟩)))
  cases i with
  | readConfig => cases hi
  | writeConfig => cases hi
  | readDataByte => cases hi
  | writeDataByte => cases hi
  | readDataBlock => cases hi
  | writeDataBlock => cases hi
  | send bus cs buf len =>
    refine hgo bus cs 0 0 buf len _ (by simp [masterOps]) rfl
      ⟨{ s.bus bus with cs := csMask cs, dir := .transmitOnly, en := true }, { s.mst with
        phase := .fill, op := .send, bus := bus, csel := cs, buf := wrap s.par.aw buf, rem := len.toNat, idx := 0,
        w := frameWidth bus s }, [], ?_⟩
    · apply State.eq_of_fields <;> simp [openSend]
  | sendw bus cs p n q m =>
    refine hgo bus cs p n q m _ (by simp [masterOps]) rfl
      ⟨{ s.bus bus with cs := csMask cs, dir := .transmitOnly, en := true }, ⟨.cmd, .sendw, bus, cs,
        wrap s.par.aw p, n.toNat, wrap s.par.aw q, m.toNat, 0, frameWidth bus s⟩, [], ?_⟩
    · apply State.eq_of_fields <;> simp [openSend]
  | recv bus cs p n q m =>
    refine hgo bus cs p n q m _ (by simp [masterOps]) rfl ⟨{ s.bus bus with
        dir := if n = 0 then .receiveOnly else .readAfterWrite, rxcnt := BitVec.ofNat 32 (frames bus m s) - 1, en := true },
      ⟨.cmd, .recv, bus, cs, wrap s.par.aw p, n.toNat, wrap s.par.aw q, frames bus m s, 0, frameWidth bus s⟩, [], ?_⟩
    · apply State.eq_of_fields <;> simp [openRecv]
  | recvw bus cs p n q m =>
    refine hgo bus cs p n q m _ (by simp [masterOps]) rfl ⟨{ s.bus bus with
        dir := if n = 0 then .receiveOnly else .readAfterWrite, rxcnt := BitVec.ofNat 32 (frames bus m s) - 1, en := true },
      ⟨.cmd, .recvw, bus, cs, wrap s.par.aw p, n.toNat, wrap s.par.aw q, frames bus m s, 0, frameWidth bus s⟩, [], ?_⟩
    · apply State.eq_of_fields <;> simp [openRecv]
  | busConfig bus dbl wm =>
    simp only [exec, execBusConfig]
    rcases validate_cases bus 0 s with hv | ⟨c, hv, ho⟩ | ⟨hv, ho, hb, -⟩ <;> simp only [hv, onVerdict, Verdict.andThen]
    · exact .inl trivial
    · exact .inr (.inl ⟨c, ho, rfl⟩)
    · cases dblLegal dbl
      · exact .inr (.inl ⟨.badConfig, ho, rfl⟩)
      · refine .inr (.inr (.inl ⟨bus, { s.bus bus with
            dbl := BitVec.ofNat 6 dbl, dblWritten := true, frameBits := BitVec.ofNat 6 dbl, workMode := wm },
          s.mst, [.collab (.clockEnable bus)], hb, ho, ?_⟩))
        simp only [if_true, Host.Outcome.next.injEq]
        apply State.eq_of_fields <;> simp [call, bus_setBus]
  | nonstdConfig bus il al wc =>
    simp only [exec, execNonstdConfig]
    rcases validate_cases bus 0 s with hv | ⟨c, hv, ho⟩ | ⟨hv, ho, hb, -⟩ <;> simp only [hv, onVerdict, Verdict.andThen]
    · exact .inl trivial
    · exact .inr (.inl ⟨c, ho, rfl⟩)
    · cases nonStdSupported s.par il al wc
      · exact .inr (.inl ⟨.unsupportedFraming, ho, rfl⟩)
      · refine .inr (.inr (.inl ⟨bus, { s.bus bus with instrLen := il, addrLen := al, waitCycles := wc },
          s.mst, [], hb, ho, ?_⟩))
        simp only [if_true, Host.Outcome.next.injEq]
        apply State.eq_of_fields <;> simp
  | slaveConfig ip rp ch dbl ptr len cb =>
    simp only [exec, execSlaveConfig]
    rcases validateSlave_cases ch dbl s with ⟨hv, -⟩ | ⟨hv, ho, -⟩ | ⟨hv, ho, -⟩ | ⟨hv, ho, -⟩ <;>
      simp only [hv, onVerdict]
    · exact .inl trivial
    · exact .inr (.inl ⟨_, ho, rfl⟩)
    · exact .inr (.inl ⟨_, ho, rfl⟩)
    · exact .inr (.inr (.inr (.inl ⟨ip, rp, ch, dbl, ptr, len, cb, ho, rfl⟩)))

end Sys2Proof.Machine
end

