-- ==== Sys2Proof/Laws/Environment.lean ====
section
/-! SUPPORT. Laws/Environment.lean: everything a turn of an environment agent, or a write of the host, can do. -/

namespace Sys2Proof.Machine

/-- An entry out: nothing moves, or the head of the transmit FIFO of an enabled bus leaves. -/
theorem wireOut_cases (i : Nat) (s : State) :
    (wireOut i s = s ∧ ((s.bus i).en = false ∨ (s.bus i).tx = [])) ∨
    (∃ e es, (s.bus i).en = true ∧ (s.bus i).tx = e :: es ∧
      wireOut i s = { s.setBus i { s.bus i with tx := es } with hist := .wireOut i e :: s.hist }) := by
  unfold wireOut
  split
  · rename_i e es h1 h2
    refine .inr ⟨e, es, h1, h2, ?_⟩
    apply State.eq_of_fields <;> simp
  · rename_i h
    refine .inl ⟨rfl, ?_⟩
    cases he : (s.bus i).en
    · simp
    · cases ht : (s.bus i).tx with
      | nil => simp
      | cons e es => exact absurd ht (h e es he)

/-- An entry in: dropped, lost with a fault recorded, or at the tail of the receive FIFO. -/
theorem wireIn_cases (i : Nat) (e : Entry) (s : State) :
    (wireIn i e s = s ∧ (s.bus i).en = false) ∨
    (wireIn i e s = { s with hist := .fault (.rxOverflow i) :: s.hist } ∧ (s.bus i).en = true ∧
      32 ≤ (s.bus i).rx.length) ∨
    ((s.bus i).en = true ∧ (s.bus i).rx.length < 32 ∧
      wireIn i e s = { s.setBus i { s.bus i with rx := (s.bus i).rx ++ [e] } with hist := .wireIn i e :: s.hist }) := by
  unfold wireIn
  split
  · rename_i h1
    split
    · rename_i h2
      refine .inr (.inr ⟨h1, h2, ?_⟩)
      apply State.eq_of_fields <;> simp
    · rename_i h2
      exact .inr (.inl ⟨rfl, h1, Nat.le_of_not_lt h2⟩)
  · rename_i h1
    exact .inl ⟨rfl, by simpa using h1⟩

theorem linkOut_eq (i : Nat) (s : State) : linkOut i s = if i < s.numBus ∧ i ≠ 2 then wireOut i s else s := by
  unfold linkOut isLinkBus
  by_cases h1 : i < s.numBus <;> by_cases h2 : i = 2 <;> simp [h1, h2, Config.slaveBus]

theorem linkIn_eq (i : Nat) (e : Entry) (s : State) : linkIn i e s = if i < s.numBus ∧ i ≠ 2 then wireIn i e s else s := by
  unfold linkIn isLinkBus
  by_cases h1 : i < s.numBus <;> by_cases h2 : i = 2 <;> simp [h1, h2, Config.slaveBus]

/-- The step Edge of REMOTE. -/
theorem raiseEdge_eq (s : State) : raiseEdge s = { s with
    slv := { s.slv with edgePend := s.slv.active || s.slv.edgePend }, hist := .edge :: s.hist } := by
  unfold raiseEdge
  cases h : s.slv.active
  · apply State.eq_of_fields <;> simp [h]
    rw [← h]
  · apply State.eq_of_fields <;> simp [h]

/-- A channel that is not armed makes no beat. -/
theorem dmaBeat_unarmed {c : Nat} {s : State} (h : (s.chan c).armed = false) : dmaBeat c s = s := by
  simp [dmaBeat, h]

/-- A beat: nothing, an entry of the receive FIFO of bus 2 to memory, or a word of memory to its transmit FIFO. -/
theorem dmaBeat_cases (c : Nat) (s : State) :
    dmaBeat c s = s ∨
    ((s.chan c).armed = true ∧ 0 < (s.chan c).rem ∧ (s.bus 2).en = true ∧
      ((∃ a e es, (s.chan c).src = .dr 2 ∧ (s.chan c).dst = .mem a ∧ (s.bus 2).rx = e :: es ∧
        dmaBeat c s = { (s.setBus 2 { s.bus 2 with rx := es }).setChan c
            (endBeat { s.chan c with dst := .mem (beatAddr s.par.aw (s.chan c).dstMode a) }) with
          mem := storeBytes s.par.aw s.mem a 4 e, hist := .memW a 4 e :: s.hist }) ∨
      (∃ a, (s.chan c).src = .mem a ∧ (s.chan c).dst = .dr 2 ∧ (s.bus 2).tx.length < 32 ∧
        dmaBeat c s = { (s.setBus 2 { s.bus 2 with tx := (s.bus 2).tx ++ [loadBytes s.par.aw s.mem a 4] }).setChan c
            (endBeat { s.chan c with src := .mem (beatAddr s.par.aw (s.chan c).srcMode a) }) with
          hist := .memR a 4 :: s.hist }))) := by
  unfold dmaBeat
  simp only
  split
  · rename_i h
    simp only [Bool.and_eq_true, decide_eq_true_eq] at h
    split
    · rename_i b a hs hd
      split
      · rename_i h2
        obtain ⟨rfl, h2⟩ := h2
        refine .inr ⟨h.1.1, h.1.2, h.2, .inl ?_⟩
        cases hrx : (s.bus 2).rx with
        | nil => simp [rxLevel, hrx] at h2
        | cons e es =>
          refine ⟨a, e, es, hs, hd, rfl, ?_⟩
          have h4 : lowBytes 4 e = e := by
            apply BitVec.eq_of_toNat_eq
            rw [lowBytes_toNat]
            exact Nat.mod_eq_of_lt e.isLt
          rw [rxPop_eq]
          apply State.eq_of_fields <;> simp [memWrite, hrx, h4, bus_setBus]
          intro j; rw [chan_setChan, chan_setChan]; simp
      · exact .inl rfl
    · rename_i a b hs hd
      split
      · rename_i h2
        obtain ⟨rfl, h2⟩ := h2
        refine .inr ⟨h.1.1, h.1.2, h.2, .inr ⟨a, hs, hd, h2, ?_⟩⟩
        have hp : ∀ v, txPush 2 v (s.note (.memR a 4)) = (s.note (.memR a 4)).setBus 2 { s.bus 2 with
            tx := (s.bus 2).tx ++ [v] } := fun v => if_pos h2
        simp only [slaveBus_eq, memRead, hp]
        apply State.eq_of_fields <;> simp [bus_setBus]
        intro j; rw [chan_setChan, chan_setChan]; simp
      · exact .inl rfl
    · exact .inl rfl
  · exact .inl rfl

theorem callbackReturn_cases (s : State) :
    callbackReturn s = s ∨ (s.slv.handler = .inCallback ∧
      callbackReturn s = { s with slv := { s.slv with handler := .rearmDue } }) := by
  unfold callbackReturn
  split
  · rename_i h; exact .inr ⟨h, rfl⟩
  · exact .inl rfl

/-- The link takes every entry of a transmit FIFO, one turn each, in order. -/
theorem run_linkOut {s : State} {b : Nat} {rest : List Action} (h2 : b ≠ 2) (hen : (s.bus b).en = true)
    (hs : s.sched = List.replicate (s.bus b).tx.length (.linkOut b) ++ rest) :
    core.run (s.bus b).tx.length s = .next { s.setBus b { s.bus b with tx := [] } with
      hist := ((s.bus b).tx.map (Event.wireOut b)).reverse ++ s.hist, sched := rest } := by
  generalize hl : (s.bus b).tx = l at hs ⊢
  induction l generalizing s with
  | nil =>
    simp at hs
    rw [List.length_nil, run_zero]
    congr 1
    apply State.eq_of_fields <;> simp [hs]
    intro j; rw [bus_setBus]; split
    · rename_i hh; obtain ⟨rfl, -⟩ := hh; rw [← hl]
    · rfl
  | cons e es ih =>
    have hb := lt_of_en hen
    have hst : step s = .next { (s.setSched (List.replicate es.length (.linkOut b) ++ rest)).setBus b
        { s.bus b with tx := es } with
        hist := .wireOut b e :: s.hist } := by
      rw [step_of_sched (a := .linkOut b) (rest := List.replicate es.length (.linkOut b) ++ rest) (by rw [hs]; rfl)]
      rw [turn, linkOut_eq, if_pos ⟨hb, h2⟩]
      rcases wireOut_cases b (s.setSched (List.replicate es.length (.linkOut b) ++ rest)) with ⟨-, h⟩ | ⟨e', es', -, h, h'⟩
      · simp [hen, hl] at h
      · simp [hl] at h; obtain ⟨rfl, rfl⟩ := h
        rw [h']; rfl
    rw [List.length_cons, run_succ hst, ih]
    · congr 1
      apply State.eq_of_fields <;> simp
      intro j
      by_cases hj : b = j
      · subst hj; simp [hb]
      · simp [bus_setBus, hj]
    · simpa [bus_setBus, hb] using hen
    · simp [hb]
    · simp

end Sys2Proof.Machine
end

