-- ==== Sys2Proof/Laws/Frames.lean ====
section
/-! SUPPORT. Laws/Frames.lean: what a turn of each agent leaves alone, in any state: for the claims about the whole
machine. -/

namespace Sys2Proof.Machine

/-- Driving the pin to a new level is the newest event of the history. -/
theorem pinEvents_head {level : Bool} {s : State} (h : s.rdy ≠ level) :
    pinEvents level s = [.pin s.slv.rdyPin level] := by
  unfold pinEvents
  rw [if_neg]
  simp [h]

/-- Two states under the same parameters (00_scope.md R9). -/
def SameParams (s t : State) : Prop := t.par = s.par ∧ t.numBus = s.numBus ∧ t.numDmaCh = s.numDmaCh

theorem SameParams.refl (s : State) : SameParams s s := ⟨rfl, rfl, rfl⟩

/-- What a step that belongs to the slave role does: the master engine, the other buses and the fatal state are as they
were, the history grows, and a change of the pin is its newest event. -/
structure SlaveFrame (s t : State) : Prop where
  params : SameParams s t
  mst : t.mst = s.mst
  bus : ∀ j, j ≠ 2 → t.bus j = s.bus j
  fatal : t.fatal = s.fatal
  fatalCause : t.fatalCause = s.fatalCause
  hist : ∃ l, t.hist = l ++ s.hist
  pin : t.rdy ≠ s.rdy → t.hist.head? = some (.pin t.slv.rdyPin t.rdy) ∧
    ((t.rdy = true ∧ t.slv.status = .idle) ∨ (t.rdy = false ∧ t.slv.status = .transfer ∧ s.slv.status = .command))

/-- IdleRearm after changes that leave the pin alone. -/
theorem SlaveFrame.idleRearm {s u : State} (params : SameParams s u) (mst : u.mst = s.mst)
    (bus : ∀ j, j ≠ 2 → u.bus j = s.bus j)
    (fatal : u.fatal = s.fatal) (cause : u.fatalCause = s.fatalCause) (hist : u.hist = s.hist) (rdy : u.rdy = s.rdy) :
    SlaveFrame s (idleRearm u) := by
  rw [idleRearm_eq]
  constructor
  · simpa [SameParams] using params
  · simpa using mst
  · intro j hj; simp [hj.symm, bus j hj]
  · simpa using fatal
  · simpa using cause
  · exact ⟨_, by rw [← hist]⟩
  · intro h
    have h1 : u.rdy ≠ true := by rw [rdy]; exact fun e => h e.symm
    simp [pinEvents_head h1]

/-- A turn of SLAVE never stops, and is of the slave role. -/
theorem step_slave_frame {s : State} {rest : List Action} (hs : s.sched = .slave :: rest) :
    ∃ t, step s = .next t ∧ SlaveFrame s t := by
  have hsame : ∀ l, SlaveFrame s (s.setSched l) := fun l =>
    ⟨.refl s, rfl, fun _ _ => rfl, rfl, rfl, ⟨[], rfl⟩, fun h => absurd rfl h⟩
  have hst := step_of_sched hs
  by_cases hf : s.fatal = true
  · exact ⟨_, by rw [hst]; simp only [turn, slaveStep, setSched_fatal, hf, if_true], hsame rest⟩
  have hf : s.fatal = false := by simpa using hf
  cases hh : s.slv.handler
  case none =>
    by_cases he : s.slv.edgePend = true ∧ s.slv.active = true
    · have hE : EdgeNext s s.slv.status rest := ⟨hs, hf, hh, he.1, he.2, rfl⟩
      cases hss : s.slv.status <;> rw [hss] at hE
      · refine ⟨setStatus .command (acked rest s), ?_, .refl s, rfl, fun _ _ => rfl, rfl, rfl, ⟨[], rfl⟩,
          fun h => absurd rfl h⟩
        rw [step_edge hE, edgeHandler, acked_slv, hss]
      · obtain ⟨op, addr, len, sum, hb⟩ := exists_headerBytes
          ((congrArg List.length (fetchedBytes_acked s rest)).symm.trans (fetchedBytes_length _))
        rcases step_command_cases hE hb with ⟨-, he⟩ | ⟨-, -, he⟩ | ⟨i, hi, -, -, -, hl, he⟩
        · refine ⟨_, he, SlaveFrame.idleRearm ?_ ?_ ?_ ?_ ?_ ?_ ?_⟩ <;> rw [fetchHeader_eq] <;> simp [SameParams]
          intro j hj; simp [Ne.symm (show j ≠ 2 from hj)]
        · refine ⟨_, he, SlaveFrame.idleRearm ?_ ?_ ?_ ?_ ?_ ?_ ?_⟩ <;> rw [fetchHeader_eq] <;>
            simp [latchCommand, SameParams]
          intro j hj; simp [Ne.symm (show j ≠ 2 from hj)]
        · obtain ⟨dir, out, bits, tx, d, evs, hx, -⟩ := enterTransfer_setupOf_eq hi hl op (fetchHeader (acked rest s))
          rw [hx] at he
          refine ⟨_, he, ?_⟩
          rw [fetchHeader_eq]
          constructor
          · simp [SameParams]
          · simp
          · intro j hj; simp [Ne.symm (show j ≠ 2 from hj)]
          · simp
          · simp
          · exact ⟨_, rfl⟩
          · intro h
            have h1 : s.rdy ≠ false := fun e => h e.symm
            rw [pinEvents_head (by simpa using h1)]
            simp [hss]
      · obtain ⟨err, m, draws, mem, writes, he, -⟩ := step_transfer_eq hE
        refine ⟨_, he, ?_⟩
        constructor
        · simp [SameParams]
        · simp
        · intro j hj; simp [Ne.symm (show j ≠ 2 from hj)]
        · simp
        · simp
        · exact ⟨_, rfl⟩
        · intro h; simp at h
    · refine ⟨_, ?_, hsame rest⟩
      rw [hst]
      have : (s.slv.edgePend && s.slv.active) = false := by
        rw [← Bool.not_eq_true, Bool.and_eq_true]; exact he
      simp only [turn, slaveStep, setSched_fatal, hf, setSched_slv, hh, this]
      rfl
  case callbackDue =>
    refine ⟨transferT2 (s.setSched rest), by rw [hst]; simp [turn, slaveStep, hf, hh], ?_⟩
    rw [transferT2]
    split
    · exact ⟨.refl s, rfl, fun _ _ => rfl, rfl, rfl, ⟨[_], rfl⟩, fun h => absurd rfl h⟩
    · exact ⟨.refl s, rfl, fun _ _ => rfl, rfl, rfl, ⟨[], rfl⟩, fun h => absurd rfl h⟩
  case inCallback => exact ⟨_, by rw [hst]; simp [turn, slaveStep, hf, hh], hsame rest⟩
  case rearmDue =>
    refine ⟨transferT3 (s.setSched rest), by rw [hst]; simp [turn, slaveStep, hf, hh], ?_⟩
    have := SlaveFrame.idleRearm (s := s) (u := s.setSched rest) (.refl s) rfl (fun _ _ => rfl) rfl rfl rfl rfl
    exact ⟨this.params, this.mst, this.bus, this.fatal, this.fatalCause, this.hist, this.pin⟩

/-- An environment turn, or a write of the host, leaves the fatal state and the pin alone, and never shortens the history. -/
structure OutsideFrame (s t : State) : Prop where
  params : SameParams s t
  fatal : t.fatal = s.fatal
  fatalCause : t.fatalCause = s.fatalCause
  rdy : t.rdy = s.rdy
  hist : ∃ l, t.hist = l ++ s.hist

theorem OutsideFrame.refl (s : State) : OutsideFrame s s := ⟨.refl s, rfl, rfl, rfl, [], rfl⟩

theorem wireOut_frame (i : Nat) (s : State) : OutsideFrame s (wireOut i s) := by
  rcases wireOut_cases i s with ⟨h, -⟩ | ⟨e, es, -, -, h⟩ <;> rw [h]
  · exact .refl s
  · exact ⟨by simp [SameParams], by simp, by simp, by simp, [_], rfl⟩

theorem wireIn_frame (i : Nat) (e : Entry) (s : State) : OutsideFrame s (wireIn i e s) := by
  rcases wireIn_cases i e s with ⟨h, -⟩ | ⟨h, -⟩ | ⟨-, -, h⟩ <;> rw [h]
  · exact .refl s
  · exact ⟨.refl s, rfl, rfl, rfl, [_], rfl⟩
  · exact ⟨by simp [SameParams], by simp, by simp, by simp, [_], rfl⟩

theorem dmaBeat_frame (c : Nat) (s : State) : OutsideFrame s (dmaBeat c s) := by
  rcases dmaBeat_cases c s with h | ⟨-, -, -, ⟨a, e, es, -, -, -, h⟩ | ⟨a, -, -, -, h⟩⟩ <;> rw [h]
  · exact .refl s
  · exact ⟨by simp [SameParams], by simp, by simp, by simp, [_], rfl⟩
  · exact ⟨by simp [SameParams], by simp, by simp, by simp, [_], rfl⟩

/-- Every turn but those of HOST's requests and SLAVE goes on, with the fatal state and the pin as they were. -/
theorem turn_frame (a : Action) (s : State) (h1 : a ≠ .slave) (h2 : ∀ bytes, a ≠ .request bytes) :
    ∃ t, turn a s = .next t ∧ OutsideFrame s t := by
  cases a with
  | request bytes => exact absurd rfl (h2 bytes)
  | slave => exact absurd rfl h1
  | hostWrite a b => exact ⟨_, rfl, .refl s, rfl, rfl, rfl, [], rfl⟩
  | callbackReturn =>
    refine ⟨_, rfl, ?_⟩
    rcases callbackReturn_cases s with h | ⟨-, h⟩ <;> rw [h]
    · exact .refl s
    · exact ⟨.refl s, rfl, rfl, rfl, [], rfl⟩
  | master =>
    refine ⟨_, rfl, ?_⟩
    rw [masterStep_eq]
    split
    · exact .refl s
    · obtain ⟨b, m, mem, draws, evs, h⟩ := phaseStep_frame s.mst.phase s
      rw [h]
      exact ⟨by simp [SameParams], by simp, by simp, by simp, evs, rfl⟩
  | linkOut i =>
    refine ⟨_, rfl, ?_⟩
    rw [linkOut_eq]
    split
    · exact wireOut_frame i s
    · exact .refl s
  | linkIn i e =>
    refine ⟨_, rfl, ?_⟩
    rw [linkIn_eq]
    split
    · exact wireIn_frame i e s
    · exact .refl s
  | linkBusy i b => exact ⟨_, rfl, by simp [linkBusy, SameParams], by simp [linkBusy], by simp [linkBusy], by simp [linkBusy], [],
      by simp [linkBusy]⟩
  | edge => exact ⟨_, rfl, by rw [raiseEdge_eq]; exact ⟨.refl s, rfl, rfl, rfl, [_], rfl⟩⟩
  | remoteIn e => exact ⟨_, rfl, wireIn_frame 2 e s⟩
  | remoteOut => exact ⟨_, rfl, wireOut_frame 2 s⟩
  | dma c => exact ⟨_, rfl, dmaBeat_frame c s⟩

end Sys2Proof.Machine
end

