-- ==== Sys2Proof/Laws/Invariant.lean ====
section
/-! SUPPORT. Laws/Invariant.lean: how the invariant of Safety.lean survives each kind of change: requests, the turns of MASTER
and SLAVE, the environment. -/

namespace Sys2Proof.Machine

/-- The slave part reads only the instance, bus 2, the descriptor, the pin and the parameters. -/
theorem slaveGood_congr {s t : State} (h : SlaveGood s) (hp : SameParams s t) (h1 : t.slv = s.slv) (h2 : t.bus 2 = s.bus 2)
    (h3 : t.cmd = s.cmd) (h4 : t.rdy = s.rdy) (h5 : t.rdyDriven = s.rdyDriven) : SlaveGood t := by
  obtain ⟨p1, -, p3⟩ := hp
  constructor
  · rw [h1, h2]; exact h.inactive
  · rw [h1, h2, h4, h5, p3]; exact h.active
  · rw [h1]; exact h.handler
  · rw [h1, h3, p1]; exact h.command
  · rw [h2]; exact h.noCs
  · rw [h1, p1]; exact h.cfgPtr

/-- Where the cycle stands and which channels are armed is all that `OrphansStopped` reads. -/
theorem orphansStopped_congr {s t : State} (h : OrphansStopped s) (hp : t.par = s.par)
    (h1 : t.slv.status = s.slv.status) (h2 : t.slv.handler = s.slv.handler)
    (hd : ∀ c, (t.chan c).armed = true → (s.chan c).armed = true) : OrphansStopped t := by
  intro ho
  rw [hp] at ho
  rw [h1, h2]
  exact (h ho).imp_right fun hc c => by
    rw [← Bool.not_eq_true]; intro ha; have := hd c ha; rw [hc c] at this; cases this

/-- In the payload window a channel may be armed. -/
theorem orphansStopped_window {s : State} (h1 : s.slv.status = .transfer) (h2 : s.slv.handler = .none) :
    OrphansStopped s := fun _ => .inl ⟨h1, h2⟩

/-- Once no channel is armed, when ORPHAN_DMA is stopped. -/
theorem orphansStopped_of {s : State} (h : s.par.orphanDma = .stopped → ∀ c, (s.chan c).armed = false) :
    OrphansStopped s := fun ho => .inr (h ho)

/-- A change that leaves the master role alone. -/
theorem engineInv_slave {s t : State} (h : EngineInv s) (hp : SameParams s t) (hm : Memory.wf s.par.aw t.mem)
    (hb : ∀ j, j ≠ 2 → t.bus j = s.bus j) (hb2 : (t.bus 2).Good s.par.numCs)
    (hs : SlaveGood t) (hmst : t.mst = s.mst) (hd : ∀ c, (t.chan c).Good s.par.aw) (ho : OrphansStopped t) :
    EngineInv t := by
  obtain ⟨p1, p2, -⟩ := hp
  rw [← p1] at hm hb2 hd
  refine ⟨p1 ▸ h.params, hm, ?_, hs, ?_, hd, ho⟩
  · intro i
    by_cases hi : i = 2
    · rw [hi]; exact hb2
    · rw [hb i hi, p1]; exact h.buses i
  · constructor
    · rw [hmst]
      intro hp
      obtain ⟨h1, h2, h3, h4, h5, h6⟩ := h.master.busy hp
      have e := hb s.mst.bus h2
      refine ⟨by rw [p2]; exact h1, h2, by rw [p1]; exact h3, by rw [e]; exact h4, by rw [e]; exact h5, ?_⟩
      rw [h6]; unfold frameWidth; rw [e]
    · intro i hi
      rw [hmst, hb i hi]
      exact h.master.others i hi
    · rw [hmst]; exact h.master.ended
    · rw [hmst, p1]; exact h.master.ptrs

/-- A change that leaves the slave role and the channels alone. -/
theorem engineInv_master {s t : State} (h : EngineInv s) (hp : SameParams s t) (hm : Memory.wf s.par.aw t.mem)
    (hb : ∀ j, (t.bus j).Good s.par.numCs) (hb2 : t.bus 2 = s.bus 2) (h1 : t.slv = s.slv) (h3 : t.cmd = s.cmd)
    (h4 : t.rdy = s.rdy) (h5 : t.rdyDriven = s.rdyDriven) (hd : ∀ c, t.chan c = s.chan c) (hM : MasterGood t) :
    EngineInv t :=
  ⟨hp.1 ▸ h.params, hp.1 ▸ hm, hp.1 ▸ hb, slaveGood_congr h.slave hp h1 hb2 h3 h4 h5, hM,
    fun c => by rw [hd c, hp.1]; exact h.dma c,
    orphansStopped_congr h.orphans hp.1 (by rw [h1]) (by rw [h1]) fun c => by rw [hd]; exact id⟩

/-- A change of none of the state the invariant reads. -/
theorem engineInv_same {s t : State} (h : EngineInv s) (hp : SameParams s t) (hm : t.mem = s.mem)
    (hb : ∀ j, t.bus j = s.bus j) (h1 : t.slv = s.slv) (h3 : t.cmd = s.cmd) (h4 : t.rdy = s.rdy)
    (h5 : t.rdyDriven = s.rdyDriven) (hd : ∀ c, t.chan c = s.chan c) (hM : t.mst = s.mst) : EngineInv t :=
  engineInv_slave h hp (hm ▸ h.mem) (fun j _ => hb j) (by rw [hb]; exact h.buses 2)
    (slaveGood_congr h.slave hp h1 (hb 2) h3 h4 h5) hM (fun c => by rw [hd]; exact h.dma c)
    (orphansStopped_congr h.orphans hp.1 (by rw [h1]) (by rw [h1]) fun c => by rw [hd]; exact id)

/-- An enabled bus with another transmit FIFO that fits. -/
theorem good_tx {n : Nat} {b : Bus} (h : b.Good n) (he : b.en = true) {tx} (ht : tx.length ≤ 32) :
    ({ b with tx := tx } : Bus).Good n :=
  ⟨ht, h.rxFits, fun hf => (by rw [show b.en = false from hf] at he; cases he), h.dblLegal, h.dirLegal, h.csOneHot⟩

/-- An enabled bus with another receive FIFO that fits. -/
theorem good_rx {n : Nat} {b : Bus} (h : b.Good n) (he : b.en = true) {rx} (ht : rx.length ≤ 32) :
    ({ b with rx := rx } : Bus).Good n :=
  ⟨h.txFits, ht, fun hf => (by rw [show b.en = false from hf] at he; cases he), h.dblLegal, h.dirLegal, h.csOneHot⟩

/-- A bus whose receive FIFO has been popped. -/
theorem good_drop {n : Nat} {b : Bus} (h : b.Good n) (m) : ({ b with rx := b.rx.drop m } : Bus).Good n := by
  refine ⟨h.txFits, ?_, ?_, h.dblLegal, h.dirLegal, h.csOneHot⟩
  · have := h.rxFits; simp; omega
  · intro hf; have := h.offEmpty hf; simp [this]

/-- A programmed bus. -/
theorem good_programmed {n : Nat} {b : Bus} (h : b.Good n) {d o f tx} (hd : d ≠ .reserved) (ht : tx.length ≤ 32) :
    ({ programmed d o f b with tx := tx } : Bus).Good n :=
  ⟨ht, by simp [programmed], fun hf => (by cases hf), h.dblLegal, fun _ => hd, h.csOneHot⟩

/-- A re-armed bus. -/
theorem good_rearmed {n : Nat} {b : Bus} (h : b.Good n) : (rearmed b).Good n :=
  good_programmed (tx := []) h (by simp) (by simp)

/-- The chip-select mask of a legal chip select. -/
theorem oneHot {n : Nat} (c) (hc : c < n) : csMask c = 0 ∨ ∃ k < n, csMask c = 2 ^ k := .inr ⟨c, hc, csMask_eq c⟩

/-- A channel after the re-arm. -/
theorem good_leaveOrphan {aw : Nat} (p : Params) {d : DmaChannel} (h : d.Good aw) : (leaveOrphan p d).Good aw :=
  ⟨fun ha => h.armed (by simp only [leaveOrphan, Bool.and_eq_true] at ha; exact ha.1), h.src, h.dst⟩

/-- A request keeps the invariant. -/
theorem engineInv_request (i : Instr) (hi : i.format = .hreq) {s t} (h : EngineInv s)
    (he : exec i s = .next t) : EngineInv t := by
  have habort : ∀ c, EngineInv (raiseAbort c s) := fun c =>
    engineInv_same h ⟨rfl, rfl, rfl⟩ rfl (fun _ => rfl) rfl rfl rfl rfl (fun _ => rfl) rfl
  have hopen : ∀ bus, Open s → MasterBus s bus → (s.bus bus).en = false := by
    intro bus ho hb
    cases hen : (s.bus bus).en
    · rfl
    · exact absurd ho.2.2 (h.master.others bus hb.2 hen).1
  -- a master operation started
  have hstart : ∀ bus cs (b : Bus) (m : Master), Open s → MasterBus s bus → cs < s.par.numCs → b.Good s.par.numCs →
      b.en = true → b.dblWritten = true → b.dbl = (s.bus bus).dbl →
      (m.phase = .fill ∨ m.phase = .cmd) → m.bus = bus → m.csel = cs → m.w = frameWidth bus s →
      m.cmdPtr < 2 ^ s.par.aw → m.buf < 2 ^ s.par.aw → EngineInv ((s.setBus bus b).setMst m) := by
    intro bus cs b m ho hb hc hg hen hdw hdb hph hmb hmc hmw hp1 hp2
    have hb4 : bus < s.numBus := hb.1
    have hb2 : bus ≠ 2 := hb.2
    refine engineInv_master h ⟨by simp, by simp, by simp⟩ (by simpa using h.mem) ?_ (by simp [hb2]) (by simp) (by simp)
      (by simp) (by simp) (by simp) ?_
    · intro j; simp only [setMst_bus]; exact bus_setBus_of hg (h.buses j)
    · constructor
      · intro _
        simp only [setMst_mst, setMst_bus, hmb, hmc, hmw]
        refine ⟨by simpa using hb.1, hb.2, hc, ?_, ?_, ?_⟩
        · simp [hb4, hen]
        · simp [hb4, hdw]
        · simp [frameWidth, hb4, hdb]
      · intro j hj hje
        simp only [setMst_mst, setMst_bus, hmb, bus_setBus] at hje ⊢
        refine ⟨by rcases hph with hx | hx <;> simp [hx], ?_⟩
        by_contra hne
        rw [if_neg (by omega)] at hje
        exact absurd ho.2.2 (h.master.others j hj hje).1
      · intro hx
        simp only [setMst_mst] at hx
        rcases hph with hy | hy <;> simp [hy] at hx
      · exact ⟨hp1, hp2⟩
  have hfits : ∀ bus, Open s → MasterBus s bus → (s.bus bus).tx = [] ∧ (s.bus bus).rx = [] :=
    fun bus ho hb => (h.buses bus).offEmpty (hopen bus ho hb)
  have hsend : ∀ bus cs, Open s → MasterBus s bus → cs < s.par.numCs →
      ({ s.bus bus with cs := csMask cs, dir := .transmitOnly, en := true } : Bus).Good s.par.numCs := by
    intro bus cs ho hb hc
    obtain ⟨e1, e2⟩ := hfits bus ho hb
    exact ⟨by simp [e1], by simp [e2], by simp, (h.buses bus).dblLegal, by simp, oneHot cs hc⟩
  have hrecv : ∀ bus (n : BitVec 32) r, Open s → MasterBus s bus →
      ({ s.bus bus with dir := if n = 0 then .receiveOnly else .readAfterWrite, rxcnt := r, en := true } : Bus).Good
        s.par.numCs := by
    intro bus n r ho hb
    obtain ⟨e1, e2⟩ := hfits bus ho hb
    exact ⟨by simp [e1], by simp [e2], by simp, (h.buses bus).dblLegal, by intro _; simp only; split <;> simp,
      (h.buses bus).csOneHot⟩
  -- a register of one bus written while no operation is in progress
  have hconf : ∀ bus (b : Bus) u, Open s → MasterBus s bus → b.Good s.par.numCs → b.en = (s.bus bus).en →
      (∃ evs, u = { s.setBus bus b with hist := evs ++ s.hist }) → EngineInv u := by
    rintro bus b u ho hb hg hen ⟨evs, rfl⟩
    have hb2 : bus ≠ 2 := hb.2
    have e1 := hopen bus ho hb
    refine engineInv_master h ⟨by simp, by simp, by simp⟩ (by simpa using h.mem) ?_ (by simp [hb2]) (by simp) (by simp)
      (by simp) (by simp) (by simp) ?_
    · intro j; simp only [bus_mk]; exact bus_setBus_of hg (h.buses j)
    · constructor
      · intro hx; exact absurd ho.2.2 (by simpa using hx)
      · intro j hj hje
        simp only [bus_mk, bus_setBus, setBus_mst] at hje ⊢
        split at hje
        · rw [hen, e1] at hje; cases hje
        · exact h.master.others j hj hje
      · simpa using h.master.ended
      · simpa using h.master.ptrs
  cases i <;> simp [Instr.format] at hi <;> simp only [exec, execSend, execSendw, execRecv, execRecvw] at he
  case send bus cs buf len =>
    rcases validate_cases bus cs s with hv | ⟨c, hv, -⟩ | ⟨hv, ho, hb, hc⟩ <;> simp only [hv, onVerdict, withWidth] at he
    · cases he; exact h
    · cases he; exact habort _
    · split at he <;> cases he
      exact hstart bus cs _ _ ho hb hc (hsend bus cs ho hb hc) rfl (by assumption) rfl (.inl rfl) rfl rfl rfl
        h.master.ptrs.1 (wrap_lt _ _)
  case sendw bus cs p n q m =>
    rcases validate_cases bus cs s with hv | ⟨c, hv, -⟩ | ⟨hv, ho, hb, hc⟩ <;> simp only [hv, onVerdict, withWidth] at he
    · cases he; exact h
    · cases he; exact habort _
    · split at he <;> cases he
      exact hstart bus cs _ _ ho hb hc (hsend bus cs ho hb hc) rfl (by assumption) rfl (.inr rfl) rfl rfl rfl
        (wrap_lt _ _) (wrap_lt _ _)
  case recv bus cs p n q m =>
    rcases validate_cases bus cs s with hv | ⟨c, hv, -⟩ | ⟨hv, ho, hb, hc⟩ <;> simp only [hv, onVerdict, withWidth] at he
    · cases he; exact h
    · cases he; exact habort _
    · split at he <;> cases he
      exact hstart bus cs _ _ ho hb hc (hrecv bus n _ ho hb) rfl (by assumption) rfl (.inr rfl) rfl rfl rfl
        (wrap_lt _ _) (wrap_lt _ _)
  case recvw bus cs p n q m =>
    rcases validate_cases bus cs s with hv | ⟨c, hv, -⟩ | ⟨hv, ho, hb, hc⟩ <;> simp only [hv, onVerdict, withWidth] at he
    · cases he; exact h
    · cases he; exact habort _
    · split at he <;> cases he
      exact hstart bus cs _ _ ho hb hc (hrecv bus n _ ho hb) rfl (by assumption) rfl (.inr rfl) rfl rfl rfl
        (wrap_lt _ _) (wrap_lt _ _)
  case busConfig bus dbl wm =>
    simp only [execBusConfig] at he
    rcases validate_cases bus 0 s with hv | ⟨c, hv, -⟩ | ⟨hv, ho, hb, hc⟩ <;>
      simp only [hv, onVerdict, Verdict.andThen] at he
    · cases he; exact h
    · cases he; exact habort _
    · cases hd : dblLegal dbl <;> simp [hd] at he <;> subst he
      · exact habort _
      · have g := h.buses bus
        exact hconf bus { s.bus bus with
            dbl := BitVec.ofNat 6 dbl, dblWritten := true, frameBits := BitVec.ofNat 6 dbl, workMode := wm } _ ho hb
          ⟨g.txFits, g.rxFits, g.offEmpty, fun _ => dblLegal_toNat hd, g.dirLegal, g.csOneHot⟩ rfl ⟨[_], rfl⟩
  case nonstdConfig bus il al wc =>
    simp only [execNonstdConfig] at he
    rcases validate_cases bus 0 s with hv | ⟨c, hv, -⟩ | ⟨hv, ho, hb, hc⟩ <;>
      simp only [hv, onVerdict, Verdict.andThen] at he
    · cases he; exact h
    · cases he; exact habort _
    · cases hd : nonStdSupported s.par il al wc <;> simp [hd] at he <;> subst he
      · exact habort _
      · have g := h.buses bus
        exact hconf bus { s.bus bus with instrLen := il, addrLen := al, waitCycles := wc } _ ho hb
          ⟨g.txFits, g.rxFits, g.offEmpty, g.dblLegal, g.dirLegal, g.csOneHot⟩ rfl ⟨[], rfl⟩
  case slaveConfig ip rp ch dbl ptr len cb =>
    simp only [execSlaveConfig] at he
    rcases validateSlave_cases ch dbl s with ⟨hv, -⟩ | ⟨hv, -⟩ | ⟨hv, -⟩ | ⟨hv, ho, h2, hd, hc⟩ <;>
      simp only [hv, onVerdict] at he
    · cases he; exact h
    · cases he; exact habort _
    · cases he; exact habort _
    · cases he
      rw [idleRearm_eq, newInstance_eq]
      have g := h.buses 2
      refine engineInv_slave h ⟨by simp, by simp, by simp⟩ (by simpa using h.mem) ?_ ?_ ?_ (by simp) ?_
        (orphansStopped_of fun ho c => by simpa using leaveOrphan_stopped (by simpa using ho) _)
      · intro j hj; simp [hj.symm]
      · simp [h2]
        exact ⟨by simp [rearmed, programmed], by simp [rearmed, programmed], by simp [rearmed, programmed],
          fun _ => dblLegal_toNat hd, by simp [rearmed, programmed], g.csOneHot⟩
      · constructor
        · intro hx; simp at hx
        · intro hx; simp [rearmed, programmed, h2, hc]
        · intro hx; simp at hx; exact absurd ho.2.1 hx
        · intro hx; cases hx
        · simp [rearmed, programmed, h2]; exact h.slave.noCs
        · simpa using wrap_lt s.par.aw ptr
      · intro c; simpa using good_leaveOrphan s.par (h.dma c)

/-- The schedule is no part of the invariant. -/
theorem engineInv_sched {s} (h : EngineInv s) (l) : EngineInv (s.setSched l) :=
  engineInv_same h ⟨rfl, rfl, rfl⟩ rfl (fun _ => rfl) rfl rfl rfl rfl (fun _ => rfl) rfl

/-- A return to Idle keeps the invariant. -/
theorem engineInv_rearm {u s : State} (h : EngineInv s) (ha : s.slv.active = true) (hp : SameParams s u) {r}
    (hb : u.bus 2 = { s.bus 2 with rx := r }) (hbj : ∀ j, j ≠ 2 → u.bus j = s.bus j)
    (e2 : u.slv = { s.slv with edgePend := u.slv.edgePend }) (hh : s.slv.handler = .none)
    (hm : Memory.wf s.par.aw u.mem) (hmst : u.mst = s.mst) (hd : ∀ c, u.chan c = s.chan c) : EngineInv (idleRearm u) := by
  rw [idleRearm_eq]
  have g := h.buses 2
  obtain ⟨a1, a2, a3, a4, a5⟩ := h.slave.active ha
  obtain ⟨p1, p2, p3⟩ := hp
  have h2 : 2 < (leaveOrphans u).numBus := by rw [leaveOrphans_numBus, p2]; exact lt_of_en a1
  refine engineInv_slave h ⟨by simp [p1], by simp [p2], by simp [p3]⟩ (by simpa using hm) ?_ ?_ ?_ (by simpa using hmst) ?_
    (orphansStopped_of fun ho c => by simpa using leaveOrphan_stopped (by simpa using ho) _)
  · intro j hj; simp [hj.symm, hbj j hj]
  · simp only [bus_mk, bus_setBus_self _ _ _ h2, hb]
    exact (good_rearmed g : (rearmed (s.bus 2)).Good s.par.numCs)
  · constructor
    · intro hx; simp only at hx; rw [e2] at hx; simp [ha] at hx
    · intro hx
      simp only [bus_mk, bus_setBus_self _ _ _ h2, hb]
      rw [e2]
      simp [rearmed, programmed, a2, a3, p3]
    · intro hx; simp only at hx; rw [e2] at hx; exact absurd hh hx
    · intro hx; cases hx
    · simp only [bus_mk, bus_setBus_self _ _ _ h2, hb]
      exact h.slave.noCs
    · rw [e2]; simpa [p1] using h.slave.cfgPtr
  · intro c; simpa [hd c, p1] using good_leaveOrphan s.par (h.dma c)

/-- An edge that the slave agent serves next. -/
theorem edgeNext_of {s : State} {rest} (hs : s.sched = .slave :: rest) (hf : s.fatal = false)
    (hh : s.slv.handler = .none) (he : s.slv.edgePend = true)
    (ha : s.slv.active = true) : EdgeNext s s.slv.status rest := ⟨hs, hf, hh, he, ha, rfl⟩

/-- A turn of SLAVE keeps the invariant. -/
theorem engineInv_slaveTurn {s t : State} {rest} (h : EngineInv s) (hs : s.sched = .slave :: rest)
    (ht : step s = .next t) : EngineInv t := by
  have hst := step_of_sched hs
  by_cases hf : s.fatal = true
  · rw [hst] at ht; simp [turn, slaveStep, hf] at ht; rw [← ht]; exact engineInv_sched h _
  have hf : s.fatal = false := by simpa using hf
  cases hh : s.slv.handler
  case none =>
    by_cases he : s.slv.edgePend = true ∧ s.slv.active = true
    · obtain ⟨he, ha⟩ := he
      obtain ⟨a1, a2, a3, a4, a5⟩ := h.slave.active ha
      have h2 : 2 < s.numBus := lt_of_en a1
      have hE := edgeNext_of hs hf hh he ha
      cases hss : s.slv.status
      · -- idle
        rw [hss] at hE
        rw [step_edge hE] at ht
        simp only [edgeHandler, acked_slv, hss] at ht
        cases ht
        refine engineInv_slave h ⟨rfl, rfl, rfl⟩ h.mem (fun _ _ => rfl) (h.buses 2) ?_ rfl (fun c => h.dma c) fun ho =>
          .inr ((h.orphans ho).resolve_left fun hx => by rw [hss] at hx; cases hx.1)
        constructor
        · intro hx; simp [setStatus] at hx; rw [ha] at hx; cases hx
        · intro _; simp [setStatus, a1, a2, a3, a4]
          have : s.rdy = true := by
            cases hr : s.rdy
            · rw [a5.2 hr] at hss; cases hss
            · rfl
          simp [this]
        · intro hx; simp [setStatus] at hx; exact absurd hh hx
        · intro hx; simp [setStatus] at hx
        · exact h.slave.noCs
        · exact h.slave.cfgPtr
      · -- command
        rw [hss] at hE
        obtain ⟨op, addr, len, sum, hb⟩ := exists_headerBytes (fetchedBytes_length (acked rest s))
        rw [fetchedBytes_acked] at hb
        have hfb : (fetchHeader (acked rest s)).bus 2 = { s.bus 2 with rx := (s.bus 2).rx.drop (8 / frameWidth 2 s) } := by
          rw [fetchHeader_eq]; simp [h2]
        have hfj : ∀ j, j ≠ 2 → (fetchHeader (acked rest s)).bus j = s.bus j := by
          intro j hj; rw [fetchHeader_eq]; simp [hj.symm]
        have hfp : SameParams s (fetchHeader (acked rest s)) := by
          rw [fetchHeader_eq]; exact ⟨by simp, by simp, by simp⟩
        have hslv : (fetchHeader (acked rest s)).slv = { s.slv with edgePend := false } := by rw [fetchHeader_eq]; simp
        have hmem : Memory.wf s.par.aw (fetchHeader (acked rest s)).mem := by rw [fetchHeader_eq]; simpa using h.mem
        have hmst : (fetchHeader (acked rest s)).mst = s.mst := by rw [fetchHeader_eq]; simp
        have hdc : ∀ c, (fetchHeader (acked rest s)).chan c = s.chan c := by intro c; rw [fetchHeader_eq]; simp
        rcases step_command_cases hE hb with ⟨-, he⟩ | ⟨-, -, he⟩ | ⟨i, hi, ho, -, -, hl, he⟩
        · rw [he] at ht; cases ht
          exact engineInv_rearm h ha hfp hfb hfj (by rw [hslv]) hh hmem hmst hdc
        · rw [he] at ht; cases ht
          exact engineInv_rearm h ha hfp hfb hfj (by simp only [latchCommand, setCmd_slv]; rw [hslv]) hh hmem hmst hdc
        · subst ho
          obtain ⟨dir, out, bits, tx, d, evs, hx, x1, x2, x3⟩ :=
            enterTransfer_setupOf_eq hi hl (opcodeOf s.par.opc i) (fetchHeader (acked rest s))
          rw [hx] at he
          rw [he] at ht; cases ht
          have hcs : (s.bus 2).cs = 0 := h.slave.noCs
          have h2' : 2 < (fetchHeader (acked rest s)).numBus := hfp.2.1 ▸ h2
          refine engineInv_slave h ⟨by simp [hfp.1], by simp [hfp.2.1], by simp [hfp.2.2]⟩ (by simpa using hmem) ?_ ?_ ?_
            (by simpa using hmst) ?_ (orphansStopped_window rfl (by simp [hslv, hh]))
          · intro j hj; simp [hj.symm, hfj j hj]
          · simp only [bus_mk, setChan_bus, bus_setBus_self _ _ _ h2', hfb]
            refine good_programmed (good_rx (h.buses 2) a1 ?_) x1 x2
            have := (h.buses 2).rxFits
            unfold Config.fifoDepth at this
            rw [List.length_drop]
            exact (Nat.sub_le _ _).trans this
          · constructor
            · intro hx; simp [hslv, ha] at hx
            · intro _
              simp only [bus_mk, setChan_bus, bus_setBus_self _ _ _ h2', hfb, hslv]
              simp [programmed, a2, a3, hfp.2.2]
            · intro _; simp
            · intro _
              simp only [setChan_par, setBus_par, hfp.1]
              have h1 := decodedLen_pos len
              have h2 := decodedLen_le len
              have hv : (BitVec.ofNat 17 (decodedLen len)).toNat = decodedLen len := by
                rw [BitVec.toNat_ofNat]; omega
              rw [hv]
              refine ⟨isKnown_opcodeOf _ hi, h1, h2, ?_⟩
              intro hn
              rw [(isNonBlock_opcodeOf h.params.opc hi).1] at hn
              exact hl hn
            · simp only [bus_mk, setChan_bus, bus_setBus_self _ _ _ h2', hfb]
              exact hcs
            · simpa [hslv, hfp.1] using h.slave.cfgPtr
          · intro c
            simp only [chan_mk, chan_setChan]
            split
            · rcases x3 with x3 | ⟨x3, x4, x5, x6, x7⟩
              · rw [x3, hdc]; exact h.dma _
              · refine ⟨fun _ => ?_, hfp.1 ▸ x6, hfp.1 ▸ x7⟩
                rw [x4, x5]
                have := decodedLen_pos len
                exact ⟨by omega, by omega, rfl⟩
            · rw [setBus_chan, hdc]; exact h.dma c
      · -- transfer
        rw [hss] at hE
        obtain ⟨err, m, draws, mem, writes, he, -, hw⟩ := step_transfer_eq hE
        rw [he] at ht; cases ht
        refine engineInv_slave h ⟨by simp, by simp, by simp⟩ (hw h.mem) ?_ ?_ ?_ ?_ ?_
          (orphansStopped_of fun ho c => by simpa using leaveOrphan_stopped ho _)
        · intro j hj; simp [hj.symm]
        · rw [bus_mk, bus_setBus_self _ _ _ (by simpa using h2)]; exact good_drop (h.buses 2) m
        · have hc := h.slave.command hss
          constructor
          · intro hx; simp [ha] at hx
          · intro _; simp [h2, a1, a2, a3, a4, a5]
          · intro _; exact hss
          · intro _; exact hc
          · simpa [h2] using h.slave.noCs
          · exact h.slave.cfgPtr
        · simp
        · intro c; simpa using good_leaveOrphan s.par (h.dma c)
    · rw [hst] at ht
      have : (s.slv.edgePend && s.slv.active) = false := by
        rw [Bool.and_eq_false_iff]; by_contra hx; apply he; simpa [not_or] using hx
      simp [turn, slaveStep, hf, hh, this] at ht
      rw [← ht]; exact engineInv_sched h _
  case callbackDue =>
    rw [hst] at ht; simp [turn, slaveStep, hf, hh] at ht
    have hss := h.slave.handler (by rw [hh]; simp)
    have key : ∀ x ev, EngineInv { s with slv := { s.slv with handler := x }, hist := ev ++ s.hist, sched := rest } := by
      intro x ev
      refine engineInv_slave h ⟨rfl, rfl, rfl⟩ h.mem (fun _ _ => rfl) (h.buses 2) ?_ rfl (fun c => h.dma c) fun ho =>
        .inr ((h.orphans ho).resolve_left fun hx => by rw [hh] at hx; cases hx.2)
      constructor
      · intro hx; have := (h.slave.inactive hx).1; rw [this] at hss; cases hss
      · exact h.slave.active
      · intro _; exact hss
      · exact h.slave.command
      · exact h.slave.noCs
      · exact h.slave.cfgPtr
    rw [← ht, transferT2]
    cases hcb : s.slv.cb <;> simp [hcb]
    · exact key .rearmDue []
    · exact key .inCallback [_]
  case inCallback =>
    rw [hst] at ht; simp [turn, slaveStep, hf, hh] at ht
    rw [← ht]; exact engineInv_sched h _
  case rearmDue =>
    rw [hst] at ht; simp [turn, slaveStep, hf, hh] at ht
    have hss := h.slave.handler (by rw [hh]; simp)
    have ha : s.slv.active = true := by
      cases hx : s.slv.active
      · have := (h.slave.inactive hx).1; rw [this] at hss; cases hss
      · rfl
    obtain ⟨a1, a2, a3, a4, a5⟩ := h.slave.active ha
    have h2 : 2 < s.numBus := lt_of_en a1
    rw [← ht, transferT3, idleRearm_eq]
    refine engineInv_slave h ⟨by simp [setHandler], by simp [setHandler], by simp [setHandler]⟩
      (by simpa [setHandler] using h.mem) ?_ ?_ ?_ ?_ ?_
      (orphansStopped_of fun ho c => by simpa [setHandler] using leaveOrphan_stopped (by simpa [setHandler] using ho) _)
    · intro j hj; simp [setHandler, hj.symm]
    · simp [setHandler, h2]; exact good_rearmed (h.buses 2)
    · constructor
      · intro hx; simp [setHandler, ha] at hx
      · intro _; simp [setHandler, rearmed, programmed, h2, a2, a3]
      · intro hx; simp [setHandler] at hx
      · intro hx; simp [setHandler] at hx
      · simp [setHandler, rearmed, programmed, h2]; exact h.slave.noCs
      · simpa [setHandler] using h.slave.cfgPtr
    · simp [setHandler]
    · intro c; simpa [setHandler] using good_leaveOrphan s.par (h.dma c)

/-- A turn of MASTER keeps the invariant. -/
theorem engineInv_masterTurn {s : State} (h : EngineInv s) : EngineInv (phaseStep s.mst.phase s) := by
  by_cases hidle : s.mst.phase = .idle
  · rw [hidle]; exact h
  obtain ⟨m1, m2, m3, m4, m5, m6⟩ := h.master.busy hidle
  have hg := h.buses s.mst.bus
  -- an update of the bus, of the counters and of memory
  have key : ∀ (b : Bus) (m : Master) mem hist, b.Good s.par.numCs → b.en = true → b.dblWritten = true →
      b.dbl = (s.bus s.mst.bus).dbl → Memory.wf s.par.aw mem →
      (∃ p k r, m = { s.mst with phase := p, idx := k, rem := r }) → m.phase ≠ .idle →
      (m.phase = .wait ∨ m.phase = .fin → m.rem = 0) →
      EngineInv { s.setBus s.mst.bus b with mst := m, mem := mem, hist := hist } := by
    rintro b m mem hist hb1 hb2 hb3 hb4 hm ⟨p, k, r, rfl⟩ e4 e5
    refine engineInv_master h ⟨by simp, by simp, by simp⟩ hm ?_ (by simp [show s.mst.bus ≠ 2 from m2]) (by simp) (by simp)
      (by simp) (by simp) (by simp) ?_
    · intro j; simp only [bus_mk]; exact bus_setBus_of hb1 (h.buses j)
    · constructor
      · intro _
        simp only [bus_mk, bus_setBus_self _ _ _ m1]
        refine ⟨by simpa using m1, m2, m3, hb2, hb3, ?_⟩
        rw [m6]; simp [frameWidth, m1, hb4]
      · intro j hj hje
        simp only [bus_mk] at hje ⊢
        refine ⟨e4, ?_⟩
        by_contra hne
        rw [bus_setBus_ne _ _ _ _ (Ne.symm hne)] at hje
        exact hne (h.master.others j hj hje).2
      · exact e5
      · exact h.master.ptrs
  have key0 : ∀ (b : Bus) (m : Master) hist, b.Good s.par.numCs → b.en = true → b.dblWritten = true →
      b.dbl = (s.bus s.mst.bus).dbl → (∃ p k r, m = { s.mst with phase := p, idx := k, rem := r }) → m.phase ≠ .idle →
      (m.phase = .wait ∨ m.phase = .fin → m.rem = 0) →
      EngineInv { s.setBus s.mst.bus b with mst := m, hist := hist } := by
    intro b m hist hb1 hb2 hb3 hb4 e1 e4 e5
    have := key b m s.mem hist hb1 hb2 hb3 hb4 h.mem e1 e4 e5
    exact engineInv_same this ⟨by simp, by simp, by simp⟩ (by simp) (fun _ => rfl) rfl rfl rfl rfl (fun _ => rfl) rfl
  cases hp : s.mst.phase
  · exact absurd hp hidle
  · obtain ⟨evs, he, -⟩ := masterCmd_eq s
    have hn : (prefixNext s).1 = .fill ∨ (prefixNext s).1 = .drain := by
      unfold prefixNext; cases s.mst.op <;> simp
    have hc : (prefixNext s).2 = (s.bus s.mst.bus).cs ∨ (prefixNext s).2 = csMask s.mst.csel := by
      unfold prefixNext; cases s.mst.op <;> simp
    rw [phaseStep, he]
    refine key0 { s.bus s.mst.bus with
        tx := (s.bus s.mst.bus).tx ++ (prefixEntries s).take (32 - (s.bus s.mst.bus).tx.length), cs := (prefixNext s).2 }
      { s.mst with phase := (prefixNext s).1 } (evs ++ s.hist) ?_ m4 m5 rfl ⟨_, _, _, rfl⟩
      (by rcases hn with hx | hx <;> simp [hx]) (by rcases hn with hx | hx <;> simp [hx])
    have := hg.txFits
    unfold Config.fifoDepth at this
    refine ⟨by simp [Config.fifoDepth]; omega, hg.rxFits, ?_, hg.dblLegal, hg.dirLegal, ?_⟩
    · intro hx; rw [show (s.bus s.mst.bus).en = false from hx] at m4; cases m4
    · rcases hc with hx | hx <;> simp only [hx]
      · exact hg.csOneHot
      · exact oneHot _ m3
  · obtain ⟨reads, -, he, h1, h2⟩ := masterFill_eq s hg.txFits
    rw [phaseStep, he]
    refine key0 _ _ _ (good_tx hg m4 (by simpa using h2)) m4 m5 rfl ⟨_, _, _, rfl⟩ ?_ ?_
    · simp only; split <;> simp [hp]
    · simp only; split
      · rename_i hx; intro _; omega
      · rw [hp]; simp
  · rw [phaseStep, masterWait]
    split
    · have := key0 (s.bus s.mst.bus) { s.mst with phase := .fin } s.hist hg m4 m5 rfl ⟨_, _, _, rfl⟩ (by simp)
        (fun _ => h.master.ended (.inl hp))
      rw [setBus_self] at this
      exact this
    · exact h
  · obtain ⟨writes, -, he⟩ := masterDrain_eq s
    rw [phaseStep, he]
    refine key _ _ _ _ (good_drop hg _) m4 m5 rfl (withUnits_wf h.mem _ _ _ _) ⟨_, _, _, rfl⟩ ?_ ?_
    · simp only; split <;> simp [hp]
    · simp only; split
      · rename_i hx; intro _; omega
      · rw [hp]; simp
  · rw [phaseStep, masterEnd_eq]
    refine engineInv_master h ⟨by simp, by simp, by simp⟩ (by simpa using h.mem) ?_ (by simp [show s.mst.bus ≠ 2 from m2])
      (by simp) (by simp) (by simp) (by simp) (by simp) ?_
    · intro j; simp only [bus_mk]
      refine bus_setBus_of ?_ (h.buses j)
      exact ⟨by simp, by simp, by simp, hg.dblLegal, by simp, .inl rfl⟩
    · constructor
      · intro hx; simp at hx
      · intro j hj hje
        simp only [bus_mk] at hje
        by_cases hjb : s.mst.bus = j
        · subst hjb; rw [bus_setBus_self _ _ _ m1] at hje; cases hje
        · rw [bus_setBus_ne _ _ _ _ hjb] at hje
          exact absurd (h.master.others j hj hje).2 (Ne.symm hjb)
      · intro hx; simp at hx
      · exact h.master.ptrs

/-- A change of FIFO contents keeps the invariant. -/
theorem engineInv_fifo {s t : State} (h : EngineInv s) (hp : SameParams s t) (hm : t.mem = s.mem)
    (hbe : ∀ j, (t.bus j).Good s.par.numCs ∧ (t.bus j).en = (s.bus j).en ∧ (t.bus j).dbl = (s.bus j).dbl ∧
      (t.bus j).dblWritten = (s.bus j).dblWritten ∧ (t.bus j).cs = (s.bus j).cs)
    (h1 : t.slv = s.slv) (h3 : t.cmd = s.cmd) (h4 : t.rdy = s.rdy) (h5 : t.rdyDriven = s.rdyDriven)
    (hd : ∀ c, t.chan c = s.chan c) (hM : t.mst = s.mst) : EngineInv t := by
  obtain ⟨p1, p2, p3⟩ := hp
  refine ⟨p1 ▸ h.params, by rw [hm, p1]; exact h.mem, fun j => p1 ▸ (hbe j).1, ?_, ?_,
    fun c => by rw [hd, p1]; exact h.dma c,
    orphansStopped_congr h.orphans p1 (by rw [h1]) (by rw [h1]) fun c => by rw [hd]; exact id⟩
  · constructor
    · rw [h1, (hbe 2).2.1]; exact h.slave.inactive
    · rw [h1, h4, h5, (hbe 2).2.1, (hbe 2).2.2.2.1, p3]; exact h.slave.active
    · rw [h1]; exact h.slave.handler
    · rw [h1, h3, p1]; exact h.slave.command
    · rw [(hbe 2).2.2.2.2]; exact h.slave.noCs
    · rw [h1, p1]; exact h.slave.cfgPtr
  · constructor
    · rw [hM]
      intro hx
      obtain ⟨m1, m2, m3, m4, m5, m6⟩ := h.master.busy hx
      refine ⟨by rw [p2]; exact m1, m2, by rw [p1]; exact m3, by rw [(hbe _).2.1]; exact m4,
        by rw [(hbe _).2.2.2.1]; exact m5, ?_⟩
      rw [m6]; unfold frameWidth; rw [(hbe _).2.2.1]
    · intro j hj hje
      rw [(hbe j).2.1] at hje
      rw [hM]; exact h.master.others j hj hje
    · rw [hM]; exact h.master.ended
    · rw [hM, p1]; exact h.master.ptrs

/-- A change of one bus's FIFO contents keeps the invariant. -/
theorem engineInv_bus {s : State} (h : EngineInv s) (i : Nat) (b : Bus) (hb : b.Good s.par.numCs)
    (e1 : b.en = (s.bus i).en) (e2 : b.dbl = (s.bus i).dbl) (e3 : b.dblWritten = (s.bus i).dblWritten)
    (e4 : b.cs = (s.bus i).cs) (hist) : EngineInv { s.setBus i b with hist := hist } := by
  refine engineInv_fifo h ⟨by simp, by simp, by simp⟩ (by simp) ?_ (by simp) (by simp) (by simp) (by simp) (by simp)
    (by simp)
  intro j
  simp only [bus_mk, bus_setBus]
  split
  · rename_i hh; obtain ⟨rfl, -⟩ := hh; exact ⟨hb, e1, e2, e3, e4⟩
  · exact ⟨h.buses j, rfl, rfl, rfl, rfl⟩

/-- An entry out keeps the invariant. -/
theorem engineInv_wireOut {s} (h : EngineInv s) (i) : EngineInv (wireOut i s) := by
  rcases wireOut_cases i s with ⟨h1, -⟩ | ⟨e, es, h1, h2, h3⟩
  · rw [h1]; exact h
  · rw [h3]
    refine engineInv_bus h i { s.bus i with tx := es } (good_tx (h.buses i) h1 ?_) rfl rfl rfl rfl _
    have := (h.buses i).txFits
    rw [h2] at this
    unfold Config.fifoDepth at this
    simp at this
    omega

/-- An entry in keeps the invariant. -/
theorem engineInv_wireIn {s} (h : EngineInv s) (i e) : EngineInv (wireIn i e s) := by
  rcases wireIn_cases i e s with ⟨h1, -⟩ | ⟨h1, -⟩ | ⟨h1, h2, h3⟩
  · rw [h1]; exact h
  · rw [h1]
    exact engineInv_same h ⟨rfl, rfl, rfl⟩ rfl (fun _ => rfl) rfl rfl rfl rfl (fun _ => rfl) rfl
  · rw [h3]
    exact engineInv_bus h i { s.bus i with rx := (s.bus i).rx ++ [e] } (good_rx (h.buses i) h1 (by simp; omega))
      rfl rfl rfl rfl _

/-- A change of one channel. -/
theorem engineInv_chan {s : State} (h : EngineInv s) (c d) (hd : d.Good s.par.aw)
    (ha : d.armed = true → (s.chan c).armed = true) : EngineInv (s.setChan c d) := by
  refine engineInv_slave h ⟨by simp, by simp, by simp⟩ (by simpa using h.mem) (fun _ _ => by simp)
    (by simpa using h.buses 2)
    (slaveGood_congr h.slave ⟨by simp, by simp, by simp⟩ (by simp) (by simp) (by simp) (by simp) (by simp)) (by simp) ?_
    (orphansStopped_congr h.orphans (by simp) (by simp) (by simp) ?_)
  swap
  · intro j hj
    rw [chan_setChan] at hj
    split at hj
    · rename_i hc; obtain ⟨rfl, -⟩ := hc; exact ha hj
    · exact hj
  intro j
  exact chan_setChan_of hd (h.dma j)

/-- A change of memory. -/
theorem engineInv_mem {s : State} (h : EngineInv s) (m) (hm : Memory.wf s.par.aw m) : EngineInv { s with mem := m } :=
  ⟨h.params, hm, h.buses,
    ⟨h.slave.inactive, h.slave.active, h.slave.handler, h.slave.command, h.slave.noCs, h.slave.cfgPtr⟩,
    ⟨h.master.busy, h.master.others, h.master.ended, h.master.ptrs⟩, h.dma, h.orphans⟩

/-- A channel after a beat. -/
theorem good_endBeat {aw : Nat} {d : DmaChannel} (h : d.Good aw) : (endBeat d).Good aw := by
  refine ⟨?_, h.src, h.dst⟩
  simp only [endBeat]
  split
  · intro hx; cases hx
  · intro hx
    have := h.armed hx
    exact ⟨by omega, by omega, this.2.2⟩

/-- The address after a beat has AW bits. -/
theorem beatAddr_lt {aw : Nat} (m : DmaMode) {a : Addr} (h : a < 2 ^ aw) : beatAddr aw m a < 2 ^ aw := by
  cases m
  · exact h
  · exact wrap_lt aw _

/-- A DMA beat keeps the invariant. -/
theorem engineInv_dma {s} (h : EngineInv s) (c) : EngineInv (dmaBeat c s) := by
  rcases dmaBeat_cases c s with h1 | ⟨ha, hr, hen, h2⟩
  · rw [h1]; exact h
  have hd := h.dma c
  rcases h2 with ⟨a, e, es, h1, h2, h3, he⟩ | ⟨a, h1, h2, h3, he⟩
  · rw [he]
    have hlt : a < 2 ^ s.par.aw := by have := hd.dst; rw [h2] at this; exact this
    have := engineInv_bus h 2 { s.bus 2 with rx := es } (good_rx (h.buses 2) hen (by
      have := (h.buses 2).rxFits; rw [h3] at this; unfold Config.fifoDepth at this; simp at this; omega)) rfl rfl rfl rfl
      (.memW a 4 e :: s.hist)
    have := engineInv_chan this c (endBeat { s.chan c with dst := .mem (beatAddr s.par.aw (s.chan c).dstMode a) })
      (good_endBeat ⟨hd.armed, hd.src, beatAddr_lt _ hlt⟩) (fun _ => ha)
    have := engineInv_mem this (storeBytes s.par.aw s.mem a 4 e) (storeBytes_wf h.mem _ _ _)
    refine engineInv_same this ⟨by simp, by simp, by simp⟩ rfl ?_ ?_ ?_ ?_ ?_ ?_ ?_ <;> simp
    intro j; simp [chan_setChan]
  · rw [he]
    have hlt : a < 2 ^ s.par.aw := by have := hd.src; rw [h1] at this; exact this
    have := engineInv_bus h 2 { s.bus 2 with tx := (s.bus 2).tx ++ [loadBytes s.par.aw s.mem a 4] }
      (good_tx (h.buses 2) hen (by simp; omega)) rfl rfl rfl rfl (.memR a 4 :: s.hist)
    have := engineInv_chan this c (endBeat { s.chan c with src := .mem (beatAddr s.par.aw (s.chan c).srcMode a) })
      (good_endBeat ⟨hd.armed, beatAddr_lt _ hlt, hd.dst⟩) (fun _ => ha)
    refine engineInv_same this ⟨by simp, by simp, by simp⟩ ?_ ?_ ?_ ?_ ?_ ?_ ?_ ?_ <;> simp
    intro j; simp [chan_setChan]

end Sys2Proof.Machine
end

