-- ==== Sys2Proof/Laws/PerInstr.lean ====
section
/-! SUPPORT. Laws/PerInstr.lean: statements for all operations, one lemma per operation. -/

/-- An operation's encoding is the 8 bytes of a header (30_encoding.md R91) or the 72 bytes of a request record (log entry
12), as its format says. -/
def Sys2Proof.Laws.EncodedLength.Statement (i : Sys2Proof.Instr) : Prop :=
  ∀ o : Sys2Proof.Opc, (Sys2Proof.encode o i).length = match i.format with
    | .hdr => 8
    | .hreq => 72

namespace Sys2Proof.Laws.EncodedLength

open Sys2Proof

theorem readConfig (addr : BitVec 32) (len : BitVec 16) (sum : Byte) : Statement (.readConfig addr len sum) := fun _ => rfl

theorem writeConfig (addr : BitVec 32) (len : BitVec 16) (sum : Byte) : Statement (.writeConfig addr len sum) := fun _ => rfl

theorem readDataByte (addr : BitVec 32) (len : BitVec 16) (sum : Byte) : Statement (.readDataByte addr len sum) := fun _ => rfl

theorem writeDataByte (addr : BitVec 32) (len : BitVec 16) (sum : Byte) : Statement (.writeDataByte addr len sum) := fun _ => rfl

theorem readDataBlock (addr : BitVec 32) (len : BitVec 16) (sum : Byte) : Statement (.readDataBlock addr len sum) := fun _ => rfl

theorem writeDataBlock (addr : BitVec 32) (len : BitVec 16) (sum : Byte) : Statement (.writeDataBlock addr len sum) :=
  fun _ => rfl

theorem send (bus cs : Nat) (txBuf : Addr) (txLen : BitVec 32) : Statement (.send bus cs txBuf txLen) := fun _ => rfl

theorem recv (bus cs : Nat) (cmdBuf : Addr) (cmdLen : BitVec 32) (rxBuf : Addr) (rxLen : BitVec 32) :
    Statement (.recv bus cs cmdBuf cmdLen rxBuf rxLen) := fun _ => rfl

theorem sendw (bus cs : Nat) (cmdwBuf : Addr) (cmdwCnt : BitVec 32) (txBuf : Addr) (txLen : BitVec 32) :
    Statement (.sendw bus cs cmdwBuf cmdwCnt txBuf txLen) := fun _ => rfl

theorem recvw (bus cs : Nat) (cmdwBuf : Addr) (cmdwCnt : BitVec 32) (rxBuf : Addr) (rxLen : BitVec 32) :
    Statement (.recvw bus cs cmdwBuf cmdwCnt rxBuf rxLen) := fun _ => rfl

theorem busConfig (bus dbl : Nat) (workMode : BitVec 2) : Statement (.busConfig bus dbl workMode) := fun _ => rfl

theorem nonstdConfig (bus : Nat) (instrLen addrLen waitCycles : BitVec 8) :
    Statement (.nonstdConfig bus instrLen addrLen waitCycles) := fun _ => rfl

theorem slaveConfig (intPin rdyPin dmaCh dbl : Nat) (cfgPtr : Addr) (cfgLen : BitVec 32) (cb : Option Nat) :
    Statement (.slaveConfig intPin rdyPin dmaCh dbl cfgPtr cfgLen cb) := by
  cases cb <;> exact fun _ => rfl

end Sys2Proof.Laws.EncodedLength
end

