-- ==== Sys2Proof/Laws/Pin.lean ====
section
/-! SUPPORT. Laws/Pin.lean: the level of the ready pin and the history are outputs: two states that differ only in them go
on to states that differ only in them. One congruence lemma per operation. -/

namespace Sys2Proof.Machine

/-- Two states that differ at most in the ready pin and the history. -/
structure SameButPin (s t : State) : Prop where
  par : t.par = s.par
  buses : t.buses = s.buses
  slv : t.slv = s.slv
  cmd : t.cmd = s.cmd
  hdr : t.hdr = s.hdr
  mst : t.mst = s.mst
  fatal : t.fatal = s.fatal
  fatalCause : t.fatalCause = s.fatalCause
  dma : t.dma = s.dma
  mem : t.mem = s.mem
  draws : t.draws = s.draws
  sched : t.sched = s.sched

namespace SameButPin

variable {s t : State}

theorem bus (h : SameButPin s t) (i : Nat) : t.bus i = s.bus i := by unfold State.bus; rw [h.buses]

theorem chan (h : SameButPin s t) (c : Nat) : t.chan c = s.chan c := by unfold State.chan; rw [h.dma]

theorem numBus (h : SameButPin s t) : t.numBus = s.numBus := by unfold State.numBus; rw [h.buses]

theorem numDmaCh (h : SameButPin s t) : t.numDmaCh = s.numDmaCh := by unfold State.numDmaCh; rw [h.dma]

theorem frameWidth (h : SameButPin s t) (i : Nat) : Machine.frameWidth i t = Machine.frameWidth i s := by
  unfold Machine.frameWidth; rw [h.bus]

theorem setBus (h : SameButPin s t) (i : Nat) (b : Bus) : SameButPin (s.setBus i b) (t.setBus i b) := by
  unfold State.setBus
  exact ⟨h.par, by rw [h.buses], h.slv, h.cmd, h.hdr, h.mst, h.fatal, h.fatalCause, h.dma, h.mem, h.draws, h.sched⟩

theorem setChan (h : SameButPin s t) (c : Nat) (d : DmaChannel) : SameButPin (s.setChan c d) (t.setChan c d) := by
  unfold State.setChan
  exact ⟨h.par, h.buses, h.slv, h.cmd, h.hdr, h.mst, h.fatal, h.fatalCause, by rw [h.dma], h.mem, h.draws, h.sched⟩

theorem setSlv (h : SameButPin s t) (v : Slave) : SameButPin (s.setSlv v) (t.setSlv v) :=
  ⟨h.par, h.buses, rfl, h.cmd, h.hdr, h.mst, h.fatal, h.fatalCause, h.dma, h.mem, h.draws, h.sched⟩

theorem setCmd (h : SameButPin s t) (d : Descriptor) : SameButPin (s.setCmd d) (t.setCmd d) :=
  ⟨h.par, h.buses, h.slv, rfl, h.hdr, h.mst, h.fatal, h.fatalCause, h.dma, h.mem, h.draws, h.sched⟩

theorem setHdr (h : SameButPin s t) (v : Vector Byte 8) : SameButPin (s.setHdr v) (t.setHdr v) :=
  ⟨h.par, h.buses, h.slv, h.cmd, rfl, h.mst, h.fatal, h.fatalCause, h.dma, h.mem, h.draws, h.sched⟩

theorem setMst (h : SameButPin s t) (m : Master) : SameButPin (s.setMst m) (t.setMst m) :=
  ⟨h.par, h.buses, h.slv, h.cmd, h.hdr, rfl, h.fatal, h.fatalCause, h.dma, h.mem, h.draws, h.sched⟩

theorem setMem (h : SameButPin s t) (m : List Host.Cell) : SameButPin (s.setMem m) (t.setMem m) :=
  ⟨h.par, h.buses, h.slv, h.cmd, h.hdr, h.mst, h.fatal, h.fatalCause, h.dma, rfl, h.draws, h.sched⟩

theorem setSched (h : SameButPin s t) (l : List Action) : SameButPin (s.setSched l) (t.setSched l) :=
  ⟨h.par, h.buses, h.slv, h.cmd, h.hdr, h.mst, h.fatal, h.fatalCause, h.dma, h.mem, h.draws, rfl⟩

theorem note (h : SameButPin s t) (e e' : Event) : SameButPin (s.note e) (t.note e') :=
  ⟨h.par, h.buses, h.slv, h.cmd, h.hdr, h.mst, h.fatal, h.fatalCause, h.dma, h.mem, h.draws, h.sched⟩

theorem drawn (h : SameButPin s t) : SameButPin s.drawn t.drawn :=
  ⟨h.par, h.buses, h.slv, h.cmd, h.hdr, h.mst, h.fatal, h.fatalCause, h.dma, h.mem, congrArg (· + 1) h.draws, h.sched⟩

theorem ite {c : Prop} [Decidable c] {u v : State} (h : SameButPin s t) (h' : SameButPin u v) :
    SameButPin (if c then s else u) (if c then t else v) := by
  split
  · exact h
  · exact h'

/-! ### The named operations -/

theorem memRead (h : SameButPin s t) (a : Addr) (n : Nat) :
    (Machine.memRead a n t).1 = (Machine.memRead a n s).1 ∧ SameButPin (Machine.memRead a n s).2 (Machine.memRead a n t).2 :=
  ⟨by simp only [Machine.memRead, h.mem, h.par], h.note _ _⟩

theorem memWrite (h : SameButPin s t) (a : Addr) (n : Nat) (v : Entry) :
    SameButPin (Machine.memWrite a n v s) (Machine.memWrite a n v t) := by
  unfold Machine.memWrite; rw [h.mem, h.par]; exact (h.setMem _).note _ _

theorem txPush (h : SameButPin s t) (i : Nat) (v : Entry) : SameButPin (Machine.txPush i v s) (Machine.txPush i v t) := by
  unfold Machine.txPush txLevel; rw [h.bus]
  split
  · exact h.setBus _ _
  · exact h.note _ _

theorem rxPop (h : SameButPin s t) (i : Nat) :
    (Machine.rxPop i t).1 = (Machine.rxPop i s).1 ∧ SameButPin (Machine.rxPop i s).2 (Machine.rxPop i t).2 := by
  unfold Machine.rxPop; rw [h.bus]
  cases (s.bus i).rx with
  | nil => exact ⟨congrArg Config.drawEntry h.draws, h.drawn⟩
  | cons e rest => exact ⟨rfl, h.setBus _ _⟩

theorem setEnable (h : SameButPin s t) (i : Nat) (v : Bool) :
    SameButPin (Machine.setEnable i v s) (Machine.setEnable i v t) := by
  unfold Machine.setEnable; rw [h.bus]
  split <;> exact h.setBus _ _

theorem ctrlProgram (h : SameButPin s t) (dir : Dir) (outEn : Bool) (bits : BitVec 6) :
    SameButPin (Machine.ctrlProgram dir outEn bits s) (Machine.ctrlProgram dir outEn bits t) := by
  rw [ctrlProgram_eq, ctrlProgram_eq, h.bus]; exact h.setBus _ _

theorem pinSet (h : SameButPin s t) (level : Bool) : SameButPin (Machine.pinSet level s) (Machine.pinSet level t) := by
  rw [pinSet_eq, pinSet_eq]
  exact ⟨h.par, h.buses, h.slv, h.cmd, h.hdr, h.mst, h.fatal, h.fatalCause, h.dma, h.mem, h.draws, h.sched⟩

theorem setStatus (h : SameButPin s t) (st : SlvStatus) : SameButPin (Machine.setStatus st s) (Machine.setStatus st t) := by
  unfold Machine.setStatus; rw [h.slv]; exact h.setSlv _

theorem setHandler (h : SameButPin s t) (p : Handler) : SameButPin (Machine.setHandler p s) (Machine.setHandler p t) := by
  unfold Machine.setHandler; rw [h.slv]; exact h.setSlv _

theorem leaveOrphans (h : SameButPin s t) : SameButPin (Machine.leaveOrphans s) (Machine.leaveOrphans t) := by
  unfold Machine.leaveOrphans
  exact ⟨h.par, h.buses, h.slv, h.cmd, h.hdr, h.mst, h.fatal, h.fatalCause, by rw [h.dma, h.par], h.mem, h.draws, h.sched⟩

theorem idleRearm (h : SameButPin s t) : SameButPin (Machine.idleRearm s) (Machine.idleRearm t) := by
  have h1 := h.setStatus .idle
  unfold Machine.idleRearm
  simp only [h1.bus]
  exact (h1.ctrlProgram _ _ _).leaveOrphans.pinSet _

theorem raiseAbort (h : SameButPin s t) (c : AbortCause) : SameButPin (Machine.raiseAbort c s) (Machine.raiseAbort c t) :=
  ⟨h.par, h.buses, h.slv, h.cmd, h.hdr, h.mst, rfl, rfl, h.dma, h.mem, h.draws, h.sched⟩

theorem dmaSelect (h : SameButPin s t) (c line : Nat) :
    SameButPin (Machine.dmaSelect c line s) (Machine.dmaSelect c line t) := by
  unfold Machine.dmaSelect; rw [h.chan]; exact (h.setChan _ _).note _ _

theorem dmaArm (h : SameButPin s t) (c : Nat) (src dst : DmaEnd) (sm dm : DmaMode) (burst width length : Nat) :
    SameButPin (Machine.dmaArm c src dst sm dm burst width length s) (Machine.dmaArm c src dst sm dm burst width length t) := by
  unfold Machine.dmaArm; rw [h.chan]; exact (h.setChan _ _).note _ _

/-! ### Units -/

theorem loadBytewise (base : Addr) (j n : Nat) (h : SameButPin s t) :
    (Machine.loadBytewise base j n t).1 = (Machine.loadBytewise base j n s).1 ∧
      SameButPin (Machine.loadBytewise base j n s).2 (Machine.loadBytewise base j n t).2 := by
  induction n generalizing j s t with
  | zero => exact ⟨rfl, h⟩
  | succ n ih =>
    obtain ⟨h1, h2⟩ := h.memRead (wrap s.par.aw (base + j)) 1
    obtain ⟨h3, h4⟩ := ih (j + 1) h2
    simp only [Machine.loadBytewise, h.par, h1, h3, true_and]
    exact h4

theorem loadUnit (h : SameButPin s t) (a : Addr) (k w : Nat) :
    (Machine.loadUnit a k w t).1 = (Machine.loadUnit a k w s).1 ∧
      SameButPin (Machine.loadUnit a k w s).2 (Machine.loadUnit a k w t).2 := by
  unfold Machine.loadUnit
  rw [h.par]
  split
  · exact h.memRead _ _
  · exact loadBytewise _ _ _ h

theorem storeBytewise (base : Addr) (j n : Nat) (e : Entry) (h : SameButPin s t) :
    SameButPin (Machine.storeBytewise base j n e s) (Machine.storeBytewise base j n e t) := by
  induction n generalizing j s t with
  | zero => exact h
  | succ n ih =>
    simp only [Machine.storeBytewise, h.par]
    exact ih (j + 1) (h.memWrite _ _ _)

theorem storeUnit (h : SameButPin s t) (a : Addr) (k w : Nat) (e : Entry) :
    SameButPin (Machine.storeUnit a k w e s) (Machine.storeUnit a k w e t) := by
  unfold Machine.storeUnit
  rw [h.par]
  split
  · exact h.memWrite _ _ _
  · exact storeBytewise _ _ _ _ h

theorem pushUnits (h : SameButPin s t) (bus : Nat) (buf : Addr) (w k n : Nat) :
    SameButPin (Machine.pushUnits bus buf w k n s) (Machine.pushUnits bus buf w k n t) := by
  induction n generalizing k s t with
  | zero => exact h
  | succ n ih =>
    obtain ⟨h1, h2⟩ := h.loadUnit buf k w
    simp only [Machine.pushUnits, h1]
    exact ih (h2.txPush _ _) (k + 1)

theorem popUnits (h : SameButPin s t) (bus : Nat) (buf : Addr) (w k n : Nat) :
    SameButPin (Machine.popUnits bus buf w k n s) (Machine.popUnits bus buf w k n t) := by
  induction n generalizing k s t with
  | zero => exact h
  | succ n ih =>
    obtain ⟨h1, h2⟩ := h.rxPop bus
    simp only [Machine.popUnits, h1]
    exact ih (h2.storeUnit _ _ _ _) (k + 1)

/-! ### The slave role -/

theorem popHeader (h : SameButPin s t) (w n : Nat) :
    (Machine.popHeader w n t).1 = (Machine.popHeader w n s).1 ∧
      SameButPin (Machine.popHeader w n s).2 (Machine.popHeader w n t).2 := by
  induction n generalizing s t with
  | zero => exact ⟨rfl, h⟩
  | succ n ih =>
    obtain ⟨h1, h2⟩ := h.rxPop 2
    obtain ⟨h3, h4⟩ := ih h2
    refine ⟨?_, h4⟩
    simp only [Machine.popHeader, slaveBus_eq, h1, h3]

theorem fetchHeader (h : SameButPin s t) : SameButPin (Machine.fetchHeader s) (Machine.fetchHeader t) := by
  obtain ⟨h1, h2⟩ := h.popHeader (Machine.frameWidth 2 s) (8 / Machine.frameWidth 2 s)
  simp only [Machine.fetchHeader, slaveBus_eq, Config.hdrLen, h.frameWidth, h1]
  exact h2.setHdr _

theorem latchCommand (h : SameButPin s t) (op : Byte) (addr : BitVec 32) (len : BitVec 16) :
    SameButPin (Machine.latchCommand op addr len s) (Machine.latchCommand op addr len t) := h.setCmd _

theorem unitCount (h : SameButPin s t) : Machine.unitCount t = Machine.unitCount s := by
  simp only [Machine.unitCount, h.cmd, h.frameWidth]

theorem setupOf (h : SameButPin s t) (i : Instr) : SameButPin (Machine.setupOf i s) (Machine.setupOf i t) := by
  have hp : ∀ src, SameButPin (Machine.preload src s) (Machine.preload src t) := by
    intro src
    have h1 := h.ctrlProgram .transmitOnly true (s.bus 2).dbl
    simp only [Machine.preload, slaveBus_eq, h.bus]
    rw [h1.frameWidth, h1.unitCount]
    exact h1.pushUnits _ _ _ _ _
  cases i with
  | readConfig => simp only [Machine.setupOf, cfgAddr, h.par, h.slv, h.cmd]; exact hp _
  | readDataByte => simp only [Machine.setupOf, rawAddr, h.par, h.cmd]; exact hp _
  | writeConfig => simp only [Machine.setupOf, receive, slaveBus_eq, h.bus]; exact h.ctrlProgram _ _ _
  | writeDataByte => simp only [Machine.setupOf, receive, slaveBus_eq, h.bus]; exact h.ctrlProgram _ _ _
  | readDataBlock =>
    have h1 := h.ctrlProgram .transmitOnly true 32
    have h2 := h1.dmaSelect (Machine.ctrlProgram .transmitOnly true 32 s).slv.dmaCh
      (reqLine (Machine.ctrlProgram .transmitOnly true 32 s).par 2 .tx)
    simp only [Machine.setupOf, armRead, slaveBus_eq, rawAddr, blockBytes]
    rw [h1.slv, h1.par, h2.slv, h2.cmd, h2.par]
    exact h2.dmaArm _ _ _ _ _ _ _ _
  | writeDataBlock =>
    have h1 := h.ctrlProgram .receiveOnly false 32
    have h2 := h1.dmaSelect (Machine.ctrlProgram .receiveOnly false 32 s).slv.dmaCh
      (reqLine (Machine.ctrlProgram .receiveOnly false 32 s).par 2 .rx)
    simp only [Machine.setupOf, armWrite, slaveBus_eq, blockAddr, blockBytes]
    rw [h1.slv, h1.par, h2.slv, h2.cmd, h2.par]
    exact h2.dmaArm _ _ _ _ _ _ _ _
  | send => exact h
  | recv => exact h
  | sendw => exact h
  | recvw => exact h
  | busConfig => exact h
  | nonstdConfig => exact h
  | slaveConfig => exact h

theorem failWith (h : SameButPin s t) (failed : Bool) (code : Byte) :
    SameButPin (Machine.failWith failed code s) (Machine.failWith failed code t) := by
  unfold Machine.failWith; rw [h.cmd]
  split
  · exact h.setCmd _
  · exact h

theorem checkTx (h : SameButPin s t) : SameButPin (Machine.checkTx s) (Machine.checkTx t) := by
  unfold Machine.checkTx txLevel; rw [h.bus, h.par]; exact h.failWith _ _

theorem checkRx (h : SameButPin s t) : SameButPin (Machine.checkRx s) (Machine.checkRx t) := by
  unfold Machine.checkRx rxLevel; rw [h.bus, h.unitCount, h.par]; exact h.failWith _ _

theorem checkDma (h : SameButPin s t) : SameButPin (Machine.checkDma s) (Machine.checkDma t) := by
  unfold Machine.checkDma dmaDone; rw [h.slv, h.chan]; exact h.failWith _ _

theorem commit (h : SameButPin s t) (dst : Addr) : SameButPin (Machine.commit dst s) (Machine.commit dst t) := by
  unfold Machine.commit; rw [h.frameWidth, h.unitCount]; exact h.popUnits _ _ _ _ _

theorem completionOf (h : SameButPin s t) (i : Instr) : SameButPin (Machine.completionOf i s) (Machine.completionOf i t) := by
  cases i with
  | readConfig => exact h.checkTx
  | readDataByte => exact h.checkTx
  | writeConfig => simp only [Machine.completionOf, cfgAddr, h.par, h.slv, h.cmd]; exact h.checkRx.commit _
  | writeDataByte => simp only [Machine.completionOf, rawAddr, h.par, h.cmd]; exact h.checkRx.commit _
  | readDataBlock => exact h.checkDma
  | writeDataBlock => exact h.checkDma
  | send => exact h
  | recv => exact h
  | sendw => exact h
  | recvw => exact h
  | busConfig => exact h
  | nonstdConfig => exact h
  | slaveConfig => exact h

/-! ### The master role -/

theorem setPhase (h : SameButPin s t) (p : MstPhase) : SameButPin (Machine.setPhase p s) (Machine.setPhase p t) := by
  unfold Machine.setPhase; rw [h.mst]; exact h.setMst _

theorem assertCs (h : SameButPin s t) : SameButPin (Machine.assertCs s) (Machine.assertCs t) := by
  unfold Machine.assertCs; rw [h.mst, h.bus]; exact h.setBus _ _

theorem recvPrefix (h : SameButPin s t) (w n : Nat) :
    SameButPin (Machine.recvPrefix w n s) (Machine.recvPrefix w n t) := by
  unfold Machine.recvPrefix; rw [h.mst]
  refine (assertCs ?_).setPhase _
  split
  · exact h.txPush _ _
  · exact h.pushUnits _ _ _ _ _

theorem leaveLoop (h : SameButPin s t) (p : MstPhase) : SameButPin (Machine.leaveLoop p s) (Machine.leaveLoop p t) := by
  unfold Machine.leaveLoop; rw [h.mst]
  split
  · exact h.setPhase _
  · exact h

theorem advance (h : SameButPin s t) (units taken : Nat) :
    SameButPin (Machine.advance units taken s) (Machine.advance units taken t) := by
  unfold Machine.advance; rw [h.mst]; exact h.setMst _

theorem phaseStep (h : SameButPin s t) (p : MstPhase) : SameButPin (Machine.phaseStep p s) (Machine.phaseStep p t) := by
  cases p with
  | idle => exact h
  | cmd =>
    simp only [Machine.phaseStep, masterCmd, h.mst]
    cases s.mst.op with
    | send => exact h.setPhase _
    | sendw => exact (h.pushUnits _ _ _ _ _).setPhase _
    | recv => exact h.recvPrefix _ _
    | recvw => exact h.recvPrefix _ _
  | fill =>
    simp only [Machine.phaseStep, masterFill, fillBytes, txLevel, h.mst, h.bus]
    exact ((h.pushUnits _ _ _ _ _).advance _ _).leaveLoop _
  | wait =>
    simp only [Machine.phaseStep, masterWait, txDone, tfe, h.mst, h.bus]
    exact .ite (h.setPhase _) h
  | drain =>
    simp only [Machine.phaseStep, masterDrain, drainCount, rxLevel, h.mst, h.bus]
    exact ((h.popUnits _ _ _ _ _).advance _ _).leaveLoop _
  | fin =>
    simp only [Machine.phaseStep, masterEnd, h.mst, h.bus]
    exact ((h.setBus _ _).setEnable _ _).setPhase _

theorem newInstance (h : SameButPin s t) (ip rp ch dbl : Nat) (ptr : Addr) (len : BitVec 32) (cb : Option Nat) :
    SameButPin (Machine.newInstance ip rp ch dbl ptr len cb s) (Machine.newInstance ip rp ch dbl ptr len cb t) := by
  rw [newInstance_eq, newInstance_eq, h.bus, h.slv, h.par]
  have := h.setBus 2 { s.bus 2 with dbl := BitVec.ofNat 6 dbl, dblWritten := true }
  exact ⟨this.par, this.buses, rfl, this.cmd, this.hdr, this.mst, this.fatal, this.fatalCause, this.dma, this.mem, this.draws,
    this.sched⟩

theorem closed (h : SameButPin s t) : Machine.closed t = Machine.closed s := by
  simp only [Machine.closed, h.fatal, h.slv, h.mst]

theorem validate (h : SameButPin s t) (bus cs : Nat) : Machine.validate bus cs t = Machine.validate bus cs s := by
  simp only [Machine.validate, h.closed, h.numBus, h.par]

/-! ### The environment -/

theorem wireOut (h : SameButPin s t) (i : Nat) : SameButPin (Machine.wireOut i s) (Machine.wireOut i t) := by
  unfold Machine.wireOut; rw [h.bus]
  split
  · exact (h.setBus _ _).note _ _
  · exact h

theorem wireIn (h : SameButPin s t) (i : Nat) (e : Entry) : SameButPin (Machine.wireIn i e s) (Machine.wireIn i e t) := by
  unfold Machine.wireIn rxLevel; rw [h.bus]
  split
  · split
    · exact (h.setBus _ _).note _ _
    · exact h.note _ _
  · exact h

theorem dmaBeat (h : SameButPin s t) (c : Nat) : SameButPin (Machine.dmaBeat c s) (Machine.dmaBeat c t) := by
  simp only [Machine.dmaBeat, rxLevel, txLevel, h.chan, h.bus, h.par]
  split
  · split
    · obtain ⟨h1, h2⟩ := h.rxPop Config.slaveBus
      rw [h1]
      exact .ite ((h2.memWrite _ _ _).setChan _ _) h
    · rename_i a _ _ _
      obtain ⟨h1, h2⟩ := h.memRead a 4
      rw [h1]
      exact .ite ((h2.txPush _ _).setChan _ _) h
    · exact h
  · exact h

end SameButPin

/-- Two outcomes that are the same but for the pin and the history. -/
def SameOutcome : Host.Outcome State Fault Refusal → Host.Outcome State Fault Refusal → Prop
  | .next s, .next t => SameButPin s t
  | .fault f, .fault g => f = g
  | .refused r, .refused q => r = q
  | _, _ => False

theorem SameOutcome.onVerdict {s t : State} (h : SameButPin s t) (v : Verdict)
    {o o' : Host.Outcome State Fault Refusal} (ho : SameOutcome o o') :
    SameOutcome (Machine.onVerdict v s o) (Machine.onVerdict v t o') := by
  cases v with
  | accept => exact ho
  | turnAway => exact h
  | abort c => exact h.raiseAbort c

theorem SameOutcome.withWidth {s t u v : State} (h : SameButPin s t) (bus : Nat) (hu : SameButPin u v) :
    SameOutcome (Machine.withWidth bus s u) (Machine.withWidth bus t v) := by
  unfold Machine.withWidth; rw [h.bus]
  split
  · exact hu
  · exact rfl

theorem SameOutcome.commandPhase {s t : State} (h : SameButPin s t) (op : Byte) (nonBlock : Bool) (i : Instr)
    (addr : BitVec 32) (len : BitVec 16) (sum : Byte) :
    SameButPin (Machine.commandPhase op nonBlock (setupOf i) addr len sum s)
      (Machine.commandPhase op nonBlock (setupOf i) addr len sum t) := by
  unfold Machine.commandPhase
  split
  · exact h.idleRearm
  · split
    · exact (h.latchCommand _ _ _).idleRearm
    · exact (((h.latchCommand op addr len).setStatus .transfer).setupOf i).pinSet false

/-- `exec` never reads the pin or the history. -/
theorem SameOutcome.exec {s t : State} (h : SameButPin s t) (i : Instr) :
    SameOutcome (Machine.exec i s) (Machine.exec i t) := by
  have hw : ∀ addr len sum, i ∈ wireCommands addr len sum → SameOutcome (Machine.exec i s) (Machine.exec i t) := by
    intro addr len sum hi
    by_cases hs : s.slv.status = .transfer
    · rw [exec_transfer hi hs, exec_transfer hi (h.slv ▸ hs)]
      exact (h.completionOf i).leaveOrphans.setHandler _
    · rw [exec_command hi hs, exec_command hi (h.slv ▸ hs), h.par]
      exact SameOutcome.commandPhase h _ _ i addr len sum
  cases i with
  | readConfig addr len sum => exact hw addr len sum (by simp [wireCommands])
  | writeConfig addr len sum => exact hw addr len sum (by simp [wireCommands])
  | readDataByte addr len sum => exact hw addr len sum (by simp [wireCommands])
  | writeDataByte addr len sum => exact hw addr len sum (by simp [wireCommands])
  | readDataBlock addr len sum => exact hw addr len sum (by simp [wireCommands])
  | writeDataBlock addr len sum => exact hw addr len sum (by simp [wireCommands])
  | send bus cs buf len =>
    simp only [Machine.exec, execSend, openSend, h.par, h.validate, h.bus, h.frameWidth, h.mst]
    exact .onVerdict h _ (.withWidth h _ ((h.setBus _ _).setMst _))
  | sendw bus cs p n q m =>
    simp only [Machine.exec, execSendw, openSend, h.par, h.validate, h.bus, h.frameWidth]
    exact .onVerdict h _ (.withWidth h _ ((h.setBus _ _).setMst _))
  | recv bus cs p n q m =>
    simp only [Machine.exec, execRecv, openRecv, frames, h.par, h.validate, h.bus, h.frameWidth]
    exact .onVerdict h _ (.withWidth h _ ((h.setBus _ _).setMst _))
  | recvw bus cs p n q m =>
    simp only [Machine.exec, execRecvw, openRecv, frames, h.par, h.validate, h.bus, h.frameWidth]
    exact .onVerdict h _ (.withWidth h _ ((h.setBus _ _).setMst _))
  | busConfig bus dbl wm =>
    simp only [Machine.exec, execBusConfig, call, h.validate, h.bus]
    exact .onVerdict h _ ((h.note _ _).setBus _ _)
  | nonstdConfig bus il al wc =>
    simp only [Machine.exec, execNonstdConfig, h.par, h.validate, h.bus]
    exact .onVerdict h _ (h.setBus _ _)
  | slaveConfig ip rp ch dbl ptr len cb =>
    simp only [Machine.exec, execSlaveConfig, validateSlave, h.closed, h.numBus, h.numDmaCh]
    exact .onVerdict h _ (h.newInstance _ _ _ _ _ _ _).idleRearm

theorem SameOutcome.runHeader {s t : State} (h : SameButPin s t) :
    SameOutcome (Machine.runHeader s) (Machine.runHeader t) := by
  have hf := h.fetchHeader
  simp only [Machine.runHeader, hf.hdr, h.par]
  cases decode s.par.opc .hdr (fetchHeader s).hdr.toList with
  | ok i => exact .exec hf i
  | error =>
    simp only [rejectHeader, rejectUnknown, hf.hdr]
    split
    · exact hf.idleRearm
    · exact (hf.latchCommand _ _ _).idleRearm

theorem SameOutcome.slaveStep {s t : State} (h : SameButPin s t) :
    SameOutcome (Machine.slaveStep s) (Machine.slaveStep t) := by
  simp only [Machine.slaveStep, h.fatal, h.slv]
  split
  · exact h
  · split
    · split
      · have ha : SameButPin (acknowledge s) (acknowledge t) := by
          simp only [acknowledge, h.slv]; exact h.setSlv _
        simp only [edgeHandler, ha.slv]
        split
        · exact ha.setStatus _
        · exact SameOutcome.runHeader ha
        · simp only [runCompletion, latchedHeader, ha.cmd, ha.par]
          split
          · exact .exec ha _
          · exact ha.leaveOrphans.setHandler _
      · exact h
    · simp only [transferT2, h.slv, h.cmd]
      cases s.slv.cb with
      | none => exact h.setHandler _
      | some _ => exact (h.setHandler _).note _ _
    · exact h
    · exact h.idleRearm.setHandler _

/-- A turn never reads the pin or the history. -/
theorem SameOutcome.turn {s t : State} (h : SameButPin s t) (a : Action) :
    SameOutcome (Machine.turn a s) (Machine.turn a t) := by
  cases a with
  | request bytes =>
    simp only [Machine.turn, request, h.par]
    cases decode s.par.opc .hreq bytes with
    | ok i => exact .exec h i
    | error => exact h
  | hostWrite a b => simp only [Machine.turn, hostWrite, h.mem, h.par]; exact h.setMem _
  | callbackReturn =>
    simp only [Machine.turn, callbackReturn, h.slv]
    split
    · exact h.setSlv _
    · exact h
  | master =>
    simp only [Machine.turn, masterStep_eq, h.fatal, h.mst]
    split
    · exact h
    · exact h.phaseStep _
  | slave => exact .slaveStep h
  | linkOut i =>
    simp only [Machine.turn, linkOut_eq, h.numBus]
    exact .ite (h.wireOut i) h
  | linkIn i e =>
    simp only [Machine.turn, linkIn_eq, h.numBus]
    exact .ite (h.wireIn i e) h
  | linkBusy i b => simp only [Machine.turn, linkBusy, h.bus]; exact h.setBus _ _
  | edge =>
    simp only [Machine.turn, raiseEdge, h.slv]
    split
    · exact (h.setSlv _).note _ _
    · exact h.note _ _
  | remoteIn e => exact h.wireIn _ e
  | remoteOut => exact h.wireOut _
  | dma c => exact h.dmaBeat c

/-- A step never reads the pin or the history. -/
theorem SameOutcome.step {s t : State} (h : SameButPin s t) : SameOutcome (Machine.step s) (Machine.step t) := by
  simp only [Machine.step, stepTurn, h.sched]
  split
  · exact h
  · exact .turn (h.setSched _) _

end Sys2Proof.Machine
end

