-- ==== Sys2Proof/Tests/Slice0.lean ====
section
/-! SUPPORT. Tests/Slice0.lean: the model's own tests. Expected values are from 95_test_vectors.md (named V-..., P...) or
worked by hand from the rules; none is the model's own answer. -/

namespace Sys2Proof.Tests

open Sys2Proof Sys2Proof.Machine

/-! ### WellFormed refuses each ill-formed term -/

/-- V-HDR-11: the sum is 0D, not 0E. -/
theorem smoke_bad_checksum : WellFormed .default (.writeConfig 4 8 0x0E) = false := by decide
/-- V-HDR-5: length 9 of a non-block command; the checksum 0A is good. -/
theorem smoke_length_nine : WellFormed .default (.writeConfig 0 9 0x0A) = false := by decide
/-- V-HDR-10: length field 0 stands for 65536. -/
theorem smoke_length_zero : WellFormed .default (.writeConfig 0 0 1) = false := by decide
theorem smoke_read_config : WellFormed .default (.readConfig 0 9 9) = false := by decide
theorem smoke_read_byte : WellFormed .default (.readDataByte 0 9 0x0B) = false := by decide
theorem smoke_write_byte : WellFormed .default (.writeDataByte 0 9 0x0C) = false := by decide
theorem smoke_read_block : WellFormed .default (.readDataBlock 0 1 0) = false := by decide
theorem smoke_write_block : WellFormed .default (.writeDataBlock 0 1 0) = false := by decide
theorem smoke_bus_too_wide : WellFormed .default (.send (2 ^ 64) 0 0 0) = false := by decide
theorem smoke_address_too_wide : WellFormed .default (.send 0 0 (2 ^ 64) 0) = false := by decide
theorem smoke_cs_too_wide : WellFormed .default (.recv 0 (2 ^ 64) 0 0 0 0) = false := by decide
theorem smoke_sendw_bus : WellFormed .default (.sendw (2 ^ 64) 0 0 0 0 0) = false := by decide
theorem smoke_recvw_cs : WellFormed .default (.recvw 0 (2 ^ 64) 0 0 0 0) = false := by decide
theorem smoke_bus_config : WellFormed .default (.busConfig (2 ^ 64) 8 0) = false := by decide
theorem smoke_bus_config_dbl : WellFormed .default (.busConfig 0 (2 ^ 64) 0) = false := by decide
theorem smoke_nonstd : WellFormed .default (.nonstdConfig (2 ^ 64) 8 24 0) = false := by decide
theorem smoke_int_pin : WellFormed .default (.slaveConfig (2 ^ 64) 13 0 32 0 64 none) = false := by decide
theorem smoke_rdy_pin : WellFormed .default (.slaveConfig 12 (2 ^ 64) 0 32 0 64 none) = false := by decide
theorem smoke_dma_ch : WellFormed .default (.slaveConfig 12 13 (2 ^ 64) 32 0 64 none) = false := by decide
theorem smoke_slave_dbl : WellFormed .default (.slaveConfig 12 13 0 (2 ^ 64) 0 64 none) = false := by decide
theorem smoke_cfg_ptr : WellFormed .default (.slaveConfig 12 13 0 32 (2 ^ 64) 64 none) = false := by decide
theorem smoke_callback : WellFormed .default (.slaveConfig 12 13 0 32 0 64 (some (2 ^ 64))) = false := by decide
/-- V-HDR-3 and V-HDR-4 are accepted. -/
theorem smoke_block_accepted : WellFormed .default (.writeDataBlock 0x80001237 4 0xD2) = true := by decide
theorem smoke_block_max_accepted : WellFormed .default (.writeDataBlock 0x80001237 0 0xCE) = true := by decide
/-- A data-bit-length that the operation aborts on can be written in a request. -/
theorem smoke_bad_dbl_accepted : WellFormed .default (.busConfig 0 64 0) = true := by decide

/-! ### Decoding, from bytes written out -/

/-- V-HDR-2: 00 02 00 00 00 04 00 06. -/
theorem test_decode_read_config : decodeHeader .default [0x00, 0x02, 0x00, 0x00, 0x00, 0x04, 0x00, 0x06]
    = .ok (.readConfig 0x2 4 0x06) := by decide
/-- V-HDR-1: 01 04 00 00 00 08 00 0D. -/
theorem test_decode_write_config : decodeHeader .default [0x01, 0x04, 0x00, 0x00, 0x00, 0x08, 0x00, 0x0D]
    = .ok (.writeConfig 0x4 8 0x0D) := by decide
/-- V-HDR-8: 02 00 10 00 00 04 00 16. -/
theorem test_decode_read_data_byte : decodeHeader .default [0x02, 0x00, 0x10, 0x00, 0x00, 0x04, 0x00, 0x16]
    = .ok (.readDataByte 0x1000 4 0x16) := by decide
/-- V-HDR-7: 03 01 20 00 00 04 00 28. -/
theorem test_decode_write_data_byte : decodeHeader .default [0x03, 0x01, 0x20, 0x00, 0x00, 0x04, 0x00, 0x28]
    = .ok (.writeDataByte 0x2001 4 0x28) := by decide
/-- V-HDR-6: 04 00 20 00 80 02 00 A6. -/
theorem test_decode_read_data_block : decodeHeader .default [0x04, 0x00, 0x20, 0x00, 0x80, 0x02, 0x00, 0xA6]
    = .ok (.readDataBlock 0x80002000 2 0xA6) := by decide
/-- V-HDR-3: 05 37 12 00 80 04 00 D2. -/
theorem test_decode_write_data_block : decodeHeader .default [0x05, 0x37, 0x12, 0x00, 0x80, 0x04, 0x00, 0xD2]
    = .ok (.writeDataBlock 0x80001237 4 0xD2) := by decide
/-- V-HDR-9: opcode byte 06 is none of the six. -/
theorem test_decode_unknown : decodeHeader .default [0x06, 0x00, 0x00, 0x00, 0x00, 0x01, 0x00, 0x07]
    = .error (.unknownOpcode 0x06) := by decide
/-- V-HDR-12: the checksum wraps, 7 * 255 = 1785 = 0x6F9. -/
theorem test_checksum_wraps : headerSum 0xFF 0xFFFFFFFF 0xFFFF = 0xF9 := by decide
/-- V-HDR-1 encoded. -/
theorem test_encode_write_config : encodeHdr 0x01 0x4 8 = [0x01, 0x04, 0x00, 0x00, 0x00, 0x08, 0x00, 0x0D] := by decide

/-- Another legal OPC (R95): 10, 20, 30, 40 below 50, 60. -/
def otherOpc : Opc := ⟨0x10, 0x20, 0x30, 0x40, 0x50, 0x60⟩
/-- Under it byte 20 is WRITE_CONFIG, and byte 01 is none of the six. -/
theorem test_decode_other_opc : otherOpc.Legal ∧
    decodeHeader otherOpc [0x20, 0x04, 0x00, 0x00, 0x00, 0x08, 0x00, 0x2C] = .ok (.writeConfig 4 8 0x2C) ∧
    decodeHeader otherOpc [0x01, 0x04, 0x00, 0x00, 0x00, 0x08, 0x00, 0x0D] = .error (.unknownOpcode 0x01) := by decide

/-- A request record: the low bytes of each of its words, the low one first, the rest of its 72 bytes 0 (log entry 12). -/
def record (words : List (List Byte)) : List Byte :=
  words.flatMap (fun w => w ++ List.replicate (8 - w.length) 0) ++ List.replicate (72 - 8 * words.length) 0

/-- P1 (2): SEND(0, 1, 0x1001, 40). -/
theorem test_decode_send : decodeRequest (record [[0], [0], [1], [0x01, 0x10], [40]]) = .ok (.send 0 1 0x1001 40) := by
  decide
/-- V-RECV-1: RECV(0, 0, 0x1000, 1, 0x2000, 3). -/
theorem test_decode_recv : decodeRequest (record [[1], [0], [0], [0x00, 0x10], [1], [0x00, 0x20], [3]])
    = .ok (.recv 0 0 0x1000 1 0x2000 3) := by decide
/-- V-SENDW-1: SENDW(0, 0, 0x3000, 1, 0x1000, 2). -/
theorem test_decode_sendw : decodeRequest (record [[2], [0], [0], [0x00, 0x30], [1], [0x00, 0x10], [2]])
    = .ok (.sendw 0 0 0x3000 1 0x1000 2) := by decide
/-- V-RECVW-1: RECVW(1, 0, 0x3000, 2, 0x2000, 8). -/
theorem test_decode_recvw : decodeRequest (record [[3], [1], [0], [0x00, 0x30], [2], [0x00, 0x20], [8]])
    = .ok (.recvw 1 0 0x3000 2 0x2000 8) := by decide
/-- P1 (1): BUS_CONFIG(0, 7, 0). -/
theorem test_decode_bus_config : decodeRequest (record [[4], [0], [7], [0]]) = .ok (.busConfig 0 7 0) := by decide
/-- V-CFG-3: NONSTD_CONFIG(0, 8, 24, 0). -/
theorem test_decode_nonstd : decodeRequest (record [[5], [0], [8], [24], [0]]) = .ok (.nonstdConfig 0 8 24 0) := by decide
/-- S(32) of 95_test_vectors.md: SLAVE_CONFIG(12, 13, 0, 32, 0x80000000, 64, cb), with handle 5 for cb. -/
theorem test_decode_slave_config :
    decodeRequest (record [[6], [12], [13], [0], [32], [0, 0, 0, 0x80], [64], [1], [5]])
      = .ok (.slaveConfig 12 13 0 32 0x80000000 64 (some 5)) := by decide
/-- Code 7 is no request (R102); work_mode has two bits (R103), and 4 has a third. -/
theorem test_decode_no_request : decodeRequest (record [[7]]) = .error (.unknownRequest 7) := by decide
theorem test_decode_stray_bit : decodeRequest (record [[4], [0], [7], [4]]) = .error .strayBits := by decide
/-- R103 gives dbl no width: 64 and more reach the operation. -/
theorem test_decode_wide_dbl : decodeRequest (record [[4], [0], [0, 0, 0, 0, 1]]) = .ok (.busConfig 0 (2 ^ 32) 0) := by decide

/-! ### States to test on -/

/-- The state an outcome goes on with. -/
def after (o : Host.Outcome State Fault Refusal) : State :=
  match o with
  | .next t => t
  | _ => State.reset

/-- The start state S(dbl) of 95_test_vectors.md, less the 64 bytes of the buffer. -/
def started (dbl : Nat) : State := after (execSlaveConfig 12 13 0 dbl 0x80000000 64 (some 5) State.reset)

/-- Reset, then BUS_CONFIG(bus, dbl, 0). -/
def bussed (bus dbl : Nat) : State := after (execBusConfig bus dbl 0 State.reset)

/-- `started dbl` after the first edge, with entries in the receive FIFO, and the second edge raised. -/
def headed (dbl : Nat) (es : List Entry) : State :=
  let s := started dbl
  let s := s.setBus 2 { s.bus 2 with rx := es }
  s.setSlv { s.slv with status := .command, edgePend := true }

/-- Memory holding bytes from an address on. -/
def withBytes (a : Nat) (bs : List Byte) (s : State) : State :=
  s.setMem ((List.range bs.length).foldl (fun m i => insert m (a + i) (bs.getD i 0)) s.mem)

/-- A state under other parameters (00_scope.md R9). -/
def withPar (p : Params) (s : State) : State := { s with par := p }

/-! ### The classifier, units (V-CLS, V-LU, V-SU) -/

theorem test_classify_bounds : [7, 8, 15, 16, 32].map classify = [.byte, .halfWord, .halfWord, .word, .word] := by decide
theorem test_frame_bytes : [0, 7, 8, 15, 16, 33].map frameBytes = [1, 1, 2, 2, 4, 4] := by decide
/-- V-LU-1. -/
theorem test_load_aligned : (loadUnit 0x1000 0 4 (withBytes 0x1000 [0x11, 0x22, 0x33, 0x44] State.reset)).1 = 0x44332211 := by
  decide
/-- V-LU-2: four one-byte reads. -/
theorem test_load_misaligned :
    (loadUnit 0x1002 0 4 (withBytes 0x1002 [0x10, 0x11, 0x12, 0x13] State.reset)).1 = 0x13121110 := by decide
theorem test_load_misaligned_reads :
    (loadUnit 0x1002 0 4 (withBytes 0x1002 [0x10, 0x11, 0x12, 0x13] State.reset)).2.hist
      = [.memR 0x1005 1, .memR 0x1004 1, .memR 0x1003 1, .memR 0x1002 1] := by decide
/-- V-SU-1: one two-byte write. -/
theorem test_store_aligned : (storeUnit 0x2000 1 2 0xAABBCCDD State.reset).mem = [(0x2002, 0xDD), (0x2003, 0xCC)] := by decide
/-- V-SU-2: addresses wrap. -/
theorem test_store_wraps : (storeUnit 0xFFFFFFFE 0 4 0x04030201 State.reset).mem
    = [(0, 0x03), (1, 0x04), (0xFFFFFFFE, 0x01), (0xFFFFFFFF, 0x02)] := by decide
/-- With AW = 33 the same store does not wrap. -/
theorem test_store_wider_address :
    (storeUnit 0xFFFFFFFE 0 4 0x04030201 (withPar { Params.default with aw := 33 } State.reset)).mem
    = [(0xFFFFFFFE, 0x01), (0xFFFFFFFF, 0x02), (0x100000000, 0x03), (0x100000001, 0x04)] := by decide

/-! ### The thirteen operations -/

/-- V-SEND-1 S1: CS = 0b0010, DIR = TRANSMIT_ONLY, EN = 1. -/
theorem test_send_setup : (after (execSend 0 1 0x1001 40 (bussed 0 7))).bus 0
    = { (bussed 0 7).bus 0 with cs := 0b0010, dir := .transmitOnly, en := true } := by decide
/-- V-SEND-6: the slave bus aborts with cause 2. -/
theorem test_send_slave_bus : (after (execSend 2 0 0x1000 4 (bussed 0 7))).fatalCause = 2 := by decide
/-- V-RECV-1 V1: READ_AFTER_WRITE, RXCNT = 2, and no chip-select yet. -/
theorem test_recv_setup : (after (execRecv 0 0 0x1000 1 0x2000 3 (bussed 0 7))).bus 0
    = { (bussed 0 7).bus 0 with dir := .readAfterWrite, rxcnt := 2, en := true } := by decide
/-- V-RECV-4: rx_len = 3 with W = 4 gives a receive count of 0xFFFFFFFF. -/
theorem test_recv_short : ((after (execRecv 0 0 0 0 0x2000 3 (bussed 0 16))).bus 0).rxcnt = 0xFFFFFFFF := by decide
/-- V-SENDW-1: step C pushes 0x00000002 as one entry. -/
theorem test_sendw_words : ((masterStep (after (execSendw 0 0 0x3000 1 0x1000 2
    (withBytes 0x3000 [2, 0, 0, 0] (bussed 0 7))))).bus 0).tx = [2] := by decide
/-- V-RECVW-1: the two command words, and the chip-select after them. -/
theorem test_recvw_words : (fun b => (b.tx, b.cs)) ((masterStep (after (execRecvw 1 0 0x3000 2 0x2000 8
    (withBytes 0x3000 [0x0B, 0, 0, 0, 0, 0x10, 0, 0] (bussed 1 32))))).bus 1) = ([0x0B, 0x1000], 0b0001) := by decide
/-- V-CFG-1, and V-CFG-2: 33 bits is BadConfig, cause 4; so are 64 bits and more (D2). -/
theorem test_bus_config : frameWidth 0 (bussed 0 8) = 2 := by decide
theorem test_bus_config_bad : [33, 64, 2 ^ 32 + 8].map (fun dbl => (after (execBusConfig 0 dbl 0 State.reset)).fatalCause)
    = [4, 4, 4] := by decide
/-- V-CFG-3: 8, 24, 0 accepted; 62 is no multiple of 4. -/
theorem test_nonstd : ((after (execNonstdConfig 0 8 24 0 State.reset)).bus 0).addrLen = 24 := by decide
theorem test_nonstd_bad : (after (execNonstdConfig 0 8 62 0 State.reset)).fatalCause = 3 := by decide
/-- V-CFG-4: the history after SLAVE_CONFIG from reset, newest first; channel 6 is BadConfig, and so are 64 bits. -/
theorem test_slave_config : (started 32).hist = [.pin 13 true, .collab .intcEnable, .collab .intcRegister,
    .collab .intcSetPriority, .collab (.registerEdgeCallback 12), .collab (.setEdgeTriggerRising 12),
    .collab (.setDriveMode 12 false), .collab (.setDriveMode 13 true), .collab (.clockEnable 2)] := by decide
theorem test_slave_config_bad :
    [(6, 32), (0, 64)].map (fun x => (after (execSlaveConfig 12 13 x.1 x.2 0x80000000 64 none State.reset)).fatalCause)
      = [4, 4] := by decide

/-- P4 (READ_CONFIG 0x2, 4 with 7-bit frames): four entries C2, C3, C4, C5. -/
theorem test_read_config : ((after (execReadConfig 2 4 6
    (withBytes 0x80000002 [0xC2, 0xC3, 0xC4, 0xC5] (headed 7 [])))).bus 2).tx = [0xC2, 0xC3, 0xC4, 0xC5] := by decide
/-- V-SLV-3 variant: nothing clocked out before the closing edge gives error 2. -/
theorem test_read_byte_undrained : (after (execReadDataByte 0x1000 4 0x16
    (setStatus .transfer ((started 16).setBus 2 { (started 16).bus 2 with tx := [0xEFBEADDE] })))).cmd.err = 2 := by decide
/-- V-SLV-3: one entry 0xEFBEADDE. -/
theorem test_read_byte : ((after (execReadDataByte 0x1000 4 0x16
    (withBytes 0x1000 [0xDE, 0xAD, 0xBE, 0xEF] (headed 16 [])))).bus 2).tx = [0xEFBEADDE] := by decide
/-- V-SLV-2: the commit of a misaligned write of two half-words. -/
theorem test_write_byte_commit : (after (execWriteDataByte 0x2001 4 0x28
    ((setStatus .transfer ((started 8).setBus 2 { (started 8).bus 2 with rx := [0xBBAA, 0xDDCC] })).setCmd
      ⟨3, 0x2001, 4, 0⟩))).mem = [(0x2001, 0xAA), (0x2002, 0xBB), (0x2003, 0xCC), (0x2004, 0xDD)] := by decide
/-- P2: the commit of WRITE_CONFIG 0x4, 8 goes to CFG_PTR + 4. -/
theorem test_write_config_commit : (after (execWriteConfig 4 8 0x0D
    ((setStatus .transfer ((started 32).setBus 2 { (started 32).bus 2 with rx := [0x44332211, 0x88776655] })).setCmd
      ⟨1, 4, 8, 0⟩))).mem = [(0x80000004, 0x11), (0x80000005, 0x22), (0x80000006, 0x33), (0x80000007, 0x44),
        (0x80000008, 0x55), (0x80000009, 0x66), (0x8000000A, 0x77), (0x8000000B, 0x88)] := by decide
/-- V-SLV-5: a bad checksum leaves the pin high and the machine in Idle. -/
theorem test_bad_checksum : (fun t => (t.slv.status, t.rdy, t.hist == (headed 32 []).hist))
    (after (step ((headed 32 [0x00000401, 0x0E000800]).setSched [.slave]))) = (.idle, true, true) := by decide
/-- V-SLV-6: length 9 on a non-block opcode is rejected. -/
theorem test_length_nine : (after (step ((headed 32 [0x00000001, 0x0A000900]).setSched [.slave]))).slv.status = .idle := by
  decide
/-- V-SLV-7: a zero length field arms 262144 bytes to the masked address. -/
theorem test_write_block : (after (step ((headed 32 [0x00123705, 0xCE000080]).setSched [.slave]))).hist.take 2
    = [.pin 13 false, .dmaArmed 0 (.dr 2) (.mem 0x80001230) .fixed .increment 4 32 262144] := by decide
/-- V-DMA-3: the arm of READ_DATA_BLOCK 0x80002000, 2, on request line 5. -/
theorem test_read_block : (after (step ((headed 32 [0x00200004, 0xA6000280]).setSched [.slave]))).hist.take 3
    = [.pin 13 false, .dmaArmed 0 (.mem 0x80002000) (.dr 2) .increment .fixed 4 32 8, .collab (.dmaSelect 0 5)] := by decide
/-- P3 variant b: the done bit clear at the closing edge gives error 3. -/
theorem test_write_block_unfinished : (after (execWriteDataBlock 0x80001237 4 0xD2 (setStatus .transfer (started 32)))).cmd.err
    = 3 := by decide
/-- P3 variant b under both values of ORPHAN_DMA (R279, D27): after T1 of the closing edge the channel, still armed and with
an entry to take, makes its beat when it is live, and none when it is stopped. -/
theorem test_orphan_beat : [OrphanDma.live, .stopped].map (fun o =>
    let s := setStatus .transfer (withPar { Params.default with orphanDma := o } (started 32))
    let s := s.setBus 2 { s.bus 2 with rx := [0x04030201] }
    let s := s.setChan 0 ⟨4, true, .dr 2, .mem 0x1000, .fixed, .increment, 4, 32, 16, false⟩
    (dmaBeat 0 (after (execWriteDataBlock 0x80001237 4 0xD2 s))).mem)
    = [[(0x1000, 1), (0x1001, 2), (0x1002, 3), (0x1003, 4)], []] := by decide
/-- A channel still armed at the re-arm: armed when ORPHAN_DMA is live, not when it is stopped (R279, log entry 6). -/
theorem test_orphan_dma : [OrphanDma.live, .stopped].map (fun o =>
    ((idleRearm (withPar { Params.default with orphanDma := o }
      ((started 32).setChan 0 { (started 32).chan 0 with armed := true, rem := 4 }))).chan 0).armed) = [true, false] := by decide
/-- V-SLV-1: an edge in Idle only moves to Command. -/
theorem test_idle_edge : (after (step (((started 32).setSlv { (started 32).slv with edgePend := true }).setSched [.slave])))
    = ((started 32).setSlv { (started 32).slv with status := .command }) := by decide
/-- V-SLV-12: an edge before SLAVE_CONFIG is lost. -/
theorem test_edge_before_config : (after (step (State.reset.setSched [.edge]))).slv.edgePend = false := by decide

/-! ### The place a step fetches from -/

/-- The table word of WRITE_CONFIG 0x4, 8 as 64 bits decodes to it and runs: the machine is in Transfer. -/
theorem test_fetch_header : decodeTableWord 64 0x0D00080000000401 = some (.writeConfig 4 8 0x0D) := by decide
theorem test_fetch_header_runs : (after (step (State.reset.withFetchWord 64 0x0D00080000000401))).slv.status = .transfer := by
  decide
/-- Request code 5 with no further bits is NONSTD_CONFIG(0, 0, 0, 0). -/
theorem test_fetch_request : decodeTableWord 8 5 = some (.nonstdConfig 0 0 0 0) := by decide
theorem test_fetch_request_runs : after (step (State.reset.withFetchWord 8 5)) = State.reset := by decide

/-- The outcome is a next state. -/
def goesOn (o : Host.Outcome State Fault Refusal) : Bool :=
  match o with
  | .next _ => true
  | _ => false

theorem next_after {o : Host.Outcome State Fault Refusal} (h : goesOn o = true) : o = .next (after o) := by
  cases o with
  | next => rfl
  | fault => cases h
  | refused => cases h

/-! ### Witnesses: for each obligation with hypotheses, a state and operands that meet all of them

Headers and states are those of 95_test_vectors.md where it has one. -/

/-- The default parameters are what the spec asks of them, and so are others of every OPEN row. -/
theorem legal_default : Params.default.Legal := ⟨by decide, by decide, by decide, by
  intro b d b' d'; cases d <;> cases d' <;> simp [reqLine, Params.default] <;> omega⟩

/-- Parameters that differ from the defaults in every field. -/
def otherPar : Params :=
  { numCs := 1, aw := 64, opc := otherOpc, errRx := 0x81, errTx := 0x82, reqLines := [(1, 0), (3, 2)], wmOff := 1, oeOff := 2,
    fsOff := 3, nonStd := [⟨[8], [24], [0]⟩], orphanDma := .stopped }

theorem legal_otherPar : otherPar.Legal := by
  have hline : ∀ b, reqLine otherPar b .rx = (if b < 2 then 2 * b + 1 else 2 * b) ∧
      reqLine otherPar b .tx = (if b < 2 then 2 * b else 2 * b + 1) := by
    intro b
    match b with
    | 0 => decide
    | 1 => decide
    | b + 2 => simp [reqLine, otherPar]
  refine ⟨by decide, by decide, by decide, fun b d b' d' => ?_⟩
  obtain ⟨h1, h2⟩ := hline b
  obtain ⟨h3, h4⟩ := hline b'
  cases d <;> cases d' <;> simp only [h1, h2, h3, h4] <;> split <;> split <;> simp <;> omega

/-- A map that gives two buses one line is no legal ReqLine (44_dma.md R280): bus 0 RX and bus 3 TX both have line 7. -/
theorem test_request_lines_injective : ¬ ({ Params.default with reqLines := [(7, 9)] } : Params).Legal := fun h =>
  absurd (h.lines 0 .rx 3 .tx rfl).1 (by decide)

/-- `headed` with the SLAVE agent's turn next. -/
def atHeader (dbl : Nat) (es : List Entry) : State := (headed dbl es).setSched [.slave]

/-- V-HDR-1 as two entries of four bytes: WRITE_CONFIG 0x4, 8. -/
def writeHeader : List Entry := [0x00000401, 0x0D000800]

/-- The third edge of a command: Transfer, the pin low, the descriptor given. -/
def atClosing (dbl : Nat) (d : Descriptor) (rx : List Entry) : State :=
  let s := (started dbl).setBus 2 { (started dbl).bus 2 with rx := rx }
  let s := (s.setSlv { s.slv with status := .transfer, edgePend := true }).setCmd d
  { s with rdy := false, sched := [.slave, .slave, .callbackReturn, .slave] }

/-- A state in which MASTER moves next, in a phase. -/
def atMaster (p : MstPhase) (op : MstOp) (cnt rem w : Nat) (tx rx : List Entry) : State :=
  let s := bussed 0 32
  let s := s.setBus 0 { s.bus 0 with en := true, tx := tx, rx := rx }
  (s.setMst { s.mst with phase := p, op := op, bus := 0, csel := 3, cmdCnt := cnt, rem := rem, w := w }).setSched [.master]

theorem edgeNext_atHeader (dbl : Nat) (es : List Entry) (h : (headed dbl es).slv = (headed 32 []).slv)
    (hf : (headed dbl es).fatal = false) : EdgeNext (atHeader dbl es) .command [] := by
  have hs : (atHeader dbl es).slv = (headed 32 []).slv := h
  refine ⟨rfl, hf, ?_, ?_, ?_, ?_⟩ <;> rw [hs] <;> decide

theorem slaveGood_headed (es : List Entry) : SlaveGood (headed 32 es) := by
  constructor
  · intro h; exact absurd h (by decide : (headed 32 []).slv.active ≠ false)
  · intro _; refine ⟨rfl, rfl, (by decide : (headed 32 []).slv.dmaCh < 6), rfl, ?_⟩
    exact (by decide : (headed 32 []).slv.status = .transfer ↔ (headed 32 []).rdy = false)
  · intro h; exact absurd rfl h
  · intro h; exact absurd h (by decide : (headed 32 []).slv.status ≠ .transfer)
  · rfl
  · exact (by decide : (headed 32 []).slv.cfgPtr < 2 ^ (headed 32 []).par.aw)

theorem slaveGood_atHeader (es : List Entry) : SlaveGood (atHeader 32 es) := by
  have h := slaveGood_headed es
  exact ⟨h.inactive, h.active, h.handler, h.command, h.noCs, h.cfgPtr⟩

theorem slaveGood_narrow (es : List Entry) : SlaveGood (atHeader 7 es) := by
  constructor
  · intro h; exact absurd h (by decide : (headed 7 []).slv.active ≠ false)
  · intro _; refine ⟨rfl, rfl, (by decide : (headed 7 []).slv.dmaCh < 6), rfl, ?_⟩
    exact (by decide : (headed 7 []).slv.status = .transfer ↔ (headed 7 []).rdy = false)
  · intro h; exact absurd rfl h
  · intro h; exact absurd h (by decide : (headed 7 []).slv.status ≠ .transfer)
  · rfl
  · exact (by decide : (headed 7 []).slv.cfgPtr < 2 ^ (headed 7 []).par.aw)

theorem open_bussed (bus dbl : Nat) (h : (bussed bus dbl).fatal = false)
    (h' : (bussed bus dbl).slv.handler = .none) (h'' : (bussed bus dbl).mst.phase = .idle) : Open (bussed bus dbl) :=
  ⟨h, h', h''⟩

theorem witness_DecodeOfEncodeGivesOperationBack :
    (Opc.default.Legal ∧ WellFormed .default (.writeConfig 4 8 0x0D) = true ∧
      WellFormed .default (.readDataBlock 0xFFFFFFFF 0 0x00) = true ∧
      WellFormed .default (.recvw (2 ^ 64 - 1) (2 ^ 64 - 1) (2 ^ 64 - 1) 0xFFFFFFFF 0 0) = true ∧
      WellFormed .default (.busConfig 0 (2 ^ 64 - 1) 3) = true ∧
      WellFormed .default (.slaveConfig 12 13 5 32 0x80000000 64 (some (2 ^ 64 - 1))) = true) ∧
      otherOpc.Legal ∧ WellFormed otherOpc (.writeConfig 4 8 0x2C) = true := by decide

theorem witness_EncodeOfDecodeGivesBytesBack :
    decode .default .hdr [0x01, 0x04, 0x00, 0x00, 0x00, 0x08, 0x00, 0x0D] = .ok (.writeConfig 4 8 0x0D) ∧
      decode .default .hreq (record [[4], [1], [32]]) = .ok (.busConfig 1 32 0) := by decide

theorem witness_HeaderWellFormedOnlyIfChecksumIsSum :
    Opc.default.Legal ∧
    (decodeHeader .default [0x01, 0x04, 0x00, 0x00, 0x00, 0x08, 0x00, 0x0D] = .ok (.writeConfig 4 8 0x0D) ∧
      WellFormed .default (.writeConfig 4 8 0x0D) = true) ∧
    (decodeHeader .default [0x05, 0x37, 0x12, 0x00, 0x80, 0x00, 0x00, 0xCE] = .ok (.writeDataBlock 0x80001237 0 0xCE) ∧
      isBlock .default 0x05 = true ∧ 0xCE = (0x05 + 0x37 + 0x12 + 0x80) % 256) := by decide

theorem witness_MisalignedLoadGivesSameValue : State.reset.par.Legal := legal_default
theorem witness_MisalignedStoreWritesSameBytes : (withPar otherPar State.reset).par.Legal := legal_otherPar
theorem witness_StoredUnitLoadsBack : State.reset.par.Legal := legal_default

theorem witness_StepRunsDecodedRequest :
    ∃ (s : State) (bytes : List Byte), s.sched = .request bytes :: [] ∧
      decode s.par.opc .hreq bytes = .ok (.busConfig 0 32 0) :=
  ⟨State.reset.setSched [.request (record [[4], [0], [32]])], _, rfl, by decide⟩

theorem witness_StepRunsDecodedRequest_malformed :
    ∃ (s : State) (bytes : List Byte), s.sched = .request bytes :: [] ∧
      decode s.par.opc .hreq bytes = .error (.unknownRequest 7) :=
  ⟨State.reset.setSched [.request (record [[7]])], _, rfl, by decide⟩

theorem witness_StepRunsDecodedHeader :
    EdgeNext (atHeader 32 writeHeader) .command [] ∧
      decode (atHeader 32 writeHeader).par.opc .hdr (headerOf (atHeader 32 writeHeader)) = .ok (.writeConfig 4 8 0x0D) :=
  ⟨edgeNext_atHeader 32 _ (by decide) (by decide), by decide⟩

/-- A header short of one entry: the checksum byte is a free value. -/
theorem witness_StepRunsDecodedHeader_short :
    EdgeNext (atHeader 7 [1, 4, 0, 0, 0, 8, 0]) .command [] ∧
      ∃ sum, decode .default .hdr (headerOf (atHeader 7 [1, 4, 0, 0, 0, 8, 0])) = .ok (.writeConfig 4 8 sum) :=
  ⟨edgeNext_atHeader 7 _ (by decide) (by decide), byteOf (Config.drawEntry 0) 0, by rfl⟩

theorem witness_StepRunsLatchedCommand :
    EdgeNext (atClosing 32 ⟨1, 4, 8, 0⟩ []) .transfer [.slave, .callbackReturn, .slave] ∧ Opc.default.Legal ∧
      Instr.writeConfig 4 8 0x0D ∈ wireCommands 4 8 (headerSum 1 4 8) ∧
      (1 : Byte) = opcodeOf .default (.writeConfig 4 8 0x0D) ∧
      (atClosing 32 ⟨1, 4, 8, 0⟩ []).cmd.len.toNat = decodedLen 8 := by
  refine ⟨⟨rfl, ?_, ?_, ?_, ?_, ?_⟩, ?_, ?_, ?_, ?_⟩ <;> decide

/-- The other end of the length range: a block command of length field 0. -/
theorem witness_StepRunsLatchedCommand_longest :
    Instr.readDataBlock 0 0 4 ∈ wireCommands 0 0 (headerSum 4 0 0) ∧
      (4 : Byte) = opcodeOf .default (.readDataBlock 0 0 4) ∧
      (atClosing 32 ⟨4, 0, 65536, 0⟩ []).cmd.len.toNat = decodedLen 0 := by
  refine ⟨?_, ?_, ?_⟩ <;> decide

theorem witness_IdleEdgeOnlyEntersCommand : ∃ s : State, EdgeNext s .idle [] :=
  ⟨((started 32).setSlv { (started 32).slv with edgePend := true }).setSched [.slave],
    rfl, by decide, by decide, by decide, by decide, by decide⟩

theorem witness_HeaderCutIntoEntries :
    EdgeNext (atHeader 32 writeHeader) .command [] ∧ ((atHeader 32 writeHeader).bus 2).rx[1]? = some 0x0D000800 :=
  ⟨edgeNext_atHeader 32 _ (by decide) (by decide), by decide⟩

/-- The narrow frame width: eight entries of one byte. -/
theorem witness_HeaderCutIntoEntries_bytes :
    EdgeNext (atHeader 7 [1, 4, 0, 0, 0, 8, 0, 0x0D]) .command [] ∧
      ((atHeader 7 [1, 4, 0, 0, 0, 8, 0, 0x0D]).bus 2).rx[7]? = some 0x0D :=
  ⟨edgeNext_atHeader 7 _ (by decide) (by decide), by decide⟩

/-- V-SLV-5: the checksum 0E for 0D. -/
theorem witness_BadChecksumReturnsToIdleSilently :
    EdgeNext (atHeader 32 [0x00000401, 0x0E000800]) .command [] ∧ SlaveGood (atHeader 32 [0x00000401, 0x0E000800]) ∧
      (headerOf (atHeader 32 [0x00000401, 0x0E000800]))[7]?
        ≠ some (checksum ((headerOf (atHeader 32 [0x00000401, 0x0E000800])).take 7)) :=
  ⟨edgeNext_atHeader 32 _ (by decide) (by decide), slaveGood_atHeader _, by decide⟩

/-- A header short of its last byte: whatever the free value, one of two headers has a bad checksum. -/
theorem witness_BadChecksumReturnsToIdleSilently_short :
    ∃ s : State, EdgeNext s .command [] ∧ SlaveGood s ∧ (s.bus 2).rx.length = 7 ∧
      (headerOf s)[7]? ≠ some (checksum ((headerOf s).take 7)) := by
  have h0 : (headerOf (atHeader 7 [0, 0, 0, 0, 0, 0, 0]))[7]? = some (byteOf (Config.drawEntry 0) 0) := by rfl
  have h1 : (headerOf (atHeader 7 [1, 0, 0, 0, 0, 0, 0]))[7]? = some (byteOf (Config.drawEntry 0) 0) := by rfl
  by_cases hd : byteOf (Config.drawEntry 0) 0 = (0 : Byte)
  · refine ⟨atHeader 7 [1, 0, 0, 0, 0, 0, 0], edgeNext_atHeader 7 _ (by decide) (by decide), slaveGood_narrow _, rfl, ?_⟩
    rw [h1, hd]; decide
  · refine ⟨atHeader 7 [0, 0, 0, 0, 0, 0, 0], edgeNext_atHeader 7 _ (by decide) (by decide), slaveGood_narrow _, rfl, ?_⟩
    rw [h0]; exact fun he => hd (Option.some.inj (he.trans (by rfl)))

theorem witness_DecodeWritesFreshDescriptor :
    EdgeNext (atHeader 32 writeHeader) .command [] ∧
      headerOf (atHeader 32 writeHeader) = [0x01, 0x04, 0x00, 0x00, 0x00, 0x08, 0x00, 0x0D] ∧
      0x0D = checksum [0x01, 0x04, 0x00, 0x00, 0x00, 0x08, 0x00] :=
  ⟨edgeNext_atHeader 32 _ (by decide) (by decide), by decide, by decide⟩

/-- Length field 0. -/
theorem witness_DecodeWritesFreshDescriptor_zero :
    EdgeNext (atHeader 32 [0x00000001, 0x01000000]) .command [] ∧
      headerOf (atHeader 32 [0x00000001, 0x01000000]) = [0x01, 0, 0, 0, 0, 0, 0, 0x01] ∧
      0x01 = checksum [0x01, 0, 0, 0, 0, 0, 0] :=
  ⟨edgeNext_atHeader 32 _ (by decide) (by decide), by decide, by decide⟩

/-- Each clause at its boundary: lengths 9, 65536 (field 0) and 8 of a non-block command, 65536 of a block command. -/
theorem witness_NonBlockLengthOverEightRejected :
    (headed 32 []).slv.status = .command ∧ SlaveGood (headed 32 []) ∧ (headed 32 []).slv.active = true ∧
      (headed 32 []).par.opc.Legal ∧ (headed 32 []).par.orphanDma = .live ∧
      (Instr.writeConfig 0 9 0x0A ∈ wireCommands 0 9 0x0A ∧ 0x0A = headerSum 1 0 9 ∧ isNonBlock .default 1 = true ∧
        8 < decodedLen 9) ∧
      (Instr.readDataByte 0 0 2 ∈ wireCommands 0 0 2 ∧ 2 = headerSum 2 0 0 ∧ isNonBlock .default 2 = true ∧
        8 < decodedLen 0) ∧
      (Instr.writeConfig 4 8 0x0D ∈ wireCommands 4 8 0x0D ∧ 0x0D = headerSum 1 4 8 ∧ isNonBlock .default 1 = true ∧
        decodedLen 8 ≤ 8) ∧
      (Instr.writeDataBlock 0 0 5 ∈ wireCommands 0 0 5 ∧ 5 = headerSum 5 0 0 ∧ isBlock .default 5 = true) :=
  ⟨by decide, slaveGood_headed [], by decide, by decide, by decide, by decide, by decide, by decide, by decide⟩

/-- V-HDR-9: opcode byte 06. -/
theorem witness_UnknownOpcodeReturnsToIdleSilently :
    EdgeNext (atHeader 32 [0x00000006, 0x07000100]) .command [] ∧ SlaveGood (atHeader 32 [0x00000006, 0x07000100]) ∧
      headerOf (atHeader 32 [0x00000006, 0x07000100]) = [0x06, 0, 0, 0, 0, 0x01, 0, 0x07] ∧
      0x07 = checksum [0x06, 0, 0, 0, 0, 0x01, 0] ∧ isKnown (atHeader 32 []).par.opc 0x06 = false :=
  ⟨edgeNext_atHeader 32 _ (by decide) (by decide), slaveGood_atHeader _, by decide, by decide, by decide⟩

/-- With a whole header, and with a receive FIFO that holds none of it. -/
theorem witness_CommandPhaseEndsInTransferLowOrIdleHigh :
    (EdgeNext (atHeader 32 writeHeader) .command [] ∧ SlaveGood (atHeader 32 writeHeader)) ∧
      EdgeNext (atHeader 32 []) .command [] ∧ SlaveGood (atHeader 32 []) :=
  ⟨⟨edgeNext_atHeader 32 _ (by decide) (by decide), slaveGood_atHeader _⟩,
    edgeNext_atHeader 32 _ (by decide) (by decide), slaveGood_atHeader _⟩

/-- V-HDR-2 and V-HDR-8. -/
theorem witness_ReadCommandPreloadsTransmitFifo :
    (headed 32 []).slv.status ≠ .transfer ∧ (headed 32 []).par = .default ∧ Params.default.Legal ∧
      2 < (headed 32 []).numBus ∧ WellFormed .default (.readConfig 2 4 0x06) = true ∧
      (0x80000002 : Addr) = wrap 32 ((headed 32 []).slv.cfgPtr + (2 : BitVec 32).toNat) ∧
      WellFormed .default (.readDataByte 0x1000 4 0x16) = true ∧ WellFormed .default (.readDataByte 0 8 0x0A) = true :=
  ⟨by decide, by decide, legal_default, by decide, by decide, by decide, by decide, by decide⟩

/-- V-HDR-1 and V-HDR-7. -/
theorem witness_WriteCommandProgramsReception :
    (headed 32 []).slv.status ≠ .transfer ∧ (headed 32 []).par = .default ∧ 2 < (headed 32 []).numBus ∧
      WellFormed .default (.writeConfig 4 8 0x0D) = true ∧
      WellFormed .default (.writeDataByte 0x2001 4 0x28) = true := by decide

/-- V-HDR-6 and V-HDR-3, and the longest transfer; channels 0 and 5. -/
theorem witness_BlockCommandArmsChannel :
    (headed 32 []).slv.status ≠ .transfer ∧ (headed 32 []).par = .default ∧ Params.default.Legal ∧
      2 < (headed 32 []).numBus ∧ (headed 32 []).slv.dmaCh < (headed 32 []).numDmaCh ∧
      ((headed 32 []).setSlv { (headed 32 []).slv with dmaCh := 5 }).slv.dmaCh = 5 ∧ 5 < (headed 32 []).numDmaCh ∧
      Params.default.reqLines = [] ∧ WellFormed .default (.readDataBlock 0x80002000 2 0xA6) = true ∧
      WellFormed .default (.writeDataBlock 0x80001237 4 0xD2) = true ∧
      WellFormed .default (.writeDataBlock 0x80001237 0 0xCE) = true :=
  ⟨by decide, by decide, legal_default, by decide, by decide, by decide, by decide, by decide, by decide, by decide,
    by decide⟩

theorem witness_BlockByteCountIsFourTimesLength :
    (headed 32 []).slv.status ≠ .transfer ∧ (headed 32 []).par = .default ∧
      (headed 32 []).slv.dmaCh < (headed 32 []).numDmaCh ∧
      WellFormed .default (.writeDataBlock 0 0 5) = true ∧ WellFormed .default (.readDataBlock 0 4 8) = true := by decide

theorem witness_ReadCommandChecksTransmitFifoDrained :
    (atClosing 32 ⟨2, 0x1000, 4, 0⟩ []).slv.status = .transfer := by decide

theorem witness_WriteCommandCommitsUnits :
    (atClosing 32 ⟨1, 4, 8, 0⟩ [0x44332211, 0x88776655]).slv.status = .transfer ∧
      (atClosing 32 ⟨1, 4, 8, 0⟩ []).par.Legal ∧
      (0x80000004 : Addr)
        = wrap 32 ((atClosing 32 ⟨1, 4, 8, 0⟩ []).slv.cfgPtr + (atClosing 32 ⟨1, 4, 8, 0⟩ []).cmd.addr.toNat) ∧
      (0x2001 : Addr) = (atClosing 8 ⟨3, 0x2001, 4, 0⟩ []).cmd.addr.toNat :=
  ⟨by decide, legal_default, by decide, by decide⟩

theorem witness_BlockCommandReadsDoneBitOnce :
    (atClosing 32 ⟨5, 0x80001237, 4, 0⟩ []).slv.status = .transfer ∧
      (withPar otherPar (atClosing 32 ⟨5, 0x80001237, 4, 0⟩ [])).par.orphanDma = .stopped ∧
      (withPar otherPar (atClosing 32 ⟨5, 0x80001237, 4, 0⟩ [])).slv.status = .transfer := by decide

/-- A write command, whose units the memory clauses name, and a block command. -/
theorem witness_TransferPhaseEndsInIdleWithPinHigh :
    (EdgeNext (atClosing 32 ⟨1, 4, 8, 0⟩ []) .transfer ([.slave, .callbackReturn, .slave] ++ []) ∧
      (atClosing 32 ⟨1, 4, 8, 0⟩ []).par.Legal ∧ 2 < (atClosing 32 ⟨1, 4, 8, 0⟩ []).numBus ∧
      (atClosing 32 ⟨1, 4, 8, 0⟩ []).cmd.op = (atClosing 32 ⟨1, 4, 8, 0⟩ []).par.opc.writeConfig ∧
      OutsideUnits 32 0x80000003 0x80000004 4 0 2) ∧
    (EdgeNext (atClosing 32 ⟨5, 0x80001237, 4, 0⟩ []) .transfer ([.slave, .callbackReturn, .slave] ++ []) ∧
      (atClosing 32 ⟨5, 0x80001237, 4, 0⟩ []).cmd.op ≠ Opc.default.writeConfig ∧
      (atClosing 32 ⟨5, 0x80001237, 4, 0⟩ []).cmd.op ≠ Opc.default.writeDataByte) := by
  refine ⟨⟨⟨rfl, ?_, ?_, ?_, ?_, ?_⟩, legal_default, ?_, ?_, ?_⟩, ⟨rfl, ?_, ?_, ?_, ?_, ?_⟩, ?_, ?_⟩ <;>
    first | decide | (unfold OutsideUnits; decide)

theorem witness_CallbackHoldsSlaveUntilItReturns :
    ∃ s : State, s.slv.handler = .inCallback ∧ s.sched = .slave :: [] :=
  ⟨(setHandler .inCallback (atClosing 32 ⟨1, 4, 8, 0⟩ [])).setSched [.slave], by decide, rfl⟩

/-- Both kinds of command, at the longest length. -/
theorem witness_WriteThenReadReturnsPayload :
    (atClosing 32 ⟨1, 4, 8, 0⟩ writeHeader).par.Legal ∧
      (atClosing 32 ⟨1, 4, 8, 0⟩ writeHeader).slv.status = .transfer ∧
      (atClosing 32 ⟨1, 4, 8, 0⟩ writeHeader).cmd.len.toNat = decodedLen 8 ∧ decodedLen 8 ≤ 8 ∧
      ((atClosing 32 ⟨1, 4, 8, 0⟩ writeHeader).bus 2).rx.length
        = decodedLen 8 / frameWidth 2 (atClosing 32 ⟨1, 4, 8, 0⟩ writeHeader) :=
  ⟨legal_default, by decide, by decide, by decide, by decide⟩

/-- The inner hypotheses: a later command edge over the memory that is left. -/
theorem witness_WriteThenReadReturnsPayload_read (m : List Host.Cell) :
    ∃ u : State, u.mem = m ∧ u.par = (atClosing 32 ⟨1, 4, 8, 0⟩ writeHeader).par ∧ 2 < u.numBus ∧
      u.slv.status = .command ∧ u.slv.cfgPtr = (atClosing 32 ⟨1, 4, 8, 0⟩ writeHeader).slv.cfgPtr ∧
      (u.bus 2).dbl = ((atClosing 32 ⟨1, 4, 8, 0⟩ writeHeader).bus 2).dbl :=
  ⟨(headed 32 []).setMem m, rfl, by rfl, (by decide : 2 < (headed 32 []).numBus), by rfl, by rfl, by rfl⟩

theorem witness_SendRequestOpensTransmit :
    Open (bussed 0 7) ∧ MasterBus (bussed 0 7) 0 ∧ 3 < (bussed 0 7).par.numCs ∧ ((bussed 0 7).bus 0).dblWritten = true ∧
      Instr.sendw 0 3 0x3000 1 0x1000 2 ∈ [Instr.send 0 3 0x1000 2, Instr.sendw 0 3 0x3000 1 0x1000 2] :=
  ⟨open_bussed 0 7 (by decide) (by decide) (by decide), ⟨by decide, by decide⟩, by decide, by decide, by decide⟩

theorem witness_RecvRequestOpensReceive :
    Open (bussed 3 32) ∧ MasterBus (bussed 3 32) 3 ∧ 0 < (bussed 3 32).par.numCs ∧
      ((bussed 3 32).bus 3).dblWritten = true ∧
      Instr.recvw 3 0 0x3000 2 0x2000 8 ∈ [Instr.recv 3 0 0x3000 2 0x2000 8, Instr.recvw 3 0 0x3000 2 0x2000 8] :=
  ⟨open_bussed 3 32 (by decide) (by decide) (by decide), ⟨by decide, by decide⟩, by decide, by decide, by decide⟩

theorem witness_UnconfiguredBusFaults :
    Open State.reset ∧ MasterBus State.reset 1 ∧ 0 < State.reset.par.numCs ∧ (State.reset.bus 1).dblWritten = false ∧
      Instr.send 1 0 0x1000 4 ∈ masterOps 1 0 0 0 0x1000 4 :=
  ⟨⟨rfl, rfl, rfl⟩, ⟨by decide, by decide⟩, by decide, by decide, by decide⟩

/-- Each of the three ways to be closed. -/
theorem witness_ClosedEngineTurnsRequestsAway :
    (Instr.busConfig 0 8 0).format = .hreq ∧ ¬ Open (raiseAbort .badConfig State.reset) ∧
      ¬ Open (setHandler .callbackDue State.reset) ∧ ¬ Open (atMaster .fill .send 0 4 4 [] []) :=
  ⟨rfl, fun h => absurd h.1 (by decide), fun h => absurd h.2.1 (by decide), fun h => absurd h.2.2 (by decide)⟩

/-- A bus out of range; the slave bus; chip select 4; an engine with no chip-select. -/
theorem witness_ValidateAbortsBeforeAnyWrite :
    Open State.reset ∧ State.reset.numBus ≤ 4 ∧
      Instr.nonstdConfig 4 8 24 0 ∈ Instr.busConfig 4 8 0 :: Instr.nonstdConfig 4 8 24 0 :: masterOps 4 0 0 0 0 0 ∧
      2 < State.reset.numBus ∧ Instr.recv 2 0 0 0 0 0 ∈ masterOps 2 0 0 0 0 0 ∧
      MasterBus State.reset 3 ∧ State.reset.par.numCs ≤ 4 ∧
      Open (withPar { Params.default with numCs := 0 } State.reset) ∧
      MasterBus (withPar { Params.default with numCs := 0 } State.reset) 3 ∧
      (withPar { Params.default with numCs := 0 } State.reset).par.numCs = 0 :=
  ⟨⟨rfl, rfl, rfl⟩, by decide, by decide, by decide, by decide, ⟨by decide, by decide⟩, by decide, ⟨rfl, rfl, rfl⟩,
    ⟨by decide, by decide⟩, rfl⟩

theorem masterNext_atMaster (p : MstPhase) (op : MstOp) (cnt rem w : Nat) (tx rx : List Entry) :
    MasterNext (atMaster p op cnt rem w tx rx) p [] := ⟨rfl, by rfl, rfl⟩

/-- 31 entries and one more word just fit. -/
theorem witness_SendwPushesCommandWords :
    ∃ s : State, MasterNext s .cmd [] ∧ s.mst.op = .sendw ∧ s.mst.bus < s.numBus ∧
      (s.bus s.mst.bus).tx.length + s.mst.cmdCnt ≤ 32 ∧ 0 < s.mst.cmdCnt :=
  ⟨atMaster .cmd .sendw 1 4 4 (List.replicate 31 0) [], masterNext_atMaster _ _ _ _ _ _ _, rfl, by decide,
    by decide, by decide⟩

/-- For each form: 33 command words of SENDW, 33 units of two bytes of RECV, 33 words of RECVW to an empty FIFO, and the
filler of RECV to a full one. -/
theorem witness_PrefixOverflowIsRecorded :
    ∀ x ∈ [(MstOp.sendw, 33, 4, []), (.recv, 66, 2, []), (.recvw, 33, 4, []), (.recv, 0, 4, List.replicate 32 (0 : Entry))],
    ∃ s : State, MasterNext s .cmd [] ∧ s.mst.op = x.1 ∧ s.mst.op ≠ .send ∧ s.mst.bus < s.numBus ∧
      (s.bus s.mst.bus).tx.length ≤ 32 ∧
      32 < (s.bus s.mst.bus).tx.length + (if s.mst.op ≠ .sendw ∧ s.mst.cmdCnt = 0 then [0xFFFFFFFF] else
        unitsOf s.par.aw s.mem s.mst.cmdPtr (if s.mst.op = .recv then s.mst.w else 4) 0
          (if s.mst.op = .recv then s.mst.cmdCnt / s.mst.w else s.mst.cmdCnt)).length := by
  intro x hx
  refine ⟨atMaster .cmd x.1 x.2.1 4 x.2.2.1 x.2.2.2 [], masterNext_atMaster _ _ _ _ _ _ _, rfl, ?_⟩
  simp only [List.mem_cons, List.not_mem_nil, or_false] at hx
  rcases hx with rfl | rfl | rfl | rfl <;> refine ⟨by decide, by decide, by decide, ?_⟩ <;>
    simp only [unitsOf, List.length_map, List.length_range, apply_ite List.length] <;> decide

theorem witness_RecvPushesPrefixThenChipSelect :
    ∃ s : State, MasterNext s .cmd [] ∧ s.mst.bus < s.numBus ∧ s.mst.op = .recv ∧ s.mst.cmdCnt = 0 ∧
      (s.bus s.mst.bus).tx.length + [(0xFFFFFFFF : Entry)].length ≤ 32 :=
  ⟨atMaster .cmd .recv 0 4 4 [] [], masterNext_atMaster _ _ _ _ _ _ _, by decide, rfl, rfl, by decide⟩

theorem witness_RecvPushesPrefixThenChipSelect_words :
    ∃ s : State, MasterNext s .cmd [] ∧ s.mst.bus < s.numBus ∧ s.mst.op = .recvw ∧ s.mst.cmdCnt = 32 ∧
      (s.bus s.mst.bus).tx.length + (unitsOf s.par.aw s.mem s.mst.cmdPtr 4 0 s.mst.cmdCnt).length ≤ 32 :=
  ⟨atMaster .cmd .recvw 32 4 4 [] [], masterNext_atMaster _ _ _ _ _ _ _, by decide, rfl, rfl, by
    simp only [unitsOf, List.length_map, List.length_range]; decide⟩

theorem witness_FillIterationPushesWholeUnits :
    ∃ s : State, MasterNext s .fill [] ∧ s.mst.bus < s.numBus ∧ (s.bus s.mst.bus).tx.length ≤ 32 :=
  ⟨atMaster .fill .send 0 40 4 (List.replicate 32 0) [], masterNext_atMaster _ _ _ _ _ _ _, by decide, by decide⟩

/-- Three bytes left, frames of four: a turn of MASTER, and a turn of another agent. -/
theorem witness_FillWithShortRemainderHangs :
    ∃ s u : State, (step s = .next (after (step s)) ∧ s.mst.phase = .fill ∧ 0 < s.mst.rem ∧ s.mst.rem < s.mst.w ∧
        s.mst.bus ≠ 2 ∧ s.sched = .master :: []) ∧
      (step u = .next (after (step u)) ∧ u.mst.phase = .fill ∧ 0 < u.mst.rem ∧ u.mst.rem < u.mst.w ∧
        u.sched = .request (record [[0], [0], [0], [0], [4]]) :: []) :=
  ⟨atMaster .fill .send 0 3 4 [] [], (atMaster .fill .send 0 3 4 [] []).setSched [.request (record [[0], [0], [0], [0], [4]])],
    ⟨next_after (by decide), rfl, by decide, by decide, by decide, rfl⟩,
    ⟨next_after (by decide), rfl, by decide, by decide, rfl⟩⟩

/-- A poll that ends the wait, and the two that do not. -/
theorem witness_CompletionWaitPollsStatus :
    ∃ s u v : State, (s.fatal = false ∧ s.mst.phase = .wait ∧ s.sched = List.replicate (0 + 1) .master ∧
        (s.bus s.mst.bus).tx = [] ∧ (s.bus s.mst.bus).busy = false) ∧
      (u.fatal = false ∧ u.mst.phase = .wait ∧ u.sched = List.replicate (0 + 1) .master ∧ (u.bus u.mst.bus).tx ≠ []) ∧
      (v.fatal = false ∧ v.mst.phase = .wait ∧ v.sched = List.replicate (0 + 1) .master ∧ (v.bus v.mst.bus).busy = true) :=
  ⟨atMaster .wait .send 0 0 4 [] [], atMaster .wait .send 0 0 4 [5] [], linkBusy 0 true (atMaster .wait .send 0 0 4 [] []),
    by decide, by decide, by decide⟩

theorem witness_DrainIterationStoresReceivedUnits :
    ∃ s : State, MasterNext s .drain [] ∧ s.mst.bus < s.numBus ∧ (s.bus s.mst.bus).rx.length = s.mst.rem :=
  ⟨atMaster .drain .recv 0 2 4 [] [1, 2], masterNext_atMaster _ _ _ _ _ _ _, by decide, by decide⟩

theorem witness_ClosingStepReleasesBus : ∃ s : State, MasterNext s .fin [] ∧ s.mst.bus < s.numBus :=
  ⟨atMaster .fin .recv 0 0 4 [] [], masterNext_atMaster _ _ _ _ _ _ _, by decide⟩

/-- The longest: 32 bytes in frames of two bytes, 16 entries. -/
theorem witness_SendDeliversBufferInOrder :
    ∃ s : State, Open s ∧ MasterBus s 0 ∧ 3 < s.par.numCs ∧ WellFormed s.par.opc (.send 0 3 0x1000 32) = true ∧
      (s.bus 0).dblWritten = true ∧ (s.bus 0).tx = [] ∧
      (s.bus 0).busy = false ∧ (32 : BitVec 32).toNat % frameBytes (s.bus 0).dbl.toNat = 0 ∧
      (32 : BitVec 32).toNat ≤ 32 ∧
      s.sched = [.request (encode s.par.opc (.send 0 3 0x1000 32)), .master]
        ++ List.replicate ((32 : BitVec 32).toNat / frameBytes (s.bus 0).dbl.toNat) (.linkOut 0) ++ [.master, .master] ++ [] :=
  ⟨(bussed 0 8).setSched ([.request (encode .default (.send 0 3 0x1000 32)), .master] ++ List.replicate 16 (.linkOut 0)
      ++ [.master, .master]),
    ⟨by decide, by decide, by decide⟩, ⟨by decide, by decide⟩, by decide, by decide, by decide, by decide, by decide,
    by decide, by decide, by rfl⟩

/-- Both ends of the legal range, just outside it, and far outside it. -/
theorem witness_BusConfigWritesThreeRegisters :
    Open State.reset ∧ MasterBus State.reset 0 ∧ 0 < State.reset.par.numCs ∧ (∀ dbl ∈ [4, 32], 4 ≤ dbl ∧ dbl ≤ 32) ∧
      ∀ dbl ∈ [3, 33, 64, 2 ^ 32 + 8], dbl < 4 ∨ 32 < dbl :=
  ⟨⟨rfl, rfl, rfl⟩, ⟨by decide, by decide⟩, by decide, by decide, by decide⟩

/-- A supported combination, one that is not, and the four ways out of R182's range. -/
theorem witness_NonstdConfigWritesFramingFields :
    Open State.reset ∧ MasterBus State.reset 0 ∧ 0 < State.reset.par.numCs ∧ State.reset.par = .default ∧
      (∃ b ∈ State.reset.par.nonStd, (16 : Byte) ∈ b.instrLens ∧ (60 : Byte) ∈ b.addrLens ∧ (31 : Byte) ∈ b.waitCycles) ∧
      (¬ ∃ b ∈ State.reset.par.nonStd, (8 : Byte) ∈ b.instrLens ∧ (62 : Byte) ∈ b.addrLens ∧ (0 : Byte) ∈ b.waitCycles) ∧
      ¬ (5 : BitVec 8).toNat ∈ [0, 4, 8, 16] ∧ ¬ (62 : BitVec 8).toNat % 4 = 0 ∧ ¬ (64 : BitVec 8).toNat ≤ 60 ∧
      ¬ (32 : BitVec 8).toNat < 32 :=
  ⟨⟨rfl, rfl, rfl⟩, ⟨by decide, by decide⟩, by decide, by decide, by decide, by decide, by decide, by decide, by decide,
    by decide⟩

/-- Both ends of the legal ranges; an engine with no bus 2; each bad operand. -/
theorem witness_SlaveConfigCreatesInstance :
    Open State.reset ∧ 2 < State.reset.numBus ∧ (4 ≤ 32 ∧ 5 < State.reset.numDmaCh ∧ 0 < State.reset.numDmaCh) ∧
      (Open (State.resetOf .default 2 6) ∧ (State.resetOf .default 2 6).numBus ≤ 2) ∧
      (∀ x ∈ [(3, 0), (33, 0), (64, 0), (32, 6)], x.1 < 4 ∨ 32 < x.1 ∨ State.reset.numDmaCh ≤ x.2) :=
  ⟨⟨rfl, rfl, rfl⟩, by decide, by decide, ⟨⟨rfl, rfl, rfl⟩, by decide⟩, by decide⟩

theorem witness_EdgeLatchedOnceWhileActive :
    ∃ s u : State, s.sched = .edge :: .edge :: [] ∧ s.slv.active = true ∧ u.sched = .edge :: .edge :: [] ∧
      u.slv.active = false :=
  ⟨(started 32).setSched [.edge, .edge], State.reset.setSched [.edge, .edge], rfl, by decide, rfl, by decide⟩

/-- P3: the second edge of WRITE_DATA_BLOCK has armed channel 0; an entry has come in. -/
def armedWrite : State :=
  let s := after (step (atHeader 32 [0x00123705, 0xD2000480]))
  (s.setBus 2 { s.bus 2 with rx := [0x04030201] }).setSched [.dma 0]

/-- V-DMA-3: READ_DATA_BLOCK has armed channel 0. -/
def armedRead : State := (after (step (atHeader 32 [0x00200004, 0xA6000280]))).setSched [.dma 0]

theorem witness_DmaBeatWritesMemory :
    armedWrite.par = .default ∧ 0 < armedWrite.numDmaCh ∧ armedWrite.sched = .dma 0 :: [] ∧
      (armedWrite.chan 0).armed = true ∧ (armedWrite.chan 0).src = .dr 2 ∧
      (armedWrite.chan 0).dst = .mem 0x80001230 ∧ (armedWrite.chan 0).dstMode = .increment ∧
      (armedWrite.chan 0).rem = 16 ∧ (armedWrite.bus 2).en = true ∧ (armedWrite.bus 2).rx = 0x04030201 :: [] := by
  refine ⟨?_, ?_, rfl, ?_, ?_, ?_, ?_, ?_, ?_, ?_⟩ <;> decide

/-- The last beat of a transfer. -/
theorem witness_DmaBeatWritesMemory_last :
    ∃ s : State, s.par = .default ∧ 5 < s.numDmaCh ∧ s.sched = .dma 5 :: [] ∧ (s.chan 5).armed = true ∧
      (s.chan 5).src = .dr 2 ∧ (s.chan 5).dst = .mem 0xFFFFFFFC ∧ (s.chan 5).dstMode = .increment ∧ (s.chan 5).rem = 4 ∧
      (s.bus 2).en = true ∧ (s.bus 2).rx = 1 :: [] :=
  ⟨armedWrite.setChan 5 { armedWrite.chan 0 with dst := .mem 0xFFFFFFFC, rem := 4 } |>.setBus 2
      { armedWrite.bus 2 with rx := [1] } |>.setSched [.dma 5],
    by decide, by decide, rfl, by decide, by decide, by decide, by decide, by decide, by decide, by decide⟩

theorem witness_DmaBeatFillsTransmitFifo :
    0 < armedRead.numDmaCh ∧ armedRead.sched = .dma 0 :: [] ∧ (armedRead.chan 0).armed = true ∧
      (armedRead.chan 0).src = .mem 0x80002000 ∧
      (armedRead.chan 0).dst = .dr 2 ∧ (armedRead.chan 0).srcMode = .increment ∧ (armedRead.chan 0).rem = 8 ∧
      (armedRead.bus 2).en = true ∧ (armedRead.bus 2).tx.length < 32 := by
  refine ⟨?_, rfl, ?_, ?_, ?_, ?_, ?_, ?_, ?_⟩ <;> decide

/-- Disabled; full; room for one more. On bus 2, and on bus 3. -/
theorem witness_ReceivedEntryQueuedOrOverflows :
    (∃ s : State, 3 < s.numBus ∧ s.sched = .linkIn 3 7 :: [] ∧ (s.bus 3).en = false) ∧
      (∃ s : State, 2 < s.numBus ∧ s.sched = .remoteIn 7 :: [] ∧ (s.bus 2).en = true ∧ (s.bus 2).rx.length = 32) ∧
      (∃ s : State, 2 < s.numBus ∧ s.sched = .remoteIn 7 :: [] ∧ (s.bus 2).en = true ∧ (s.bus 2).rx.length = 31) :=
  ⟨⟨State.reset.setSched [.linkIn 3 7], by decide, rfl, by decide⟩,
    ⟨(headed 32 (List.replicate 32 0)).setSched [.remoteIn 7], by decide, rfl, by decide, by decide⟩,
    ⟨(headed 32 (List.replicate 31 0)).setSched [.remoteIn 7], by decide, rfl, by decide, by decide⟩⟩

/-- Disabled; empty; one entry. -/
theorem witness_SentEntryLeavesAtHead :
    (∃ s : State, 0 < s.numBus ∧ s.sched = .linkOut 0 :: [] ∧ (s.bus 0).en = false) ∧
      (∃ s : State, 0 < s.numBus ∧ s.sched = .linkOut 0 :: [] ∧ (s.bus 0).en = true ∧ (s.bus 0).tx = []) ∧
      (∃ s : State, 0 < s.numBus ∧ s.sched = .linkOut 0 :: [] ∧ (s.bus 0).en = true ∧ (s.bus 0).tx = 9 :: []) :=
  ⟨⟨State.reset.setSched [.linkOut 0], by decide, rfl, by decide⟩,
    ⟨(atMaster .wait .send 0 0 4 [] []).setSched [.linkOut 0], by decide, rfl, by decide, by decide⟩,
    ⟨(atMaster .wait .send 0 0 4 [9] []).setSched [.linkOut 0], by decide, rfl, by decide, by decide⟩⟩

theorem witness_InvariantHoldsAtReset : Params.default.Legal ∧ otherPar.Legal := ⟨legal_default, legal_otherPar⟩

/-- A state that meets the invariant and has an edge to serve. -/
theorem engineInv_atHeader : EngineInv (atHeader 32 writeHeader) := by
  have hn : (atHeader 32 writeHeader).numBus = 4 := by decide
  have hd : (atHeader 32 writeHeader).numDmaCh = 6 := by decide
  refine ⟨legal_default, by decide, ?_, slaveGood_atHeader _, ⟨?_, ?_, ?_, by decide⟩, ?_, ?_⟩
  · intro i
    rcases Nat.lt_or_ge i 4 with h | h
    · interval_cases i <;> refine ⟨by decide, by decide, by decide, by decide, by decide, .inl rfl⟩
    · rw [bus_of_ge _ (hn ▸ h)]; exact ⟨by decide, by decide, by decide, by decide, by decide, .inl rfl⟩
  · intro h; exact absurd rfl h
  · intro i hi he
    rcases Nat.lt_or_ge i 4 with h | h
    · interval_cases i
      · exact absurd he (by decide)
      · exact absurd he (by decide)
      · exact absurd rfl hi
      · exact absurd he (by decide)
    · rw [bus_of_ge _ (hn ▸ h)] at he; exact absurd he (by decide)
  · intro h; rcases h with h | h <;> exact absurd h (by decide)
  · intro c
    have : (atHeader 32 writeHeader).chan c = DmaChannel.reset := by
      rcases Nat.lt_or_ge c 6 with h | h
      · interval_cases c <;> decide
      · exact chan_of_ge _ (hd ▸ h)
    rw [this]; exact ⟨fun h => absurd h (by decide), Nat.two_pow_pos _, Nat.two_pow_pos _⟩
  · intro h; cases h

theorem witness_EveryStepKeepsInvariant :
    EngineInv (atHeader 32 writeHeader) ∧
      step (atHeader 32 writeHeader) = .next (after (step (atHeader 32 writeHeader))) :=
  ⟨engineInv_atHeader, next_after (by decide)⟩

theorem witness_NoStepChangesParameters :
    step (atHeader 32 writeHeader) = .next (after (step (atHeader 32 writeHeader))) := next_after (by decide)

theorem witness_FatalAndHistoryAreNeverCleared :
    ∃ s : State, s.fatal = true ∧ step s = .next (after (step s)) :=
  ⟨(raiseAbort .badConfig State.reset).setSched [.edge], by decide, next_after (by decide)⟩

theorem witness_FatalHaltsEngineAgents :
    ∃ s u : State, (s.fatal = true ∧ s.sched = .slave :: []) ∧
      (u.fatal = true ∧ u.sched = .edge :: [] ∧ u.slv.active = true) :=
  ⟨raiseAbort .badConfig (atHeader 32 writeHeader), (raiseAbort .badConfig (started 32)).setSched [.edge],
    ⟨by decide, rfl⟩, ⟨by decide, rfl, by decide⟩⟩

theorem witness_RolesShareNoState :
    EngineInv (atHeader 32 writeHeader) ∧ (atHeader 32 writeHeader).sched = .slave :: [] ∧
      EngineInv ((atHeader 32 writeHeader).setSched [.master]) ∧
      step ((atHeader 32 writeHeader).setSched [.master]) = .next (after (step ((atHeader 32 writeHeader).setSched [.master]))) :=
  ⟨engineInv_atHeader, rfl, engineInv_sched engineInv_atHeader _, next_after (by decide)⟩

/-- The request SLAVE_CONFIG(12, 13, 0, 32, 0x80000000, 64, none), after reset. -/
def slaveRequest : State :=
  State.reset.setSched [.request (record [[6], [12], [13], [0], [32], [0, 0, 0, 0x80], [64]])]

/-- The pin goes low at an accepted header, and high at the end of SLAVE_CONFIG. -/
theorem witness_ReadyPinWrittenAtTwoPlaces :
    (∃ t, step (atHeader 32 writeHeader) = .next t ∧ t.rdy ≠ (atHeader 32 writeHeader).rdy) ∧
      (∃ t, step slaveRequest = .next t ∧ t.rdy ≠ slaveRequest.rdy) :=
  ⟨⟨after (step (atHeader 32 writeHeader)), next_after (by decide), by decide⟩,
    ⟨after (step slaveRequest), next_after (by decide), by decide⟩⟩

theorem witness_ReadyPinIsNeverRead :
    step (atHeader 32 writeHeader) = .next (after (step (atHeader 32 writeHeader))) := next_after (by decide)

/-- The one stop is reached. -/
theorem witness_StepStopsOnlyOnUnconfiguredBus :
    step (State.reset.setSched [.request (record [[0], [0], [0], [0x00, 0x10], [4]])]) = .fault (.uninitRead 0) := by rfl

end Sys2Proof.Tests
end

/-! Proofs, 00_scope.md R9: a record decodes to a request only, every turn keeps the parameters, so no step writes them. -/

namespace Sys2Proof

/-- The record of a request never decodes to a wire command: the two formats stay apart (30_encoding.md R90). -/
theorem format_of_decode_hreq {o : Opc} {bytes : List Byte} {i : Instr} (h : decode o .hreq bytes = .ok i) :
    i.format = .hreq := by
  simp only [decode, decodeRequest] at h
  split at h
  · rename_i hlen
    obtain ⟨-, -, hwords⟩ := flatMap_wordsOf 9 bytes hlen
    exact (decodeWords_ok (o := o) h hwords).1
  · cases h

end Sys2Proof

namespace Sys2Proof.Machine

/-- Everything the host's turn can run: nothing, when the bytes are no record, or the request they stand for. -/
theorem request_cases (bytes : List Byte) (s : State) :
    request bytes s = .next s ∨
      ∃ i, decode s.par.opc .hreq bytes = .ok i ∧ i.format = .hreq ∧ request bytes s = exec i s := by
  unfold request
  cases hd : decode s.par.opc .hreq bytes with
  | ok i => exact .inr ⟨i, rfl, format_of_decode_hreq hd, rfl⟩
  | error => exact .inl rfl

theorem idleRearm_sameParams (s : State) : SameParams s (idleRearm s) := by
  rw [idleRearm_eq]; simp [SameParams]

theorem newInstance_sameParams (ip rp ch dbl : Nat) (ptr : Addr) (len : BitVec 32) (cb : Option Nat) (s : State) :
    SameParams s (newInstance ip rp ch dbl ptr len cb s) := by
  rw [newInstance_eq]; simp [SameParams]

theorem SameParams.trans {s t u : State} (hst : SameParams s t) (htu : SameParams t u) : SameParams s u := by
  obtain ⟨hpar, hbus, hdma⟩ := hst
  obtain ⟨hpar', hbus', hdma'⟩ := htu
  exact ⟨hpar'.trans hpar, hbus'.trans hbus, hdma'.trans hdma⟩

/-- A request keeps the parameters, whichever of its outcomes is the one. -/
theorem exec_request_sameParams {i : Instr} (hi : i.format = .hreq) {s t : State} (h : exec i s = .next t) :
    SameParams s t := by
  rcases exec_request_cases hi s with he | ⟨c, -, he⟩ | ⟨bus, b, m, evs, -, -, he⟩ |
    ⟨ip, rp, ch, dbl, ptr, len, cb, -, he⟩ | ⟨bus, cs, p, n, q, m, -, -, -, -, -, he⟩ <;> rw [he] at h <;> cases h
  · exact .refl s
  · exact .refl s
  · simp [SameParams]
  · exact (newInstance_sameParams ip rp ch dbl ptr len cb s).trans (idleRearm_sameParams _)

/-- The host's turn keeps the parameters. -/
theorem request_sameParams {bytes : List Byte} {s t : State} (h : request bytes s = .next t) : SameParams s t := by
  rcases request_cases bytes s with he | ⟨i, -, hi, he⟩ <;> rw [he] at h
  · cases h; exact .refl s
  · exact exec_request_sameParams hi h

/-- Every step keeps the parameters: by the agent whose turn it is. -/
theorem step_sameParams {s t : State} (h : step s = .next t) : SameParams s t := by
  cases hs : s.sched with
  | nil =>
    rw [step_of_nil hs] at h
    cases h; exact .refl s
  | cons a rest =>
    have hsched : SameParams s (s.setSched rest) := .refl s
    by_cases hslave : a = .slave
    · obtain ⟨u, hu, hframe⟩ := step_slave_frame (hslave ▸ hs)
      rw [hu] at h; cases h
      exact hframe.params
    rw [step_of_sched hs] at h
    by_cases hrequest : ∃ bytes, a = .request bytes
    · obtain ⟨bytes, rfl⟩ := hrequest
      exact hsched.trans (request_sameParams h)
    · obtain ⟨u, hu, hframe⟩ := turn_frame a (s.setSched rest) hslave (not_exists.1 hrequest)
      rw [hu] at h; cases h
      exact hsched.trans hframe.params

/-- Settles O54: the turn of each agent keeps the parameters (`step_sameParams`). -/
theorem noStepChangesParameters : Obligations.NoStepChangesParameters :=
  fun _ _ => step_sameParams

end Sys2Proof.Machine

/-! Proofs, 10_state.md: every turn keeps the invariant, by the agent that takes it, and reset meets it. -/

namespace Sys2Proof.Machine

/-! ### The invariant: the environment -/

/-- An edge keeps the invariant: it is latched only while SLV_ACTIVE = 1, and then nothing is asked of EDGE_PEND. -/
theorem engineInv_raiseEdge {s : State} (h : EngineInv s) : EngineInv (raiseEdge s) := by
  rw [raiseEdge_eq]
  refine engineInv_slave h ⟨rfl, rfl, rfl⟩ h.mem (fun _ _ => rfl) (h.buses 2) ⟨fun hoff => ?_, h.slave.active,
    h.slave.handler, h.slave.command, h.slave.noCs, h.slave.cfgPtr⟩ rfl h.dma h.orphans
  obtain ⟨hidle, hnone, hpend, hen⟩ := h.slave.inactive hoff
  exact ⟨hidle, hnone, by simpa [hpend] using hoff, hen⟩

/-- The return from the callback keeps the invariant: the machine is in Transfer before and after it, past step T1. -/
theorem engineInv_callbackReturn {s : State} (h : EngineInv s) : EngineInv (callbackReturn s) := by
  rcases callbackReturn_cases s with he | ⟨hin, he⟩ <;> rw [he]
  · exact h
  have htransfer : s.slv.status = .transfer := h.slave.handler (by simp [hin])
  refine engineInv_slave h ⟨rfl, rfl, rfl⟩ h.mem (fun _ _ => rfl) (h.buses 2) ⟨fun hoff => ?_, h.slave.active,
    fun _ => htransfer, h.slave.command, h.slave.noCs, h.slave.cfgPtr⟩ rfl h.dma fun hstopped => .inr ?_
  · obtain ⟨-, hnone, -⟩ := h.slave.inactive hoff
    rw [hin] at hnone; cases hnone
  · exact (h.orphans hstopped).resolve_left fun ⟨_, hnone⟩ => by rw [hin] at hnone; cases hnone

/-- A change of BUSY keeps the invariant, which does not speak of it. -/
theorem engineInv_linkBusy {s : State} (h : EngineInv s) (i : Nat) (busy : Bool) : EngineInv (linkBusy i busy s) := by
  obtain ⟨htx, hrx, hoff, hdbl, hdir, hcs⟩ := h.buses i
  exact engineInv_bus h i { s.bus i with busy := busy } ⟨htx, hrx, hoff, hdbl, hdir, hcs⟩ rfl rfl rfl rfl s.hist

/-! ### The invariant: every step -/

/-- The turn of every agent but SLAVE keeps the invariant. -/
theorem engineInv_turn {a : Action} (hslave : a ≠ .slave) {s t : State} (h : EngineInv s) (ht : turn a s = .next t) :
    EngineInv t := by
  cases a with
  | slave => exact absurd rfl hslave
  | request bytes =>
    rcases request_cases bytes s with he | ⟨i, -, hi, he⟩ <;> rw [turn, he] at ht
    · cases ht; exact h
    · exact engineInv_request i hi h ht
  | hostWrite a b => cases ht; exact engineInv_mem h _ (insert_wf h.mem (wrap_lt _ _) b)
  | callbackReturn => cases ht; exact engineInv_callbackReturn h
  | master =>
    cases ht
    rw [masterStep_eq]
    split
    · exact h
    · exact engineInv_masterTurn h
  | linkOut i =>
    cases ht
    rw [linkOut_eq]
    split
    · exact engineInv_wireOut h i
    · exact h
  | linkIn i e =>
    cases ht
    rw [linkIn_eq]
    split
    · exact engineInv_wireIn h i e
    · exact h
  | linkBusy i busy => cases ht; exact engineInv_linkBusy h i busy
  | edge => cases ht; exact engineInv_raiseEdge h
  | remoteIn e => cases ht; exact engineInv_wireIn h 2 e
  | remoteOut => cases ht; exact engineInv_wireOut h 2
  | dma c => cases ht; exact engineInv_dma h c

/-- Every step keeps the invariant: by the agent whose turn it is. -/
theorem step_keeps_engineInv {s t : State} (h : EngineInv s) (ht : step s = .next t) : EngineInv t := by
  cases hs : s.sched with
  | nil =>
    rw [step_of_nil hs] at ht
    cases ht; exact h
  | cons a rest =>
    by_cases hslave : a = .slave
    · exact engineInv_slaveTurn h (hslave ▸ hs) ht
    · rw [step_of_sched hs] at ht
      exact engineInv_turn hslave (engineInv_sched h rest) ht

/-- Settles O53: the turn of each agent keeps the invariant (`step_keeps_engineInv`). -/
theorem everyStepKeepsInvariant : Obligations.EveryStepKeepsInvariant :=
  fun _ _ => step_keeps_engineInv

/-! ### Reset -/

theorem good_busReset (numCs : Nat) : Bus.reset.Good numCs where
  txFits := by decide
  rxFits := by decide
  offEmpty _ := ⟨rfl, rfl⟩
  dblLegal h := nomatch h
  dirLegal h := nomatch h
  csOneHot := .inl rfl

theorem good_channelReset (aw : Nat) : DmaChannel.reset.Good aw where
  armed h := nomatch h
  src := Nat.two_pow_pos aw
  dst := Nat.two_pow_pos aw

theorem slaveGood_resetOf (p : Params) (nb nd : Nat) : SlaveGood (State.resetOf p nb nd) where
  inactive _ := ⟨rfl, rfl, rfl, by rw [resetOf_bus]; rfl⟩
  active h := nomatch h
  handler h := absurd rfl h
  command h := nomatch h
  noCs := by rw [resetOf_bus]; rfl
  cfgPtr := Nat.two_pow_pos p.aw

theorem masterGood_resetOf (p : Params) (nb nd : Nat) : MasterGood (State.resetOf p nb nd) where
  busy h := absurd rfl h
  others i _ hen := by rw [resetOf_bus] at hen; cases hen
  ended _ := rfl
  ptrs := ⟨Nat.two_pow_pos p.aw, Nat.two_pow_pos p.aw⟩

/-- The invariant holds after reset, under legal parameters. -/
theorem engineInv_resetOf {p : Params} (hp : p.Legal) (nb nd : Nat) : EngineInv (State.resetOf p nb nd) where
  params := hp
  mem := ⟨.nil, fun _ hc => nomatch hc⟩
  buses i := by rw [resetOf_bus]; exact good_busReset _
  slave := slaveGood_resetOf p nb nd
  master := masterGood_resetOf p nb nd
  dma c := by rw [resetOf_chan]; exact good_channelReset _
  orphans := orphansStopped_of fun _ c => by rw [resetOf_chan]; rfl

/-- The request lines by default: even numbers for RX, odd ones for TX (44_dma.md R280, D44). -/
theorem reqLine_default (bus : Nat) (dir : LineDir) :
    reqLine .default bus dir = 2 * bus + if dir = .rx then 0 else 1 := by
  cases dir <;> rfl

/-- The default parameters meet what the spec asks of them; the lines are injective by their parity. -/
theorem Params.default_legal : Params.default.Legal where
  opc := by decide
  errors := by decide
  aw := by decide
  lines bus dir bus' dir' h := by
    rw [reqLine_default, reqLine_default] at h
    cases dir <;> cases dir' <;> simp at h ⊢ <;> omega

/-- Settles O52: by `engineInv_resetOf`, of which reset under the defaults is a case. -/
theorem invariantHoldsAtReset : Obligations.InvariantHoldsAtReset :=
  ⟨fun _ nb nd hp => engineInv_resetOf hp nb nd, Params.default_legal, engineInv_resetOf Params.default_legal _ _⟩

/-- Settles O51: every bus and every channel reads as after reset, the rest is the reset state as written. -/
theorem resetGivesSpecifiedValues : Obligations.ResetGivesSpecifiedValues := by
  intro p nb nd
  refine ⟨rfl, resetOf_numBus p nb nd, resetOf_numDmaCh p nb nd, fun i => ?_, rfl, rfl, rfl, rfl, rfl, rfl,
    fun c => ?_, rfl⟩
  · rw [tfe, resetOf_bus]
    exact ⟨rfl, rfl, rfl, rfl, rfl, rfl⟩
  · rw [resetOf_chan]
    exact ⟨rfl, rfl⟩

end Sys2Proof.Machine

/-! Proofs, 10_state.md R24, R31 to R33: an entry that crosses the wire, and command entries that find no room. -/

namespace Sys2Proof.Machine

/-! ### Entries on the wire -/

/-- A turn of the agent that delivers to an existing bus: REMOTE to bus 2, LINK to the others (10_state.md R22). -/
theorem step_deliver {s : State} {b : Nat} {e : Entry} {rest : List Action} (hb : b < s.numBus)
    (hs : s.sched = (if b = 2 then .remoteIn e else .linkIn b e) :: rest) :
    step s = .next (wireIn b e (s.setSched rest)) := by
  rw [step_of_sched hs]
  split
  · subst b; rfl
  · rw [turn, linkIn_eq, if_pos ⟨hb, ‹_›⟩]

/-- A turn of the agent that takes from an existing bus: REMOTE from bus 2, LINK from the others (10_state.md R22). -/
theorem step_take {s : State} {b : Nat} {rest : List Action} (hb : b < s.numBus)
    (hs : s.sched = (if b = 2 then .remoteOut else .linkOut b) :: rest) :
    step s = .next (wireOut b (s.setSched rest)) := by
  rw [step_of_sched hs]
  split
  · subst b; rfl
  · rw [turn, linkOut_eq, if_pos ⟨hb, ‹_›⟩]

/-- Settles O49: the three cases of `wireIn_cases` are those of the statement. -/
theorem receivedEntryQueuedOrOverflows : Obligations.ReceivedEntryQueuedOrOverflows := by
  intro s b e rest hb hs
  rw [step_deliver hb hs]
  rcases wireIn_cases b e (s.setSched rest) with ⟨he, hoff⟩ | ⟨he, hon, hfull⟩ | ⟨hon, hroom, he⟩ <;>
    rw [setSched_bus] at * <;> rw [he]
  · exact ⟨fun _ => rfl, fun hon => by simp [hoff] at hon, fun hon => by simp [hoff] at hon⟩
  · exact ⟨fun hoff => by simp [hon] at hoff, fun _ _ => rfl, fun _ hroom => by omega⟩
  · exact ⟨fun hoff => by simp [hon] at hoff, fun _ hfull => by omega, fun _ _ =>
      ⟨_, rfl, rfl, fun j hj => bus_setBus_ne _ _ _ _ hj.symm, bus_setBus_self _ _ _ hb⟩⟩

/-- Settles O50: the two cases of `wireOut_cases` are those of the statement. -/
theorem sentEntryLeavesAtHead : Obligations.SentEntryLeavesAtHead := by
  intro s b rest hb hs
  rw [step_take hb hs]
  rcases wireOut_cases b (s.setSched rest) with ⟨he, hstill⟩ | ⟨e, es, hon, htx, he⟩ <;>
    rw [setSched_bus] at * <;> rw [he]
  · refine ⟨fun _ => rfl, fun e es hon htx => ?_⟩
    simp [hon, htx] at hstill
  · refine ⟨fun hstill => by simp [hon, htx] at hstill, fun e' es' _ htx' => ?_⟩
    obtain ⟨rfl, rfl⟩ := List.cons.inj (htx.symm.trans htx')
    exact ⟨_, rfl, rfl, fun j hj => bus_setBus_ne _ _ _ _ hj.symm, bus_setBus_self _ _ _ hb⟩

/-! ### The command entries of a master operation -/

/-- What the first step of SENDW, RECV and RECVW pushes: the filler, or units of the frame width for RECV and words for
the others (41_master.md R156, R157, R165, R171). -/
theorem prefixEntries_eq {s : State} (hop : s.mst.op ≠ .send) :
    prefixEntries s = if s.mst.op ≠ .sendw ∧ s.mst.cmdCnt = 0 then [0xFFFFFFFF]
      else unitsOf s.par.aw s.mem s.mst.cmdPtr (if s.mst.op = .recv then s.mst.w else 4) 0
        (if s.mst.op = .recv then s.mst.cmdCnt / s.mst.w else s.mst.cmdCnt) := by
  have hfiller : filler = 0xFFFFFFFF := rfl
  unfold prefixEntries
  cases h : s.mst.op with
  | send => exact absurd h hop
  | sendw => simp
  | recv => simp [hfiller]
  | recvw => simp [hfiller]

/-- SENDW fills next, its chip-select already asserted; RECV and RECVW assert it and drain (41_master.md R156, R165). -/
theorem prefixNext_eq {s : State} (hop : s.mst.op ≠ .send) :
    prefixNext s = (if s.mst.op = .sendw then .fill else .drain,
      if s.mst.op = .sendw then (s.bus s.mst.bus).cs else 2 ^ s.mst.csel) := by
  unfold prefixNext
  cases h : s.mst.op with
  | send => exact absurd h hop
  | sendw => rfl
  | recv => simp [csMask_eq]
  | recvw => simp [csMask_eq]

/-- Settles O35: `masterCmd_eq` where not every command entry finds room. -/
theorem prefixOverflowIsRecorded : Obligations.PrefixOverflowIsRecorded := by
  intro s rest hnext hop hb htx w n pushed hlong
  have hpushed : prefixEntries (s.setSched rest) = pushed := prefixEntries_eq hop
  have hnextState := prefixNext_eq (s := s.setSched rest) hop
  obtain ⟨evs, he, honly, -, hoverflow⟩ := masterCmd_eq (s.setSched rest)
  rw [hpushed, hnextState] at he
  rw [hpushed] at hoverflow
  refine ⟨_, evs, (step_master hnext).trans (congrArg _ he), honly, hoverflow hb htx hlong, rfl,
    fun j hj => bus_setBus_ne _ _ _ _ hj.symm, ?_⟩
  rw [List.take_append, List.take_of_length_le htx]
  exact bus_setBus_self _ _ _ hb

end Sys2Proof.Machine

/-! Proofs, 10_state.md R22, R28: a request is decoded and run; a master operation stops on a bus never configured. -/

namespace Sys2Proof.Machine

/-- Settles O9: a step at a request is `request` at the state without the turn, which decodes the bytes. -/
theorem stepRunsDecodedRequest : Obligations.StepRunsDecodedRequest := by
  intro s bytes rest hs
  have hstep : step s = request bytes (s.setSched rest) := step_of_sched hs
  refine ⟨fun i hi => ?_, fun err herr => ?_⟩ <;> rw [hstep, request, setSched_par]
  · rw [hi]; rfl
  · rw [herr]; rfl

/-- A request of the master role whose operands Validate accepts reads DBL of its bus before anything else. -/
theorem exec_masterOps_of_accept {s : State} {bus cs : Nat} {p q : Addr} {n m : BitVec 32} {i : Instr}
    (hi : i ∈ masterOps bus cs p n q m) (hv : validate bus cs s = .accept) :
    ∃ t, exec i s = withWidth bus s t := by
  simp only [masterOps, List.mem_cons, List.not_mem_nil, or_false] at hi
  rcases hi with rfl | rfl | rfl | rfl <;>
    simp only [exec, execSend, execRecv, execSendw, execRecvw, hv, onVerdict] <;> exact ⟨_, rfl⟩

/-- Settles O31: Validate accepts the request, and the read of DBL that follows faults. -/
theorem unconfiguredBusFaults : Obligations.UnconfiguredBusFaults := by
  intro s bus cs p q n m hopen hbus hcs hdbl i hi
  obtain ⟨t, he⟩ := exec_masterOps_of_accept hi (validate_accept hopen hbus hcs)
  rw [he, withWidth, hdbl]; rfl

end Sys2Proof.Machine

/-! Proofs, 20_memory.md R62, R64, R77: units of a buffer, aligned or not, stored and loaded, and the payload of a write
command sent back by a read command. -/

namespace Sys2Proof.Machine

/-! ### One unit -/

/-- A frame width divides the address space, so no unit of an aligned buffer loses its alignment where addresses wrap. -/
theorem frameBytes_dvd_two_pow_aw {p : Params} (hp : p.Legal) (b : Nat) : frameBytes b ∣ 2 ^ p.aw := by
  have hword : frameBytes b ∣ 2 ^ 2 := by rcases frameBytes_cases b with h | h | h <;> rw [h] <;> decide
  have haw := hp.aw
  exact hword.trans (Nat.pow_dvd_pow 2 (by omega))

/-- No unit is longer than the address space. -/
theorem frameBytes_le_two_pow_aw {p : Params} (hp : p.Legal) (b : Nat) : frameBytes b ≤ 2 ^ p.aw :=
  Nat.le_of_dvd (Nat.two_pow_pos p.aw) (frameBytes_dvd_two_pow_aw hp b)

/-- A buffer is aligned, or each of its units is misaligned (40_classifier.md R125). -/
theorem aligned_unitAddr {aw w : Nat} (hw : w ∣ 2 ^ aw) (a : Addr) (k : Nat) :
    aligned (unitAddr aw a k w) w = aligned a w := by
  simp [aligned, unitAddr, wrap, Nat.mod_mod_of_dvd _ hw]

/-- The accesses of a load, by the remainder of the buffer's address and by addresses that count from the buffer. -/
theorem unitReads_eq (aw : Nat) (a : Addr) (k w : Nat) :
    unitReads aw a k w = if a % w = 0 then [.memR (unitAddr aw a k w) w]
      else ((List.range w).map fun j => Event.memR (wrap aw (a + k * w + j)) 1).reverse := by
  simp only [unitReads, aligned, beq_iff_eq, unitAddr, wrap_add_wrap]

/-- The accesses of a store, likewise. -/
theorem unitWrites_eq (aw : Nat) (a : Addr) (k w : Nat) (e : Entry) :
    unitWrites aw a k w e = if a % w = 0 then [.memW (unitAddr aw a k w) w (lowBytes w e)]
      else ((List.range w).map fun j =>
        Event.memW (wrap aw (a + k * w + j)) 1 ((byteOf e j).setWidth 32)).reverse := by
  simp only [unitWrites, aligned, beq_iff_eq, unitAddr, wrap_add_wrap]

/-- Settles O6: `loadUnit_eq` gives one value for both arms, and the accesses that `unitReads_eq` lists. -/
theorem misalignedLoadGivesSameValue : Obligations.MisalignedLoadGivesSameValue := by
  intro a k b s hp aw w
  rw [loadUnit_eq, unitReads_eq]
  exact ⟨aligned_unitAddr (frameBytes_dvd_two_pow_aw hp b) a k, rfl, rfl, by simp [aligned, Nat.mod_one]⟩

/-- Settles O7: both arms of `storeUnit_eq` store the same bytes; the rules of `storeBytes` say where they stand and what
they leave alone. -/
theorem misalignedStoreWritesSameBytes : Obligations.MisalignedStoreWritesSameBytes := by
  intro a k b e s hp aw w t
  have ht : t = { s with
      mem := storeBytes aw s.mem (a + k * w) w e
      hist := unitWrites aw a k w e ++ s.hist } := by
    rw [← storeBytes_wrap]; exact storeUnit_eq a k w e s
  rw [unitWrites_eq] at ht
  rw [ht]
  exact ⟨byteAt_storeBytes_inside aw s.mem _ w e (frameBytes_le_two_pow_aw hp b),
    fun x hx => byteAt_storeBytes_outside aw s.mem _ x w e hx, rfl⟩

/-- Settles O8: the load reads the unit's address, where the store left the low bytes (`loadBytes_storeBytes`). -/
theorem storedUnitLoadsBack : Obligations.StoredUnitLoadsBack := by
  intro a k b e s hp
  rw [loadUnit_eq, storeUnit_eq, ← lowBytes_toNat]
  exact congrArg _ (loadBytes_storeBytes _ _ _ _ _ (frameBytes_le_two_pow_aw hp b))

/-! ### A write command, then a read command -/

/-- The check of a write command passes when the payload is complete. -/
theorem checkRx_of_complete {s : State} (h : unitCount s ≤ (s.bus 2).rx.length) : checkRx s = s := by
  have hcheck : ¬ rxLevel 2 s < unitCount s := Nat.not_lt.2 h
  simp [checkRx, failWith, hcheck]

/-- In Transfer a write-type command with a complete payload stores it whole, and records no error (43_slave_ops.md R250,
R252). -/
theorem exec_write_of_complete {i : Instr} {addr : BitVec 32} {len : BitVec 16} {sum : Byte}
    (hi : i ∈ wireCommands addr len sum) {s : State} {dst : Addr} (hdst : completionOf i s = commit dst (checkRx s))
    (hs : s.slv.status = .transfer) (hrx : (s.bus 2).rx.length = unitCount s) :
    ∃ t, exec i s = .next t ∧ t.cmd = s.cmd ∧
      t.mem = withUnits s.par.aw s.mem dst (frameWidth 2 s) 0 (s.bus 2).rx := by
  obtain ⟨writes, -, hcommit⟩ := commit_eq dst s
  have hpopped : poppedEntries (s.bus 2).rx s.draws (unitCount s) = (s.bus 2).rx := by simp [poppedEntries, ← hrx]
  rw [hpopped] at hcommit
  rw [exec_transfer hi hs, hdst, checkRx_of_complete hrx.ge, hcommit, endT1_eq]
  exact ⟨_, rfl, rfl, rfl⟩

/-- The state in which the setup of an accepted command runs: its descriptor latched, in Transfer (42_slave_fsm.md R203,
R206). -/
def accepted (op : Byte) (addr : BitVec 32) (len : BitVec 16) (s : State) : State :=
  setStatus .transfer (latchCommand op addr len s)

theorem cfgAddr_accepted (op : Byte) (addr : BitVec 32) (len : BitVec 16) (s : State) :
    cfgAddr (accepted op addr len s) = wrap s.par.aw (s.slv.cfgPtr + addr.toNat) := rfl

theorem rawAddr_accepted (op : Byte) (addr : BitVec 32) (len : BitVec 16) (s : State) :
    rawAddr (accepted op addr len s) = wrap s.par.aw addr.toNat := rfl

theorem unitCount_accepted (op : Byte) (addr : BitVec 32) (len : BitVec 16) (s : State) :
    unitCount (accepted op addr len s) = decodedLen len / frameWidth 2 s := unitCount_latchCommand op addr len s

/-- A read-type command that the Command phase accepts leaves in the transmit FIFO of bus 2 the units of the source its
setup computes (43_slave_ops.md R232, R236). -/
theorem exec_read_of_accepted {i : Instr} {op : Byte} {addr : BitVec 32} {len : BitVec 16} {s : State} {src : Addr}
    (hi : i ∈ wireCommands addr len (headerSum op addr len)) (hop : opcodeOf s.par.opc i = op)
    (hsrc : setupOf i (accepted op addr len s) = preload src (accepted op addr len s))
    (hs : s.slv.status = .command) (hlen : decodedLen len ≤ 8) (h2 : 2 < s.numBus) :
    ∃ v, exec i s = .next v ∧
      (v.bus 2).tx = unitsOf s.par.aw s.mem src (frameWidth 2 s) 0 (decodedLen len / frameWidth 2 s) := by
  have hroom : decodedLen len / frameWidth 2 s ≤ 32 := (Nat.div_le_self _ _).trans (by omega)
  obtain ⟨reads, -, hpreload⟩ := preload_eq src (accepted op addr len s) (unitCount_accepted op addr len s ▸ hroom)
  have hrun : exec i s = .next (pinSet false (preload src (accepted op addr len s))) := by
    rw [exec_command hi (by simp [hs]), hop, commandPhase_accept rfl fun _ => hlen, ← hsrc]; rfl
  rw [hpreload, unitCount_accepted, pinSet_eq] at hrun
  exact ⟨_, hrun, congrArg Bus.tx (bus_setBus_self _ 2 _ h2)⟩

/-- Units of at most eight bytes in all, stored from an address on, load back from it, each cut to its width: they do not
wrap onto one another (20_memory.md R77). -/
theorem unitsOf_withUnits_of_short {p : Params} (hp : p.Legal) (m : List Host.Cell) (a : Addr) (b : Nat)
    {es : List Entry} {n : Nat} (hlen : es.length = n / frameBytes b) (hn : n ≤ 8) :
    (unitsOf p.aw (withUnits p.aw m a (frameBytes b) 0 es) a (frameBytes b) 0 (n / frameBytes b)).map BitVec.toNat
      = es.map fun e => e.toNat % 2 ^ (8 * frameBytes b) := by
  have hfit : (es.length + 1) * frameBytes b ≤ 2 ^ p.aw := by
    have hspace := two_pow_aw_ge hp
    have hunits := Nat.div_mul_le_self n (frameBytes b)
    have hunit := frameBytes_le b
    rw [hlen, Nat.add_mul]
    omega
  rw [← hlen, unitsOf_withUnits p.aw m a (frameBytes b) 0 es hfit, List.map_map]
  exact List.map_congr_left fun e _ => lowBytes_toNat (frameBytes b) e

/-- Settles O28: the write commits the payload to an address (`exec_write_of_complete`), which the setup of the read
command of the same kind computes again; the preload loads the payload from there (`exec_read_of_accepted`,
`unitsOf_withUnits_of_short`). -/
theorem writeThenReadReturnsPayload : Obligations.WriteThenReadReturnsPayload := by
  intro s u len config hp hs hlatched hlen hrx w op sum r
  have hw : w ∈ wireCommands s.cmd.addr len 0 := by cases config <;> simp [w, wireCommands]
  have hr : r ∈ wireCommands s.cmd.addr len sum := by cases config <;> simp [r, wireCommands]
  have hop : opcodeOf s.par.opc r = op := by cases config <;> rfl
  obtain ⟨dst, hdst, hsrc⟩ : ∃ dst, completionOf w s = commit dst (checkRx s) ∧
      (u.par = s.par → u.slv.cfgPtr = s.slv.cfgPtr →
        setupOf r (accepted op s.cmd.addr len u) = preload dst (accepted op s.cmd.addr len u)) := by
    cases config with
    | true =>
      refine ⟨cfgAddr s, rfl, fun hpar hptr => congrArg (preload · _) ?_⟩
      rw [cfgAddr_accepted, hpar, hptr, cfgAddr]
    | false =>
      refine ⟨rawAddr s, rfl, fun hpar _ => congrArg (preload · _) ?_⟩
      rw [rawAddr_accepted, hpar, rawAddr]
  have hcount : (s.bus 2).rx.length = unitCount s := by rw [hrx, ← hlatched]; rfl
  obtain ⟨t, ht, hcmd, hmem⟩ := exec_write_of_complete hw hdst hs hcount
  refine ⟨t, ht, by rw [hcmd], fun humem hpar h2 hu hptr hdbl => ?_⟩
  have hwidth : frameWidth 2 u = frameWidth 2 s := congrArg (fun b : BitVec 6 => frameBytes b.toNat) hdbl
  obtain ⟨v, hv, htx⟩ := exec_read_of_accepted hr (hpar ▸ hop) (hsrc hpar hptr) hu hlen h2
  rw [humem, hmem, hpar, hwidth] at htx
  exact ⟨v, hv, htx ▸ unitsOf_withUnits_of_short hp s.mem dst _ hrx hlen⟩

end Sys2Proof.Machine

/-! Proofs, 30_encoding.md: the bytes of every operation decode to it (R99; the request record); the checksum of a header
(R92); the header cut into entries (R97). -/

namespace Sys2Proof

/-! ### The request record -/

theorem requestWords_length {i : Instr} (hi : i.format = .hreq) : (requestWords i).length = 9 := by
  cases i with
  | slaveConfig _ _ _ _ _ _ cb => cases cb <;> rfl
  | send | recv | sendw | recvw | busConfig | nonstdConfig => rfl
  | readConfig | writeConfig | readDataByte | writeDataByte | readDataBlock | writeDataBlock => cases hi

/-- A well-formed request fits its record: operands of a width by that width, the others by well-formedness. -/
theorem requestWords_lt {o : Opc} {i : Instr} (hi : WellFormed o i = true) : ∀ x ∈ requestWords i, x < 2 ^ 64 := by
  have hlt {w : Nat} (hw : w ≤ 64) (v : BitVec w) : v.toNat < 2 ^ 64 :=
    v.isLt.trans_le (Nat.pow_le_pow_right (by decide) hw)
  have h32 := hlt (w := 32) (by decide)
  have h8 := hlt (w := 8) (by decide)
  have h2 := hlt (w := 2) (by decide)
  cases i with
  | slaveConfig _ _ _ _ _ _ cb => cases cb <;> simp_all [WellFormed, Fits, requestWords]
  | send | recv | sendw | recvw | busConfig | nonstdConfig => simp_all [WellFormed, Fits, requestWords]
  | readConfig | writeConfig | readDataByte | writeDataByte | readDataBlock | writeDataBlock =>
    exact List.forall_mem_nil _

/-- The words of a request decode to it: each operand of a width stands below its bound. -/
theorem decodeWords_requestWords {i : Instr} (hi : i.format = .hreq) : decodeWords (requestWords i) = .ok i := by
  have h32 (v : BitVec 32) := v.isLt
  have h8 (v : BitVec 8) := v.isLt
  have h2 (v : BitVec 2) := v.isLt
  cases i with
  | slaveConfig _ _ _ _ _ _ cb => cases cb <;> simp_all [requestWords, decodeWords]
  | send | recv | sendw | recvw | busConfig | nonstdConfig => simp_all [requestWords, decodeWords]
  | readConfig | writeConfig | readDataByte | writeDataByte | readDataBlock | writeDataBlock => cases hi

/-- The record of a well-formed request decodes to it (log entry 12). -/
theorem decodeRequest_requestBytes {o : Opc} {i : Instr} (hi : i.format = .hreq) (hw : WellFormed o i = true) :
    decodeRequest (requestBytes i) = .ok i := by
  rw [requestBytes, decodeRequest_flatMap _ (requestWords_length hi) (requestWords_lt hw), decodeWords_requestWords hi]

end Sys2Proof

namespace Sys2Proof.Machine

/-! ### The header -/

/-- An operation of the header format is a wire command, encoded as the header of its opcode byte and its fields. -/
theorem exists_wireCommands {i : Instr} (hi : i.format = .hdr) :
    ∃ addr len sum, i ∈ wireCommands addr len sum ∧ ∀ o, encode o i = headerBytes (opcodeOf o i) addr len sum := by
  cases i with
  | readConfig addr len sum | writeConfig addr len sum | readDataByte addr len sum | writeDataByte addr len sum
  | readDataBlock addr len sum | writeDataBlock addr len sum =>
    exact ⟨addr, len, sum, by simp [wireCommands], fun _ => rfl⟩
  | send | recv | sendw | recvw | busConfig | nonstdConfig | slaveConfig => cases hi

/-- Settles O1: a header by `decodeHeader_of_mem`, a request by `decodeRequest_requestBytes`. -/
theorem decodeOfEncodeGivesOperationBack : Obligations.DecodeOfEncodeGivesOperationBack := by
  intro o i ho hw
  cases hf : i.format with
  | hdr =>
    obtain ⟨addr, len, sum, hi, henc⟩ := exists_wireCommands hf
    rw [henc]
    exact decodeHeader_of_mem ho hi
  | hreq =>
    rw [encode_request hf]
    exact decodeRequest_requestBytes hf hw

/-- The fields of a header of eight given bytes (30_encoding.md R91). -/
theorem headerBytes_of_bytes (h0 h1 h2 h3 h4 h5 h6 h7 : Byte) :
    headerBytes h0 (le32 h1 h2 h3 h4) (le16 h5 h6) h7 = [h0, h1, h2, h3, h4, h5, h6, h7] := by
  simp [headerBytes, headerBody, byteOf_le32, byteOf_le16]

/-- The checksum byte such a header must carry (30_encoding.md R92). -/
theorem headerSum_toNat (h0 h1 h2 h3 h4 h5 h6 : Byte) :
    (headerSum h0 (le32 h1 h2 h3 h4) (le16 h5 h6)).toNat
      = (h0.toNat + h1.toNat + h2.toNat + h3.toNat + h4.toNat + h5.toNat + h6.toNat) % 256 := by
  simp [headerSum, checksum, headerBody, byteOf_le32, byteOf_le16, Nat.add_assoc]

/-- A wire command is well formed when its checksum is right and, unless it is a block command, its length is at most 8
(30_encoding.md R92, R100). -/
theorem wellFormed_iff_of_mem {o : Opc} {i : Instr} {addr : BitVec 32} {len : BitVec 16} {sum : Byte}
    (hi : i ∈ wireCommands addr len sum) :
    WellFormed o i = true ↔ sum = headerSum (opcodeOf o i) addr len ∧ (nonBlockOf i = true → LenGood len = true) := by
  simp only [wireCommands, List.mem_cons, List.not_mem_nil, or_false] at hi
  rcases hi with rfl | rfl | rfl | rfl | rfl | rfl <;> simp [WellFormed, SumGood, opcodeOf, nonBlockOf]

/-- Settles O4: the bytes are the header of the command they decode to (`decodeHeader_headerBytes`), which is well formed
as `wellFormed_iff_of_mem` says, and `headerSum_toNat` is the sum. -/
theorem headerWellFormedOnlyIfChecksumIsSum : Obligations.HeaderWellFormedOnlyIfChecksumIsSum := by
  intro o h0 h1 h2 h3 h4 h5 h6 h7 ho
  refine ⟨by linarith [h0.isLt, h1.isLt, h2.isLt, h3.isLt, h4.isLt, h5.isLt, h6.isLt], fun i hdecode => ?_⟩
  rw [← headerBytes_of_bytes] at hdecode
  rw [← headerSum_toNat, BitVec.toNat_inj]
  rcases decodeHeader_headerBytes o h0 (le32 h1 h2 h3 h4) (le16 h5 h6) h7 with ⟨j, hj, hop, -, hok⟩ | ⟨-, herr⟩
  · obtain rfl : j = i := Except.ok.inj (hok.symm.trans hdecode)
    obtain ⟨-, hblock⟩ := isNonBlock_opcodeOf ho hj
    rw [hop] at hblock
    rw [wellFormed_iff_of_mem hj, hop, hblock]
    exact ⟨And.left, fun hb hsum => ⟨hsum, fun hn => by simp [hn] at hb⟩⟩
  · rw [herr] at hdecode; cases hdecode

/-! ### The header cut into entries -/

/-- Byte `j` of entry `k` is byte `k * w + j` of the entries' bytes (30_encoding.md R97). -/
theorem entryBytes_getElem? {w j : Nat} (hj : j < w) (es : List Entry) (k : Nat) :
    (entryBytes w es)[k * w + j]? = es[k]?.map (byteOf · j) := by
  induction es generalizing k with
  | nil => rfl
  | cons e es ih =>
    have hcons : entryBytes w (e :: es) = (List.range w).map (byteOf e) ++ entryBytes w es := rfl
    cases k with
    | zero => rw [hcons, List.getElem?_append_left (by simpa using hj)]; simp [hj]
    | succ k =>
      rw [hcons, List.getElem?_append_right (by simp [Nat.succ_mul]; omega), List.getElem?_cons_succ, ← ih]
      congr 1; simp [Nat.succ_mul]; omega

/-- A pop that finds its entry present takes it. -/
theorem poppedEntries_getElem? {rx : List Entry} {n k : Nat} {e : Entry} (draws : Nat) (hk : k < n)
    (he : rx[k]? = some e) : (poppedEntries rx draws n)[k]? = some e := by
  have hpresent : k < rx.length := (List.getElem?_eq_some_iff.1 he).1
  rw [poppedEntries, List.getElem?_append_left (by simp [hk, hpresent]), List.getElem?_take_of_lt hk, he]

/-- Byte `k` of a number by arithmetic. -/
theorem byteOf_eq_ofNat {w : Nat} (v : BitVec w) (k : Nat) : byteOf v k = BitVec.ofNat 8 (v.toNat / 2 ^ (8 * k)) :=
  BitVec.eq_of_toNat_eq (by simp [byteOf, Nat.shiftRight_eq_div_pow])

theorem idleRearm_hdr (s : State) : (idleRearm s).hdr = s.hdr := by rw [idleRearm_eq]; rfl

theorem latchCommand_hdr (op : Byte) (addr : BitVec 32) (len : BitVec 16) (s : State) :
    (latchCommand op addr len s).hdr = s.hdr := rfl

/-- A step of the Command phase leaves in HDR the bytes it read, whatever becomes of them (42_slave_fsm.md R200). -/
theorem step_command_hdr {s : State} {rest : List Action} (h : EdgeNext s .command rest) :
    ∃ t, step s = .next t ∧ t.hdr.toList = fetchedBytes s := by
  have hhdr : (fetchHeader (acked rest s)).hdr.toList = fetchedBytes s := fetchHeader_hdr (acked rest s)
  obtain ⟨op, addr, len, sum, hbytes⟩ := exists_headerBytes (fetchedBytes_length s)
  rw [fetchedBytes_eq_headerOf] at hbytes
  rcases step_command_cases h hbytes with ⟨-, he⟩ | ⟨-, -, he⟩ | ⟨i, hi, -, -, -, hlen, he⟩
  · exact ⟨_, he, by rw [idleRearm_hdr, hhdr]⟩
  · exact ⟨_, he, by rw [idleRearm_hdr, latchCommand_hdr, hhdr]⟩
  · obtain ⟨_, _, _, _, _, _, hsetup, -⟩ := enterTransfer_setupOf_eq hi hlen op (fetchHeader (acked rest s))
    exact ⟨_, he, by rw [hsetup]; exact hhdr⟩

/-- Settles O13: HDR holds the bytes of the entries popped (`step_command_hdr`), cut as `entryBytes_getElem?` says. -/
theorem headerCutIntoEntries : Obligations.HeaderCutIntoEntries := by
  intro s rest hnext
  obtain ⟨t, ht, hhdr⟩ := step_command_hdr hnext
  refine ⟨t, ht, fun k hk j hj e he => ?_⟩
  rw [hhdr, fetchedBytes, entryBytes_getElem? hj, poppedEntries_getElem? _ hk he, Option.map_some, byteOf_eq_ofNat]

end Sys2Proof.Machine

/-! Proofs, 40_classifier.md R120, R121: the frame width by its class, and the header as a whole number of units. -/

namespace Sys2Proof.Machine

theorem frameBytes_dvd_eight (b : Nat) : frameBytes b ∣ 8 :=
  Dvd.intro_left _ (units_mul_width b)

/-- Settles O5: the width of a class is a case of `WidthClass.bytes`; what divides the 8 bytes of a header
(`frameBytes_dvd_eight`) divides their multiples. -/
theorem frameWidthDividesHeader : Obligations.FrameWidthDividesHeader := by
  intro b
  have hdvd := frameBytes_dvd_eight b
  exact ⟨congrArg WidthClass.bytes, congrArg WidthClass.bytes, congrArg WidthClass.bytes, rfl,
    hdvd, hdvd.trans (by decide), hdvd.trans (by decide), rfl⟩

end Sys2Proof.Machine

/-! Proofs, 41_master.md R141, R144, R145, R154, R155, R164, R170, R180, R182: the requests of the master role, accepted or
turned away by their checks. -/

namespace Sys2Proof.Machine

/-! ### The verdict of Validate -/

theorem validate_busOutOfRange {s : State} {bus : Nat} (cs : Nat) (hopen : Open s) (hbus : s.numBus ≤ bus) :
    validate bus cs s = .abort .busOutOfRange := by
  rw [validate, closed_eq_false hopen, if_neg Bool.false_ne_true, if_pos hbus]

theorem validate_slaveBus {s : State} (cs : Nat) (hopen : Open s) (hbus : 2 < s.numBus) :
    validate 2 cs s = .abort .slaveBusInMaster := by
  rw [validate, closed_eq_false hopen, if_neg Bool.false_ne_true, if_neg (Nat.not_le.2 hbus), if_pos slaveBus_eq.symm]

theorem validate_csOutOfRange {s : State} {bus cs : Nat} (hopen : Open s) (hbus : MasterBus s bus)
    (hcs : s.par.numCs ≤ cs) : validate bus cs s = .turnAway := by
  obtain ⟨hexists, hmaster⟩ := hbus
  rw [validate, closed_eq_false hopen, if_neg Bool.false_ne_true, if_neg (Nat.not_le.2 hexists), if_neg hmaster,
    if_pos hcs]

/-- A request of the master role is Validate, then the read of DBL. -/
theorem exec_masterOps_eq {bus cs : Nat} {p q : Addr} {n m : BitVec 32} {i : Instr} (hi : i ∈ masterOps bus cs p n q m)
    (s : State) : ∃ t, exec i s = onVerdict (validate bus cs s) s (withWidth bus s t) := by
  simp only [masterOps, List.mem_cons, List.not_mem_nil, or_false] at hi
  rcases hi with rfl | rfl | rfl | rfl <;> exact ⟨_, rfl⟩

/-- A configuration of a master bus is Validate of chip select 0, then a check of its own. -/
theorem exec_configuration_eq {bus dbl : Nat} {wm : BitVec 2} {il al wc : BitVec 8} {i : Instr}
    (hi : i ∈ [Instr.busConfig bus dbl wm, Instr.nonstdConfig bus il al wc]) (s : State) :
    ∃ ok cause go, exec i s = onVerdict ((validate bus 0 s).andThen ok cause) s go := by
  simp only [List.mem_cons, List.not_mem_nil, or_false] at hi
  rcases hi with rfl | rfl <;> exact ⟨_, _, _, rfl⟩

/-- What Validate aborts, whatever the chip select, stops each of the six requests before any write. -/
theorem exec_of_validate_abort {s : State} {bus cs dbl : Nat} {p q : Addr} {n m : BitVec 32} {wm : BitVec 2}
    {il al wc : BitVec 8} {i : Instr} {cause : AbortCause}
    (hi : i ∈ Instr.busConfig bus dbl wm :: Instr.nonstdConfig bus il al wc :: masterOps bus cs p n q m)
    (hv : ∀ c, validate bus c s = .abort cause) : exec i s = .next (raiseAbort cause s) := by
  rcases List.mem_append.1 (show i ∈ [Instr.busConfig bus dbl wm, Instr.nonstdConfig bus il al wc] ++ _ from hi)
    with hi | hi
  · obtain ⟨ok, own, go, he⟩ := exec_configuration_eq hi s
    rw [he, hv]; rfl
  · obtain ⟨t, he⟩ := exec_masterOps_eq hi s
    rw [he, hv]; rfl

/-- Settles O33: the verdicts of Validate in R309's order, and what follows each. -/
theorem validateAbortsBeforeAnyWrite : Obligations.ValidateAbortsBeforeAnyWrite := by
  intro s bus cs dbl p q n m wm il al wc hopen
  refine ⟨fun i hi => ⟨fun hbus => ?_, ?_⟩, fun i hi hbus hcs => ?_, fun i hi hbus hcs => ?_⟩
  · exact exec_of_validate_abort hi fun c => validate_busOutOfRange c hopen hbus
  · rintro ⟨rfl, hbus⟩
    exact exec_of_validate_abort hi fun c => validate_slaveBus c hopen hbus
  · obtain ⟨t, he⟩ := exec_masterOps_eq hi s
    rw [he, validate_csOutOfRange hopen hbus hcs]; rfl
  · obtain ⟨ok, own, go, he⟩ := exec_configuration_eq hi s
    rw [he, validate_csOutOfRange hopen hbus hcs.le]; rfl

/-! ### Accepted operations -/

/-- A master operation that passes the checks on a configured bus performs its setup step. -/
theorem onVerdict_withWidth_of_accept {s : State} {bus cs : Nat} (hopen : Open s) (hbus : MasterBus s bus)
    (hcs : cs < s.par.numCs) (hdbl : (s.bus bus).dblWritten = true) (t : State) :
    onVerdict (validate bus cs s) s (withWidth bus s t) = .next t := by
  rw [validate_accept hopen hbus hcs, withWidth, if_pos hdbl]; rfl

/-- The open step S1 writes one bus (41_master.md R145). -/
theorem openSend_bus_self {s : State} {bus : Nat} (cs : Nat) (hbus : bus < s.numBus) :
    (openSend bus cs s).bus bus = { s.bus bus with cs := 2 ^ cs, dir := .transmitOnly, en := true } := by
  rw [openSend, csMask_eq, bus_setBus_self _ _ _ hbus]

/-- The receive-length register holds the frame count minus one, modulo 2^32 (D14). -/
theorem ofNat_sub_one (k : Nat) : BitVec.ofNat 32 k - 1 = BitVec.ofNat 32 (k + (2 ^ 32 - 1)) := by
  rw [BitVec.ofNat_add, BitVec.sub_eq_add_neg]
  congr 1

/-- The open step V1 writes one bus (41_master.md R155). -/
theorem openRecv_bus_self {s : State} {bus : Nat} (cmdLen rxLen : BitVec 32) (hbus : bus < s.numBus) :
    (openRecv bus cmdLen rxLen s).bus bus = { s.bus bus with
      dir := if cmdLen = 0 then .receiveOnly else .readAfterWrite
      rxcnt := BitVec.ofNat 32 (rxLen.toNat / frameWidth bus s + (2 ^ 32 - 1))
      en := true } := by
  rw [openRecv, bus_setBus_self _ _ _ hbus, ofNat_sub_one, frames]

/-- Settles O29: both operations are accepted, and their setup is S1 (`openSend_bus_self`) with the operands latched. -/
theorem sendRequestOpensTransmit : Obligations.SendRequestOpensTransmit := by
  intro s bus cs cbuf ccnt buf len hopen hbus hcs hdbl i hi
  have hgo := onVerdict_withWidth_of_accept hopen hbus hcs hdbl
  have hself := openSend_bus_self cs hbus.1
  have hframe : ∀ j, j ≠ bus → (openSend bus cs s).bus j = s.bus j := fun j hj => bus_setBus_ne _ _ _ _ hj.symm
  simp only [List.mem_cons, List.not_mem_nil, or_false] at hi
  rcases hi with rfl | rfl
  · exact ⟨_, hgo _, rfl, fun _ => rfl, hframe, hself, fun _ => rfl, nofun⟩
  · exact ⟨_, hgo _, rfl, fun _ => rfl, hframe, hself, nofun, fun _ => rfl⟩

/-- Settles O30: both operations are accepted, and their setup is V1 (`openRecv_bus_self`) with the operands latched. -/
theorem recvRequestOpensReceive : Obligations.RecvRequestOpensReceive := by
  intro s bus cs cbuf ccnt buf len hopen hbus hcs hdbl i hi w
  have hgo := onVerdict_withWidth_of_accept hopen hbus hcs hdbl
  have hself := openRecv_bus_self ccnt len hbus.1
  have hframe : ∀ j, j ≠ bus → (openRecv bus ccnt len s).bus j = s.bus j := fun j hj => bus_setBus_ne _ _ _ _ hj.symm
  simp only [List.mem_cons, List.not_mem_nil, or_false] at hi
  rcases hi with rfl | rfl
  · exact ⟨_, hgo _, rfl, fun _ => rfl, hframe, hself, by rw [if_pos rfl]; rfl⟩
  · exact ⟨_, hgo _, rfl, fun _ => rfl, hframe, hself, by rw [if_neg nofun]; rfl⟩

/-! ### The two bus configurations -/

/-- A configuration accepted by Validate goes on when its own check passes, and aborts when it fails. -/
theorem andThen_of_accept {s : State} {bus : Nat} (hopen : Open s) (hbus : MasterBus s bus) (hcs : 0 < s.par.numCs)
    (ok : Bool) (cause : AbortCause) :
    (validate bus 0 s).andThen ok cause = if ok then .accept else .abort cause := by
  rw [validate_accept hopen hbus hcs]; rfl

/-- BUS_CONFIG past its checks (41_master.md R180, 60_exceptions.md R321). -/
theorem exec_busConfig_of_accept {s : State} {bus dbl : Nat} (wm : BitVec 2)
    (hcheck : (validate bus 0 s).andThen (dblLegal dbl) .badConfig = .accept) :
    exec (.busConfig bus dbl wm) s = .next ((call (.clockEnable bus) s).setBus bus { s.bus bus with
      dbl := BitVec.ofNat 6 dbl, dblWritten := true, frameBits := BitVec.ofNat 6 dbl, workMode := wm }) := by
  rw [exec, execBusConfig, hcheck]; rfl

/-- NONSTD_CONFIG past its checks (41_master.md R182). -/
theorem exec_nonstdConfig_of_accept {s : State} {bus : Nat} {il al wc : BitVec 8}
    (hcheck : (validate bus 0 s).andThen (nonStdSupported s.par il al wc) .unsupportedFraming = .accept) :
    exec (.nonstdConfig bus il al wc) s = .next (s.setBus bus { s.bus bus with
      instrLen := il, addrLen := al, waitCycles := wc }) := by
  rw [exec, execNonstdConfig, hcheck]; rfl

/-- Settles O43: the check is that of the data-bit-length (`dblLegal_iff`); a legal one fits the six bits of DBL. -/
theorem busConfigWritesThreeRegisters : Obligations.BusConfigWritesThreeRegisters := by
  intro s bus dbl wm hopen hbus hcs
  have hcheck := andThen_of_accept hopen hbus hcs (dblLegal dbl) .badConfig
  refine ⟨fun hdbl => ?_, fun hdbl => ?_⟩
  · rw [if_pos ((dblLegal_iff dbl).2 hdbl)] at hcheck
    have hself := fun b => bus_setBus_self (call (.clockEnable bus) s) bus b hbus.1
    refine ⟨_, exec_busConfig_of_accept wm hcheck, rfl, fun _ => rfl,
      fun j hj => bus_setBus_ne _ _ _ _ hj.symm, hself _, ?_⟩
    rw [hself, BitVec.toNat_ofNat, Nat.mod_eq_of_lt (by omega)]
  · have hbad : ¬ dblLegal dbl = true := by rw [dblLegal_iff]; omega
    rw [if_neg hbad] at hcheck
    rw [exec, execBusConfig, hcheck]; rfl

/-- The supported combinations are the union of the boxes (41_master.md R182, D37). -/
theorem nonStdSupported_iff (p : Params) (il al wc : Byte) :
    nonStdSupported p il al wc = true ↔ ∃ b ∈ p.nonStd, il ∈ b.instrLens ∧ al ∈ b.addrLens ∧ wc ∈ b.waitCycles := by
  simp [nonStdSupported, and_assoc]

/-- A byte is among the bytes of some numbers below 256 when its number is among them. -/
theorem mem_map_ofNat_iff {l : List Nat} (hl : ∀ k ∈ l, k < 256) (v : Byte) :
    v ∈ l.map (BitVec.ofNat 8) ↔ v.toNat ∈ l := by
  rw [List.mem_map]
  constructor
  · rintro ⟨k, hk, rfl⟩
    rwa [BitVec.toNat_ofNat, Nat.mod_eq_of_lt (hl k hk)]
  · exact fun hv => ⟨_, hv, BitVec.ofNat_toNat 8 v |>.trans (BitVec.setWidth_eq v)⟩

/-- The default's one box, by numbers (41_master.md R182; log entry 5). -/
theorem nonStd_default_iff (il al wc : Byte) :
    (∃ b ∈ Params.default.nonStd, il ∈ b.instrLens ∧ al ∈ b.addrLens ∧ wc ∈ b.waitCycles) ↔
      il.toNat ∈ [0, 4, 8, 16] ∧ al.toNat % 4 = 0 ∧ al.toNat ≤ 60 ∧ wc.toNat < 32 := by
  have hil := mem_map_ofNat_iff (l := [0, 4, 8, 16]) (by decide) il
  have hal := mem_map_ofNat_iff (l := (List.range 16).map (4 * ·)) (by decide) al
  have hwc := mem_map_ofNat_iff (l := List.range 32) (by decide) wc
  have hmultiple : al.toNat ∈ (List.range 16).map (4 * ·) ↔ al.toNat % 4 = 0 ∧ al.toNat ≤ 60 := by
    rw [List.mem_map]
    constructor
    · rintro ⟨k, hk, hal⟩
      rw [List.mem_range] at hk
      omega
    · exact fun ⟨hdvd, hle⟩ => ⟨al.toNat / 4, List.mem_range.2 (by omega), by omega⟩
  rw [List.map_map] at hal
  rw [← hil, ← List.mem_range, ← hwc, ← and_assoc (a := al.toNat % 4 = 0), ← hmultiple, ← hal]
  simp only [Params.default, List.mem_singleton, exists_eq_left]
  rfl

/-- Settles O44: the check is that of the framing (`nonStdSupported_iff`), by default that of `nonStd_default_iff`. -/
theorem nonstdConfigWritesFramingFields : Obligations.NonstdConfigWritesFramingFields := by
  intro s bus il al wc hopen hbus hcs supported
  have hcheck := andThen_of_accept hopen hbus hcs (nonStdSupported s.par il al wc) .unsupportedFraming
  refine ⟨fun hyes => ?_, fun hno => ?_, fun hdefault => ?_⟩
  · rw [if_pos ((nonStdSupported_iff s.par il al wc).2 hyes)] at hcheck
    exact ⟨_, exec_nonstdConfig_of_accept hcheck, rfl, fun _ => rfl, fun j hj => bus_setBus_ne _ _ _ _ hj.symm,
      bus_setBus_self s bus _ hbus.1⟩
  · rw [if_neg (mt (nonStdSupported_iff s.par il al wc).1 hno)] at hcheck
    rw [exec, execNonstdConfig, hcheck]; rfl
  · show (∃ b ∈ s.par.nonStd, _) ↔ _
    rw [hdefault]
    exact nonStd_default_iff il al wc

end Sys2Proof.Machine

/-! Proofs, 41_master.md R146 to R151, R156 to R159, R165, R171: the steps of MASTER, one by one. -/

namespace Sys2Proof.Machine

/-! ### The command entries of a master operation -/

/-- The step that pushes the command entries, where there is room for all: only reads are recorded. -/
theorem step_cmd_of_room {s : State} {rest : List Action} (hnext : MasterNext s .cmd rest) (hb : s.mst.bus < s.numBus)
    (hroom : (s.bus s.mst.bus).tx.length + (prefixEntries s).length ≤ 32) :
    ∃ t reads, step s = .next t ∧ OnlyReads reads ∧
      t = { s with
        buses := t.buses, mst := { s.mst with phase := (prefixNext s).1 }, hist := reads ++ s.hist, sched := rest } ∧
      (∀ j, j ≠ s.mst.bus → t.bus j = s.bus j) ∧
      t.bus s.mst.bus = { s.bus s.mst.bus with
        tx := (s.bus s.mst.bus).tx ++ prefixEntries s, cs := (prefixNext s).2 } := by
  obtain ⟨reads, he, -, honly, -⟩ := masterCmd_eq (s.setSched rest)
  refine ⟨_, reads, (step_master hnext).trans (congrArg _ he), honly hroom, rfl,
    fun j hj => bus_setBus_ne _ _ _ _ hj.symm, ?_⟩
  have hfit : (prefixEntries s).take (32 - (s.bus s.mst.bus).tx.length) = prefixEntries s :=
    List.take_of_length_le (by omega)
  rw [← hfit]
  exact bus_setBus_self _ _ _ hb

/-- Settles O34: the entries of SENDW are its words (`prefixEntries_eq`), and its chip-select stays as it is. -/
theorem sendwPushesCommandWords : Obligations.SendwPushesCommandWords := by
  intro s rest hnext hop hb hroom
  have hpushed : prefixEntries s = unitsOf s.par.aw s.mem s.mst.cmdPtr 4 0 s.mst.cmdCnt := by
    rw [prefixEntries_eq (by simp [hop])]; simp [hop]
  have hstate : prefixNext s = (.fill, (s.bus s.mst.bus).cs) := by
    rw [prefixNext_eq (by simp [hop])]; simp [hop]
  have hstep := step_cmd_of_room hnext hb (by rwa [hpushed, unitsOf_length])
  rwa [hpushed, hstate] at hstep

/-- Settles O36: `prefixEntries_eq` gives the filler, or the units of RECV and the words of RECVW. -/
theorem recvPushesPrefixThenChipSelect : Obligations.RecvPushesPrefixThenChipSelect := by
  intro s rest hnext hb hop w n pushed hroom
  have hsend : s.mst.op ≠ .send := by rcases hop with h | h <;> simp [h]
  have hsendw : s.mst.op ≠ .sendw := by rcases hop with h | h <;> simp [h]
  have hpushed : prefixEntries s = pushed := by
    rw [prefixEntries_eq hsend]; simp only [hsendw, ne_eq, not_false_eq_true, true_and]; rfl
  have hstate : prefixNext s = (.drain, 2 ^ s.mst.csel) := by
    rw [prefixNext_eq hsend, if_neg hsendw, if_neg hsendw]
  have hstep := step_cmd_of_room hnext hb (hpushed ▸ hroom)
  rwa [hpushed, hstate] at hstep

/-! ### Filling -/

/-- Settles O37: `masterFill_eq`, whose count of units never exceeds the room. -/
theorem fillIterationPushesWholeUnits : Obligations.FillIterationPushesWholeUnits := by
  intro s rest hnext hb htx n
  obtain ⟨reads, hreads, he, -, hroom⟩ := masterFill_eq (s.setSched rest) htx
  have hphase : (s.setSched rest).mst.phase = .fill := hnext.2.2
  rw [hphase] at he
  have hself := fun b => bus_setBus_self (s.setSched rest) s.mst.bus b hb
  refine ⟨_, reads, (step_master hnext).trans (congrArg _ he), hreads, rfl,
    fun j hj => bus_setBus_ne _ _ _ _ hj.symm, hself _, ?_⟩
  refine (congrArg (fun b : Bus => b.tx.length) (hself _)).trans_le ?_
  rw [List.length_append, unitsOf_length]
  exact hroom

/-- With less than a unit left a fill iteration moves nothing (41_master.md R148). -/
theorem fillBytes_of_short {s : State} (hshort : s.mst.rem < s.mst.w) : fillBytes s = 0 := by
  rw [fillBytes, Nat.div_eq_of_lt (Nat.lt_of_le_of_lt (Nat.min_le_right _ _) hshort), Nat.zero_mul]

theorem masterFill_of_short {s : State} (hpos : 0 < s.mst.rem) (hshort : s.mst.rem < s.mst.w) : masterFill s = s := by
  rw [masterFill, fillBytes_of_short hshort, Nat.zero_div]
  exact if_neg hpos.ne'

/-- The registers of a master operation: those of the engine, and the enable and the chip-selects of the buses that
operations may use. -/
def SameOperation (s t : State) : Prop :=
  t.mst = s.mst ∧ ∀ j, j ≠ 2 → (t.bus j).en = (s.bus j).en ∧ (t.bus j).cs = (s.bus j).cs

theorem SameOperation.refl (s : State) : SameOperation s s := ⟨rfl, fun _ _ => ⟨rfl, rfl⟩⟩

/-- A write of a bus that leaves its enable and its chip-selects alone. -/
theorem SameOperation.of_setBus {s t : State} {i : Nat} {b : Bus} (hmst : t.mst = s.mst)
    (hbus : ∀ j, t.bus j = (s.setBus i b).bus j) (hen : b.en = (s.bus i).en) (hcs : b.cs = (s.bus i).cs) :
    SameOperation s t := by
  refine ⟨hmst, fun j _ => ?_⟩
  rw [hbus, bus_setBus]
  split
  · rename_i h
    obtain ⟨rfl, -⟩ := h
    exact ⟨hen, hcs⟩
  · exact ⟨rfl, rfl⟩

theorem SlaveFrame.sameOperation {s t : State} (h : SlaveFrame s t) : SameOperation s t :=
  ⟨h.mst, fun j hj => by rw [h.bus j hj]; exact ⟨rfl, rfl⟩⟩

theorem sameOperation_wireOut (i : Nat) (s : State) : SameOperation s (wireOut i s) := by
  rcases wireOut_cases i s with ⟨he, -⟩ | ⟨e, es, -, -, he⟩ <;> rw [he]
  · exact .refl s
  · exact .of_setBus rfl (fun _ => rfl) rfl rfl

theorem sameOperation_wireIn (i : Nat) (e : Entry) (s : State) : SameOperation s (wireIn i e s) := by
  rcases wireIn_cases i e s with ⟨he, -⟩ | ⟨he, -⟩ | ⟨-, -, he⟩ <;> rw [he]
  · exact .refl s
  · exact .refl s
  · exact .of_setBus rfl (fun _ => rfl) rfl rfl

theorem sameOperation_dmaBeat (c : Nat) (s : State) : SameOperation s (dmaBeat c s) := by
  rcases dmaBeat_cases c s with he | ⟨-, -, -, ⟨a, e, es, -, -, -, he⟩ | ⟨a, -, -, -, he⟩⟩ <;> rw [he]
  · exact .refl s
  · exact .of_setBus rfl (fun _ => rfl) rfl rfl
  · exact .of_setBus rfl (fun _ => rfl) rfl rfl

/-- A request finds the engine closed while an operation is in progress (41_master.md R142). -/
theorem request_of_busy {s : State} (hbusy : s.mst.phase ≠ .idle) {bytes : List Byte} {t : State}
    (ht : request bytes s = .next t) : t = s := by
  have hclosed : ¬ Open s := fun ⟨_, _, hidle⟩ => hbusy hidle
  rcases request_cases bytes s with he | ⟨i, -, hi, he⟩
  · rw [he] at ht; cases ht; rfl
  · rw [he] at ht
    rcases exec_request_cases hi s with he | ⟨_, hopen, -⟩ | ⟨_, _, _, _, -, hopen, -⟩ |
      ⟨_, _, _, _, _, _, _, hopen, -⟩ | ⟨_, _, _, _, _, _, -, hopen, -⟩
    · rw [he] at ht; cases ht; rfl
    all_goals exact absurd hopen hclosed

/-- No turn but that of MASTER touches the registers of an operation in progress. -/
theorem turn_sameOperation {a : Action} (hslave : a ≠ .slave) (hmaster : a ≠ .master) {s t : State}
    (hbusy : s.mst.phase ≠ .idle) (ht : turn a s = .next t) : SameOperation s t := by
  cases a with
  | slave => exact absurd rfl hslave
  | master => exact absurd rfl hmaster
  | request bytes => rw [request_of_busy hbusy ht]; exact .refl s
  | hostWrite a b => cases ht; exact .refl s
  | callbackReturn =>
    cases ht
    rcases callbackReturn_cases s with he | ⟨-, he⟩ <;> rw [he] <;> exact .refl s
  | linkOut i =>
    cases ht
    rw [linkOut_eq]
    split
    · exact sameOperation_wireOut i s
    · exact .refl s
  | linkIn i e =>
    cases ht
    rw [linkIn_eq]
    split
    · exact sameOperation_wireIn i e s
    · exact .refl s
  | linkBusy i busy => cases ht; exact .of_setBus rfl (fun _ => rfl) rfl rfl
  | edge => cases ht; rw [raiseEdge_eq]; exact .refl s
  | remoteIn e => cases ht; exact sameOperation_wireIn 2 e s
  | remoteOut => cases ht; exact sameOperation_wireOut 2 s
  | dma c => cases ht; exact sameOperation_dmaBeat c s

/-- A turn of MASTER with less than a unit left to fill changes nothing (41_master.md R148). -/
theorem masterStep_of_short {s : State} (hphase : s.mst.phase = .fill) (hpos : 0 < s.mst.rem)
    (hshort : s.mst.rem < s.mst.w) : masterStep s = s := by
  rw [masterStep_eq, hphase]
  split
  · rfl
  · exact masterFill_of_short hpos hshort

/-- Settles O38: MASTER finds nothing to move (`masterStep_of_short`), SLAVE is of the other role (`step_slave_frame`),
and no other turn touches the operation (`turn_sameOperation`). -/
theorem fillWithShortRemainderHangs : Obligations.FillWithShortRemainderHangs := by
  intro s t ht hphase hpos hshort
  have hmaster : ∀ rest, s.sched = .master :: rest → t = { s with sched := rest } := by
    intro rest hs
    rw [step_of_sched hs, turn, masterStep_of_short (s := s.setSched rest) hphase hpos hshort] at ht
    cases ht; rfl
  suffices hsame : SameOperation s t from ⟨hsame.1, hsame.2 s.mst.bus, hmaster⟩
  cases hs : s.sched with
  | nil =>
    rw [step_of_nil hs] at ht
    cases ht; exact .refl s
  | cons a rest =>
    by_cases hturn : a = .master
    · rw [hmaster rest (hturn ▸ hs)]; exact .refl s
    by_cases hslave : a = .slave
    · obtain ⟨u, hu, hframe⟩ := step_slave_frame (hslave ▸ hs)
      rw [hu] at ht; cases ht
      exact hframe.sameOperation
    · rw [step_of_sched hs] at ht
      exact turn_sameOperation (s := s.setSched rest) hslave hturn (by simp [hphase]) ht

/-! ### Waiting -/

theorem txDone_iff (i : Nat) (s : State) : txDone i s = true ↔ (s.bus i).tx = [] ∧ (s.bus i).busy = false := by
  simp [txDone, tfe]

theorem masterWait_of_done {s : State} (hdone : (s.bus s.mst.bus).tx = [] ∧ (s.bus s.mst.bus).busy = false) :
    masterWait s = setPhase .fin s :=
  if_pos ((txDone_iff _ _).2 hdone)

theorem masterWait_of_not_done {s : State} (hdone : ¬ ((s.bus s.mst.bus).tx = [] ∧ (s.bus s.mst.bus).busy = false)) :
    masterWait s = s :=
  if_neg (mt (txDone_iff _ _).1 hdone)

/-- A poll that finds both ends the wait (41_master.md R150). -/
theorem step_wait_of_done {s : State} {rest : List Action} (hnext : MasterNext s .wait rest)
    (hdone : (s.bus s.mst.bus).tx = [] ∧ (s.bus s.mst.bus).busy = false) :
    step s = .next { s with mst := { s.mst with phase := .fin }, sched := rest } :=
  (step_master hnext).trans (congrArg _ (masterWait_of_done (s := s.setSched rest) hdone))

/-- Any other poll has no effect (41_master.md R150). -/
theorem step_wait_of_not_done {s : State} {rest : List Action} (hnext : MasterNext s .wait rest)
    (hdone : ¬ ((s.bus s.mst.bus).tx = [] ∧ (s.bus s.mst.bus).busy = false)) :
    step s = .next { s with sched := rest } :=
  (step_master hnext).trans (congrArg _ (masterWait_of_not_done (s := s.setSched rest) hdone))

/-- Settles O39: one poll, or by induction any number of them. -/
theorem completionWaitPollsStatus : Obligations.CompletionWaitPollsStatus := by
  intro s k hfatal hphase hsched
  refine ⟨step_wait_of_done ⟨hsched, hfatal, hphase⟩, fun hdone => ?_⟩
  induction k generalizing s with
  | zero => rw [run_succ (step_wait_of_not_done ⟨hsched, hfatal, hphase⟩ hdone)]; rfl
  | succ k ih =>
    rw [run_succ (step_wait_of_not_done ⟨hsched, hfatal, hphase⟩ hdone)]
    exact ih { s with sched := List.replicate (k + 1) .master } hfatal hphase rfl hdone

/-! ### Draining -/

/-- Settles O40: `masterDrain_eq`; the entries taken are as many as the units (`byteAt_withUnits_outside`). -/
theorem drainIterationStoresReceivedUnits : Obligations.DrainIterationStoresReceivedUnits := by
  intro s rest hnext hb n
  obtain ⟨writes, hwrites, he⟩ := masterDrain_eq (s.setSched rest)
  have hphase : (s.setSched rest).mst.phase = .drain := hnext.2.2
  rw [hphase] at he
  refine ⟨_, writes, (step_master hnext).trans (congrArg _ he), hwrites, rfl, rfl, fun a ha => ?_,
    fun j hj => bus_setBus_ne _ _ _ _ hj.symm, bus_setBus_self _ _ _ hb⟩
  have hlen : ((s.bus s.mst.bus).rx.take n).length = n := List.length_take_of_le (Nat.min_le_left _ _)
  exact byteAt_withUnits_outside _ _ _ _ _ _ _ (hlen.symm ▸ ha)

/-! ### Closing -/

/-- Settles O41: `masterEnd_eq`. -/
theorem closingStepReleasesBus : Obligations.ClosingStepReleasesBus := by
  intro s rest hnext hb
  exact ⟨_, (step_master hnext).trans (congrArg _ (masterEnd_eq _)), rfl,
    fun j hj => bus_setBus_ne _ _ _ _ hj.symm, bus_setBus_self _ _ _ hb⟩

end Sys2Proof.Machine

/-! Proofs, 41_master.md R152: a SEND that fits the transmit FIFO, from its request to the release of its bus. -/

namespace Sys2Proof.Machine

/-- The machine from a state in a transmission on bus `b` to its end: the bus is released, the history has grown by
`evs`, the turns `rest` are to come, memory and the other buses are as they were (41_master.md R151). -/
structure Sent (b : Nat) (evs : List Event) (rest : List Action) (s t : State) : Prop where
  hist : t.hist = evs ++ s.hist
  mem : t.mem = s.mem
  phase : t.mst.phase = .idle
  sched : t.sched = rest
  others : ∀ j, j ≠ b → t.bus j = s.bus j
  bus : t.bus b = { s.bus b with cs := 0, en := false, tx := [], rx := [] }

/-- A poll that finds the operation done, then the closing step (41_master.md R150, R151). -/
theorem run_wait_close {s : State} {b : Nat} {rest : List Action} (hnext : MasterNext s .wait (.master :: rest))
    (hbus : s.mst.bus = b) (hen : (s.bus b).en = true) (hdone : (s.bus b).tx = [] ∧ (s.bus b).busy = false) :
    ∃ t, core.run 2 s = .next t ∧ Sent b [] rest s t := by
  subst hbus
  obtain ⟨t, ht, heq, hothers, hself⟩ := closingStepReleasesBus
    { s with mst := { s.mst with phase := .fin }, sched := .master :: rest } rest ⟨rfl, hnext.2.1, rfl⟩ (lt_of_en hen)
  refine ⟨t, ?_, by rw [heq, List.nil_append], by rw [heq], by rw [heq], by rw [heq], hothers, hself⟩
  rw [run_succ (step_wait_of_done hnext hdone), run_succ ht, run_zero]

/-- The link takes every entry, then the operation ends (41_master.md R150 to R152). -/
theorem run_linkOut_close {s : State} {b : Nat} {rest : List Action} (hfatal : s.fatal = false)
    (hphase : s.mst.phase = .wait) (hbus : s.mst.bus = b) (hmaster : b ≠ 2) (hen : (s.bus b).en = true)
    (hbusy : (s.bus b).busy = false)
    (hs : s.sched = List.replicate (s.bus b).tx.length (.linkOut b) ++ .master :: .master :: rest) :
    ∃ t, core.run ((s.bus b).tx.length + 2) s = .next t ∧
      Sent b ((s.bus b).tx.map (Event.wireOut b)).reverse rest s t := by
  obtain ⟨u, hu, heq, hothers, hself⟩ : ∃ u : State, core.run (s.bus b).tx.length s = .next u ∧
      u = { s with
        buses := u.buses
        hist := ((s.bus b).tx.map (Event.wireOut b)).reverse ++ s.hist
        sched := .master :: .master :: rest } ∧
      (∀ j, j ≠ b → u.bus j = s.bus j) ∧ u.bus b = { s.bus b with tx := [] } :=
    ⟨_, run_linkOut hmaster hen hs, rfl, fun j hj => bus_setBus_ne _ _ _ _ hj.symm, bus_setBus_self _ _ _ (lt_of_en hen)⟩
  have hnext : MasterNext u .wait (.master :: rest) := by rw [heq]; exact ⟨rfl, hfatal, hphase⟩
  obtain ⟨t, ht, hsent⟩ := run_wait_close (b := b) hnext (by rw [heq]; exact hbus) (by rw [hself]; exact hen)
    (by rw [hself]; exact ⟨rfl, hbusy⟩)
  refine ⟨t, (run_add hu).trans ht, ?_, ?_, hsent.phase, hsent.sched, fun j hj => (hsent.others j hj).trans (hothers j hj),
    by rw [hsent.bus, hself]⟩
  · rw [hsent.hist, heq]; rfl
  · rw [hsent.mem, heq]

/-- The units left fit an empty FIFO: one fill iteration pushes them all, then the link takes them and the operation ends
(41_master.md R146 to R152). -/
theorem run_fill_close {s : State} {b : Nat} {rest : List Action} (hfatal : s.fatal = false)
    (hphase : s.mst.phase = .fill) (hbus : s.mst.bus = b) (hmaster : b ≠ 2) (hen : (s.bus b).en = true)
    (htx : (s.bus b).tx = []) (hbusy : (s.bus b).busy = false) (hfits : s.mst.rem ≤ 32) (hwhole : s.mst.w ∣ s.mst.rem)
    (hs : s.sched = .master ::
      (List.replicate (s.mst.rem / s.mst.w) (.linkOut b) ++ .master :: .master :: rest)) :
    ∃ t reads, core.run (s.mst.rem / s.mst.w + 3) s = .next t ∧ OnlyReads reads ∧
      Sent b (((unitsOf s.par.aw s.mem s.mst.buf s.mst.w s.mst.idx (s.mst.rem / s.mst.w)).map
        (Event.wireOut b)).reverse ++ reads) rest s t := by
  subst hbus
  obtain ⟨u, reads, hu, hreads, heq, hothers, hself, -⟩ :=
    fillIterationPushesWholeUnits s _ ⟨hs, hfatal, hphase⟩ (lt_of_en hen) (by simp [htx])
  have hall : min (32 - (s.bus s.mst.bus).tx.length) s.mst.rem / s.mst.w * s.mst.w = s.mst.rem := by
    rw [htx, List.length_nil, Nat.sub_zero, Nat.min_eq_right hfits, Nat.div_mul_cancel hwhole]
  rw [hall, if_pos rfl] at heq
  rw [hall, htx, List.nil_append] at hself
  obtain ⟨t, ht, hsent⟩ := run_linkOut_close (s := u) (b := s.mst.bus) (rest := rest) (by rw [heq]; exact hfatal)
    (by rw [heq]) (by rw [heq]) hmaster (by rw [hself]; exact hen) (by rw [hself]; exact hbusy)
    (by rw [hself, unitsOf_length, heq])
  rw [hself, unitsOf_length] at ht
  rw [hself] at hsent
  refine ⟨t, reads, (run_succ hu).trans ht, hreads, ?_, ?_, hsent.phase, hsent.sched,
    fun j hj => (hsent.others j hj).trans (hothers j hj), by rw [hsent.bus, hself]⟩
  · rw [hsent.hist, heq, List.append_assoc]
  · rw [hsent.mem, heq]

/-- A step at the record of a well-formed request runs the request. -/
theorem step_of_request {s : State} {i : Instr} {rest : List Action} (hi : i.format = .hreq)
    (hw : WellFormed s.par.opc i = true) (hs : s.sched = .request (encode s.par.opc i) :: rest) :
    step s = exec i (s.setSched rest) := by
  refine (stepRunsDecodedRequest s _ rest hs).1 i ?_
  rw [encode_request hi]
  exact decodeRequest_requestBytes hi hw

/-- Settles O42: the request opens the bus and latches the operands (`sendRequestOpensTransmit`); from there
`run_fill_close`. -/
theorem sendDeliversBufferInOrder : Obligations.SendDeliversBufferInOrder := by
  intro s bus cs buf len rest w n i hopen hbus hcs hwell hdbl htx hbusy hwhole hfits hs
  obtain ⟨u, hu, heq, -, hothers, hself, hlatched, -⟩ := sendRequestOpensTransmit
    (s.setSched (.master :: (List.replicate n (.linkOut bus) ++ .master :: .master :: rest)))
    bus cs 0 0 buf len hopen hbus hcs hdbl i (List.mem_cons_self ..)
  have hmst := hlatched rfl
  have hstep : step s = .next u := (step_of_request rfl hwell (by rw [hs]; simp)).trans hu
  obtain ⟨t, reads, ht, hreads, hsent⟩ := run_fill_close (s := u) (b := bus) (rest := rest) (by rw [heq]; exact hopen.1)
    (by rw [hmst]) (by rw [hmst]) hbus.2 (by rw [hself]) (by rw [hself]; exact htx) (by rw [hself]; exact hbusy)
    (by rw [hmst]; exact hfits) (by rw [hmst]; exact Nat.dvd_of_mod_eq_zero hwhole) (by rw [hmst, heq]; rfl)
  have hcarried : unitsOf u.par.aw u.mem u.mst.buf u.mst.w u.mst.idx (u.mst.rem / u.mst.w)
      = unitsOf s.par.aw s.mem buf w 0 n := by
    rw [hmst, heq]; exact unitsOf_wrap _ _ _ _ _ _
  have hcount : u.mst.rem / u.mst.w = n := congrArg (fun m : Master => m.rem / m.w) hmst
  rw [hcarried] at hsent
  rw [hcount] at ht
  refine ⟨t, reads, (run_succ hstep).trans ht, hreads, ?_, ?_, hsent.phase, hsent.sched,
    fun j hj => (hsent.others j hj).trans (hothers j hj), ?_⟩
  · rw [hsent.hist, heq]; rfl
  · rw [hsent.mem, heq]; rfl
  · rw [hsent.bus, hself]; simp [htx]

end Sys2Proof.Machine

/-! Proofs, 42_slave_fsm.md R192, R193, R209: what a turn of SLAVE runs: the edge handler by SLV_STATUS, or nothing while
the callback runs. -/

namespace Sys2Proof.Machine

theorem EdgeNext.fatal {s : State} {st : SlvStatus} {rest : List Action} (h : EdgeNext s st rest) : s.fatal = false := by
  obtain ⟨-, hfatal, -⟩ := h
  exact hfatal

theorem EdgeNext.active {s : State} {st : SlvStatus} {rest : List Action} (h : EdgeNext s st rest) :
    s.slv.active = true := by
  obtain ⟨-, -, -, -, hactive, -⟩ := h
  exact hactive

theorem EdgeNext.status {s : State} {st : SlvStatus} {rest : List Action} (h : EdgeNext s st rest) :
    s.slv.status = st := by
  obtain ⟨-, -, -, -, -, hstatus⟩ := h
  exact hstatus

/-- Settles O12: in Idle the edge handler is one write of SLV_STATUS. -/
theorem idleEdgeOnlyEntersCommand : Obligations.IdleEdgeOnlyEntersCommand := by
  intro s rest hnext
  rw [step_edge hnext, edgeHandler, acked_slv, hnext.status]
  rfl

/-- Settles O27: halted or not, SLAVE has no step to take. -/
theorem callbackHoldsSlaveUntilItReturns : Obligations.CallbackHoldsSlaveUntilItReturns := by
  intro s rest hcallback hs
  rw [step_of_sched hs, turn, slaveStep, setSched_slv, hcallback]
  exact ite_self _

/-- The state in which a header is decoded, field by field: bus 2 has lost its entries to HDR (42_slave_fsm.md R200). -/
theorem fetchHeader_acked_eq (rest : List Action) (s : State) :
    fetchHeader (acked rest s) = { s.setBus 2 { s.bus 2 with rx := (s.bus 2).rx.drop (8 / frameWidth 2 s) } with
      hdr := hdrOf (headerOf s)
      slv := { s.slv with edgePend := false }
      draws := headerDraws s
      sched := rest } := by
  rw [fetchHeader_eq, fetchedBytes_acked]
  rfl

theorem headerOf_length (s : State) : (headerOf s).length = 8 := by
  rw [← fetchedBytes_eq_headerOf, fetchedBytes_length]

/-- Entries dropped from a bus: of a bus that does not exist there are none. -/
theorem bus_setBus_drop (s : State) (i n : Nat) :
    (s.setBus i { s.bus i with rx := (s.bus i).rx.drop n }).bus i = { s.bus i with rx := (s.bus i).rx.drop n } := by
  by_cases hi : i < s.numBus
  · exact bus_setBus_self _ _ _ hi
  · rw [setBus_of_ge _ _ (Nat.le_of_not_lt hi), bus_of_ge s (Nat.le_of_not_lt hi)]
    simp [Bus.reset]

/-- Settles O10: the header read leaves in HDR the bytes that `runHeader` decodes. -/
theorem stepRunsDecodedHeader : Obligations.StepRunsDecodedHeader := by
  intro s rest i hnext hdecode
  have hhdr : (fetchHeader (acked rest s)).hdr.toList = headerOf s :=
    (fetchHeader_hdr _).trans (fetchedBytes_acked s rest)
  have hread := fetchHeader_acked_eq rest s
  refine ⟨fetchHeader (acked rest s), ?_, ?_, hhdr, fun j hj => ?_, ?_⟩
  · rw [step_command hnext, runHeader, hhdr, acked_par, hdecode]
  · rw [hread]; rfl
  · rw [hread]; exact bus_setBus_ne _ _ _ _ hj.symm
  · rw [hread]; exact bus_setBus_drop s 2 _

/-- The 17 bits of CMD_LEN give the length field back: 65536 is the field 0 (30_encoding.md R94). -/
theorem setWidth_of_decodedLen {v : BitVec 17} {len : BitVec 16} (h : v.toNat = decodedLen len) :
    v.setWidth 16 = len := by
  apply BitVec.eq_of_toNat_eq
  have hlt := len.isLt
  rw [BitVec.toNat_setWidth, h, decodedLen, Config.lenZeroMeans]
  split <;> omega

/-- Settles O11: the descriptor is encoded as the header of the command it holds, which decodes to it
(`decodeHeader_of_mem`). -/
theorem stepRunsLatchedCommand : Obligations.StepRunsLatchedCommand := by
  intro s rest i addr len hnext hopc hi hop haddr hlen
  have hheader : latchedHeader (acked rest s)
      = headerBytes (opcodeOf s.par.opc i) addr len (headerSum (opcodeOf s.par.opc i) addr len) := by
    rw [latchedHeader, acked_cmd, hop, haddr, setWidth_of_decodedLen hlen, encodeHdr]
  rw [step_transfer hnext, runCompletion, hheader, acked_par, decode, decodeHeader_of_mem hopc hi]
  rfl

end Sys2Proof.Machine

/-! Proofs, 42_slave_fsm.md R194, R201 to R206: the Command phase, rejected or accepted. -/

namespace Sys2Proof.Machine

/-! ### The silent return to Idle -/

/-- Outside Transfer an active slave holds the ready pin high, driven (42_slave_fsm.md R210), and has a bus 2. -/
theorem SlaveGood.ready_high {s : State} (h : SlaveGood s) (hactive : s.slv.active = true)
    (hstatus : s.slv.status ≠ .transfer) : s.rdy = true ∧ s.rdyDriven = true ∧ 2 < s.numBus := by
  obtain ⟨hen, -, -, hdriven, hlow⟩ := h.active hactive
  exact ⟨by simpa using mt hlow.2 hstatus, hdriven, lt_of_en hen⟩

/-- IdleRearm with the pin already high leaves the pin and the history alone (45_handshake.md R291). -/
theorem idleRearm_of_high {s : State} (hrdy : s.rdy = true) (hdriven : s.rdyDriven = true) :
    idleRearm s = { (leaveOrphans s).setBus 2 (rearmed (s.bus 2)) with slv := { s.slv with status := .idle } } := by
  have hpin : pinEvents true s = [] := by simp [pinEvents, hrdy, hdriven]
  rw [idleRearm_eq, hpin]
  apply State.eq_of_fields <;> simp [bus_setBus, hrdy, hdriven]

/-- A header rejected before or after its descriptor `d` is written: the whole state in which the machine is back in Idle.
Bus 2 is re-armed as if nothing had been popped. -/
theorem idleRearm_fetchHeader {s : State} {rest : List Action} (hnext : EdgeNext s .command rest) (hgood : SlaveGood s)
    (d : Descriptor) :
    idleRearm ((fetchHeader (acked rest s)).setCmd d) = { (leaveOrphans s).setBus 2 (rearmed (s.bus 2)) with
      cmd := d
      hdr := hdrOf (headerOf s)
      slv := { s.slv with status := .idle, edgePend := false }
      draws := headerDraws s
      sched := rest } := by
  obtain ⟨hrdy, hdriven, h2⟩ := hgood.ready_high hnext.active (by simp [hnext.status])
  have hread := fetchHeader_acked_eq rest s
  rw [idleRearm_of_high (s := (fetchHeader (acked rest s)).setCmd d) (by rw [hread]; exact hrdy)
    (by rw [hread]; exact hdriven), hread]
  apply State.eq_of_fields <;> simp [bus_setBus, h2, rearmed, programmed]
  intro j
  by_cases hj : 2 = j <;> simp [hj]

/-- The last of a header's eight bytes is the checksum of the others exactly when the checksum is good (30_encoding.md
R92). -/
theorem headerBytes_checksum_iff (op : Byte) (addr : BitVec 32) (len : BitVec 16) (sum : Byte) :
    (headerBytes op addr len sum)[7]? = some (checksum ((headerBytes op addr len sum).take 7)) ↔
      sum = headerSum op addr len := by
  simp [headerBytes, headerBody, headerSum]

/-- Settles O14: of the cases of `step_command_cases` only the first has a bad checksum, and it is
`idleRearm_fetchHeader`. -/
theorem badChecksumReturnsToIdleSilently : Obligations.BadChecksumReturnsToIdleSilently := by
  intro s rest hnext hgood hbad
  obtain ⟨-, -, h2⟩ := hgood.ready_high hnext.active (by simp [hnext.status])
  obtain ⟨op, addr, len, sum, hbytes⟩ := exists_headerBytes (headerOf_length s)
  rw [hbytes, ne_eq, headerBytes_checksum_iff] at hbad
  have hcmd : (fetchHeader (acked rest s)).setCmd s.cmd = fetchHeader (acked rest s) := by rw [fetchHeader_acked_eq]; rfl
  have hidle := idleRearm_fetchHeader hnext hgood s.cmd
  rw [hcmd] at hidle
  rcases step_command_cases hnext hbytes with ⟨-, he⟩ | ⟨hsum, -⟩ | ⟨_, -, -, -, hsum, -⟩
  · exact ⟨_, he.trans (congrArg _ hidle), rfl, rfl, hdrOf_toList (headerOf_length s),
      fun j hj => bus_setBus_ne _ _ _ _ hj.symm, leaveOrphans_chan s, bus_setBus_self _ _ _ h2⟩
  · exact absurd hsum hbad
  · exact absurd hsum hbad

/-- A good checksum byte, as the sum over the fields that the bytes encode. -/
theorem headerSum_of_checksum {h0 h1 h2 h3 h4 h5 h6 h7 : Byte} (h : h7 = checksum [h0, h1, h2, h3, h4, h5, h6]) :
    h7 = headerSum h0 (le32 h1 h2 h3 h4) (le16 h5 h6) := by
  rw [← headerBytes_checksum_iff, headerBytes_of_bytes, h]
  rfl

/-- Settles O17: a good checksum under no known opcode is the second case of `step_command_cases`, a return to Idle with the
descriptor written. -/
theorem unknownOpcodeReturnsToIdleSilently : Obligations.UnknownOpcodeReturnsToIdleSilently := by
  intro s rest h0 h1 h2 h3 h4 h5 h6 h7 hnext hgood hbytes hsum hunknown
  rw [← headerBytes_of_bytes] at hbytes
  rcases step_command_cases hnext hbytes with ⟨hbad, -⟩ | ⟨-, -, he⟩ | ⟨i, hi, hop, -⟩
  · exact absurd (headerSum_of_checksum hsum) hbad
  · exact ⟨_, he.trans (congrArg _ (idleRearm_fetchHeader hnext hgood _)), rfl, rfl,
      fun j hj => bus_setBus_ne _ _ _ _ hj.symm,
      fun hlive c => (leaveOrphans_chan s c).trans (leaveOrphan_live hlive _)⟩
  · rw [← hop, isKnown_opcodeOf _ hi] at hunknown
    cases hunknown

/-! ### The descriptor -/

/-- A header of a good checksum leaves its descriptor behind, whether its command is accepted or not (42_slave_fsm.md
R203). -/
theorem step_command_cmd {s : State} {rest : List Action} (hnext : EdgeNext s .command rest) {op : Byte}
    {addr : BitVec 32} {len : BitVec 16} (hbytes : headerOf s = headerBytes op addr len (headerSum op addr len)) :
    ∃ t, step s = .next t ∧ t.cmd = ⟨op, addr, BitVec.ofNat 17 (decodedLen len), 0⟩ := by
  rcases step_command_cases hnext hbytes with ⟨hbad, -⟩ | ⟨-, -, he⟩ | ⟨i, hi, -, -, -, hlen, he⟩
  · exact absurd rfl hbad
  · exact ⟨_, he, by rw [idleRearm_eq]; rfl⟩
  · obtain ⟨_, _, _, _, _, _, hsetup, -⟩ := enterTransfer_setupOf_eq hi hlen op (fetchHeader (acked rest s))
    exact ⟨_, he, by rw [hsetup]⟩

/-- The decoded length of two length bytes (30_encoding.md R94), which the 17 bits of CMD_LEN hold. -/
theorem decodedLen_le16 (h5 h6 : Byte) :
    (BitVec.ofNat 17 (decodedLen (le16 h5 h6))).toNat
      = if h5.toNat + 256 * h6.toNat = 0 then 65536 else h5.toNat + 256 * h6.toNat := by
  have hle := decodedLen_le (le16 h5 h6)
  rw [BitVec.toNat_ofNat, Nat.mod_eq_of_lt (by omega), decodedLen, le16_toNat]
  rfl

/-- Settles O15: the descriptor of `step_command_cmd`, its fields as numbers of the header's bytes. -/
theorem decodeWritesFreshDescriptor : Obligations.DecodeWritesFreshDescriptor := by
  intro s rest h0 h1 h2 h3 h4 h5 h6 h7 hnext hbytes hsum
  rw [← headerBytes_of_bytes, headerSum_of_checksum hsum] at hbytes
  obtain ⟨t, ht, hcmd⟩ := step_command_cmd hnext hbytes
  refine ⟨t, ht, ?_⟩
  rw [hcmd]
  exact ⟨rfl, le32_toNat h1 h2 h3 h4, decodedLen_le16 h5 h6, rfl⟩

/-! ### Rejected or accepted -/

/-- Settles O16: a good checksum leaves the last two cases of `commandPhase_cases`: rejected as too long, or accepted. -/
theorem nonBlockLengthOverEightRejected : Obligations.NonBlockLengthOverEightRejected := by
  intro s addr len sum i hi hsum hcommand hopc hgood hactive
  have hstatus : s.slv.status ≠ .transfer := by simp [hcommand]
  obtain ⟨hrdy, hdriven, -⟩ := hgood.ready_high hactive hstatus
  obtain ⟨hnonBlock, hblock⟩ := isNonBlock_opcodeOf hopc hi
  rw [exec_command hi hstatus, hnonBlock, hblock]
  rcases commandPhase_cases (opcodeOf s.par.opc i) (nonBlockOf i) (setupOf i) addr len sum s with
    ⟨-, hbad⟩ | ⟨he, -, hn, hlong⟩ | ⟨he, -, hshort⟩
  · exact absurd hsum hbad
  · rw [he, idleRearm_of_high (s := latchCommand (opcodeOf s.par.opc i) addr len s) hrdy hdriven]
    refine ⟨_, rfl, fun _ => ⟨rfl, rfl, fun j hj => bus_setBus_ne _ _ _ _ hj.symm, fun hlive c => ?_⟩,
      fun ⟨_, hshort⟩ => absurd hlong (Nat.not_lt.2 hshort), fun hb => by simp [hn] at hb⟩
    exact (leaveOrphans_chan s c).trans (leaveOrphan_live hlive _)
  · obtain ⟨_, _, _, _, _, _, hsetup, -⟩ := enterTransfer_setupOf_eq hi hshort (opcodeOf s.par.opc i) s
    rw [he, hsetup]
    exact ⟨_, rfl, fun ⟨hn, hlong⟩ => absurd hlong (Nat.not_lt.2 (hshort hn)), fun _ => rfl, fun _ => rfl⟩

/-- Settles O18: the cases of `step_command_cases` are two returns to Idle (`idleRearm_eq`) and one accepted command
(`enterTransfer_setupOf_eq`). -/
theorem commandPhaseEndsInTransferLowOrIdleHigh : Obligations.CommandPhaseEndsInTransferLowOrIdleHigh := by
  intro s rest hnext hgood
  obtain ⟨hrdy, -⟩ := hgood.ready_high hnext.active (by simp [hnext.status])
  have hidle : ∀ u, (idleRearm u).slv.status = .idle ∧ (idleRearm u).rdy = true ∧ s.rdy = true := fun u => by
    rw [idleRearm_eq]; exact ⟨rfl, rfl, hrdy⟩
  obtain ⟨op, addr, len, sum, hbytes⟩ := exists_headerBytes (headerOf_length s)
  rcases step_command_cases hnext hbytes with ⟨-, he⟩ | ⟨-, -, he⟩ | ⟨i, hi, -, -, -, hlen, he⟩
  · exact ⟨_, he, .inr (hidle _)⟩
  · exact ⟨_, he, .inr (hidle _)⟩
  · obtain ⟨_, _, _, _, _, _, hsetup, -⟩ := enterTransfer_setupOf_eq hi hlen op (fetchHeader (acked rest s))
    exact ⟨_, he, .inl (by rw [hsetup]; exact ⟨rfl, rfl⟩)⟩

end Sys2Proof.Machine

/-! Proofs, 42_slave_fsm.md R195, R208, R209: the three steps of the Transfer phase. -/

namespace Sys2Proof.Machine

/-! ### Step T1 and memory -/

/-- A completion half is the commit of a write-type command, to the address that command computes, or a check alone
(43_slave_ops.md R250, R252). -/
theorem completionOf_cases (o : Opc) {i : Instr} {addr : BitVec 32} {len : BitVec 16} {sum : Byte}
    (hi : i ∈ wireCommands addr len sum) (s : State) :
    (∃ failed code, completionOf i s = failWith failed code s) ∨
    ∃ dst, completionOf i s = commit dst (checkRx s) ∧
      ((opcodeOf o i = o.writeConfig ∧ dst = cfgAddr s) ∨ (opcodeOf o i = o.writeDataByte ∧ dst = rawAddr s)) := by
  simp only [wireCommands, List.mem_cons, List.not_mem_nil, or_false] at hi
  rcases hi with rfl | rfl | rfl | rfl | rfl | rfl
  · exact .inl ⟨_, _, rfl⟩
  · exact .inr ⟨_, rfl, .inl ⟨rfl, rfl⟩⟩
  · exact .inl ⟨_, _, rfl⟩
  · exact .inr ⟨_, rfl, .inr ⟨rfl, rfl⟩⟩
  · exact .inl ⟨_, _, rfl⟩
  · exact .inl ⟨_, _, rfl⟩

/-- What the commit of a write-type command stores: the check before it writes no memory. -/
theorem commit_checkRx_mem (dst : Addr) (s : State) :
    (commit dst (checkRx s)).mem
      = withUnits s.par.aw s.mem dst (frameWidth 2 s) 0 (poppedEntries (s.bus 2).rx s.draws (unitCount s)) := by
  obtain ⟨writes, -, he⟩ := commit_eq dst (checkRx s)
  rw [he, checkRx, failWith_eq]
  rfl

/-- The descriptor holds a write-type command whose units go to `dst` (43_slave_ops.md R234, R238). -/
def CommitsTo (s : State) (dst : Addr) : Prop :=
  (s.cmd.op = s.par.opc.writeConfig ∧ dst = cfgAddr s) ∨ (s.cmd.op = s.par.opc.writeDataByte ∧ dst = rawAddr s)

/-- One opcode byte names one of the two write-type commands (30_encoding.md R95), so the destination is one. -/
theorem CommitsTo.unique {s : State} (ho : s.par.opc.Legal) {dst dst' : Addr} (h : CommitsTo s dst)
    (h' : CommitsTo s dst') : dst = dst' := by
  have hne : s.par.opc.writeConfig ≠ s.par.opc.writeDataByte := by
    obtain ⟨hnodup, -⟩ := ho
    intro he
    simp [Opc.nonBlock, Opc.block, he] at hnodup
  rcases h with ⟨hop, rfl⟩ | ⟨hop, rfl⟩ <;> rcases h' with ⟨hop', rfl⟩ | ⟨hop', rfl⟩
  · rfl
  · exact absurd (hop.symm.trans hop') hne
  · exact absurd (hop'.symm.trans hop) hne
  · rfl

/-- Step T1 leaves memory alone, or stores the units of the write-type command that the descriptor holds. -/
theorem step_transfer_mem {s u : State} {rest : List Action} (hnext : EdgeNext s .transfer rest)
    (hu : step s = .next u) :
    (u.mem = s.mem ∧ u.draws = s.draws) ∨
    ∃ dst, CommitsTo s dst ∧
      u.mem = withUnits s.par.aw s.mem dst (frameWidth 2 s) 0 (poppedEntries (s.bus 2).rx s.draws (unitCount s)) := by
  rw [step_transfer hnext] at hu
  rcases runCompletion_eq (acked rest s) with ⟨i, addr, len, sum, hi, hop, he⟩ | ⟨-, he⟩
  · rw [he, exec_transfer (s := acked rest s) hi hnext.status, endT1_eq] at hu
    cases hu
    rcases completionOf_cases s.par.opc hi (acked rest s) with ⟨failed, code, hc⟩ | ⟨dst, hc, hdst⟩
    · rw [hc, failWith_eq]
      exact .inl ⟨rfl, rfl⟩
    · rw [show opcodeOf s.par.opc i = s.cmd.op from hop] at hdst
      rw [hc]
      exact .inr ⟨dst, hdst, commit_checkRx_mem dst (acked rest s)⟩
  · rw [he, endT1_eq] at hu
    cases hu
    exact .inl ⟨rfl, rfl⟩

/-- Memory outside the units of a write-type command reads after T1 as before. -/
theorem step_transfer_byteAt_outside {s u : State} {rest : List Action} (hnext : EdgeNext s .transfer rest)
    (ho : s.par.opc.Legal) (hu : step s = .next u) {a dst : Addr} (hdst : CommitsTo s dst)
    (ha : OutsideUnits s.par.aw a dst (frameWidth 2 s) 0 (unitCount s)) : byteAt u.mem a = byteAt s.mem a := by
  rcases step_transfer_mem hnext hu with ⟨hmem, -⟩ | ⟨dst', hdst', hmem⟩
  · rw [hmem]
  · obtain rfl := hdst.unique ho hdst'
    rw [hmem]
    exact byteAt_withUnits_outside _ _ _ _ _ _ _ (by rwa [poppedEntries_length])

/-! ### Steps T2 and T3 -/

/-- Step T2 and the host's return: the callback is delivered once if one is registered, and the re-arm is next
(42_slave_fsm.md R209). -/
theorem run_callback {s : State} {rest : List Action} (hfatal : s.fatal = false) (hdue : s.slv.handler = .callbackDue)
    (hs : s.sched = .slave :: .callbackReturn :: rest) :
    core.run 2 s = .next { s with
      slv := { s.slv with handler := .rearmDue }
      hist := (if s.slv.cb.isSome then [Event.callback s.cmd] else []) ++ s.hist
      sched := rest } := by
  have ht2 : step s = .next (transferT2 (s.setSched (.callbackReturn :: rest))) := by
    rw [step_of_sched hs, turn, slaveStep, setSched_fatal, hfatal, setSched_slv, hdue]
    rfl
  have hsched : (transferT2 (s.setSched (.callbackReturn :: rest))).sched = .callbackReturn :: rest := by
    rw [transferT2]; split <;> rfl
  rw [run_succ ht2, run_succ (step_of_sched hsched), run_zero, transferT2, setSched_slv]
  cases s.slv.cb <;> rfl

/-- Step T3 is the return to Idle (42_slave_fsm.md R196). -/
theorem step_rearm {s : State} {rest : List Action} (hfatal : s.fatal = false) (hdue : s.slv.handler = .rearmDue)
    (hs : s.sched = .slave :: rest) :
    step s = .next { (leaveOrphans s).setBus 2 (rearmed (s.bus 2)) with
      slv := { s.slv with status := .idle, handler := .none }
      rdy := true
      rdyDriven := true
      hist := pinEvents true s ++ s.hist
      sched := rest } := by
  rw [step_of_sched hs, turn, slaveStep, setSched_fatal, hfatal, setSched_slv, hdue]
  show Host.Outcome.next (transferT3 (s.setSched rest)) = _
  rw [transferT3, idleRearm_eq]
  rfl

/-- A channel left behind once is left behind for good. -/
theorem leaveOrphan_idem (p : Params) (d : DmaChannel) : leaveOrphan p (leaveOrphan p d) = leaveOrphan p d := by
  simp [leaveOrphan]

/-- Steps T2 and T3 with the callback's return between them: from the end of T1 to Idle, memory as it was. -/
theorem run_rearm {s : State} {rest : List Action} (hfatal : s.fatal = false) (hdue : s.slv.handler = .callbackDue)
    (hs : s.sched = [.slave, .callbackReturn, .slave] ++ rest) :
    core.run 3 s = .next { (leaveOrphans s).setBus 2 (rearmed (s.bus 2)) with
      slv := { s.slv with status := .idle, handler := .none }
      rdy := true
      rdyDriven := true
      hist := pinEvents true s ++ (if s.slv.cb.isSome then [Event.callback s.cmd] else []) ++ s.hist
      sched := rest } := by
  rw [List.append_assoc]
  exact (run_add (run_callback hfatal hdue hs)).trans (run_succ (k := 0) (step_rearm hfatal rfl rfl))

/-- Step T1 as a frame, of an existing bus 2: what it leaves alone, and the channels as ORPHAN_DMA says. -/
theorem step_transfer_frame {s : State} {rest : List Action} (hnext : EdgeNext s .transfer rest) (h2 : 2 < s.numBus) :
    ∃ u err m writes, step s = .next u ∧ OnlyWrites writes ∧
      u = { s with
        buses := u.buses
        dma := u.dma
        mem := u.mem
        draws := u.draws
        cmd := { s.cmd with err := err }
        hist := writes ++ s.hist
        slv := { s.slv with edgePend := false, handler := .callbackDue }
        sched := rest } ∧
      (∀ c, u.chan c = leaveOrphan s.par (s.chan c)) ∧ (∀ j, j ≠ 2 → u.bus j = s.bus j) ∧
      u.bus 2 = { s.bus 2 with rx := (s.bus 2).rx.drop m } := by
  obtain ⟨err, m, draws, mem, writes, hu, hwrites, -⟩ := step_transfer_eq hnext
  exact ⟨_, err, m, writes, hu, hwrites, rfl, leaveOrphans_chan s, fun j hj => bus_setBus_ne _ _ _ _ hj.symm,
    bus_setBus_self _ _ _ h2⟩

/-- Settles O26: T1 is `step_transfer_frame`, with memory as `step_transfer_mem` says; the rest is `run_rearm`. -/
theorem transferPhaseEndsInIdleWithPinHigh : Obligations.TransferPhaseEndsInIdleWithPinHigh := by
  intro s rest hnext hp h2
  obtain ⟨u, err, m, writes, hu, hwrites, heq, hchan, hothers, hself⟩ := step_transfer_frame hnext h2
  have hhist : u.hist = writes ++ s.hist := by rw [heq]
  have hpin : u.slv.rdyPin = s.slv.rdyPin := by rw [heq]
  obtain ⟨hpar, hnumBus, -⟩ := step_sameParams hu
  have hrun := run_rearm (s := u) (rest := rest) (by rw [heq]; exact hnext.fatal) (by rw [heq]) (by rw [heq])
  refine ⟨u, _, writes, pinEvents true u, hu, (run_succ hu).trans hrun, hwrites, hpin ▸ pinEvents_cases true u,
    by rw [heq], hchan, ?_, fun hop hop' => ?_, fun a dst hdst ha => ?_, fun c => ?_, fun j hj => ?_, ?_⟩
  · rw [List.append_assoc _ writes, ← hhist, heq]
    rfl
  · rcases step_transfer_mem hnext hu with hsame | ⟨dst, ⟨he, -⟩ | ⟨he, -⟩, -⟩
    · exact hsame
    · exact absurd he hop
    · exact absurd he hop'
  · exact step_transfer_byteAt_outside hnext hp.opc hu
      (hdst.imp_right fun ⟨hop, he⟩ => ⟨hop, he.trans (rawAddr_eq hp).symm⟩) ha
  · refine (leaveOrphans_chan u c).trans ?_
    rw [hpar, hchan, leaveOrphan_idem]
    rfl
  · exact (bus_setBus_ne _ _ _ _ hj.symm).trans (hothers j hj)
  · refine (bus_setBus_self (leaveOrphans u) 2 _ (hnumBus ▸ h2)).trans ?_
    rw [hself]
    rfl

end Sys2Proof.Machine

/-! Proofs, 42_slave_fsm.md R190: SLAVE_CONFIG, accepted or aborted. -/

namespace Sys2Proof.Machine

/-- SLAVE_CONFIG past its checks: the whole next state, the pin driven last (42_slave_fsm.md R190, R196). -/
theorem idleRearm_newInstance {s : State} (ip rp ch dbl : Nat) (ptr : Addr) (len : BitVec 32) (cb : Option Nat)
    (hopen : Open s) (h2 : 2 < s.numBus) :
    idleRearm (newInstance ip rp ch dbl ptr len cb s) = { (leaveOrphans s).setBus 2 { s.bus 2 with
        dbl := BitVec.ofNat 6 dbl, dblWritten := true, en := true, tx := [], rx := [], dir := .receiveOnly, outEn := false
        frameBits := BitVec.ofNat 6 dbl, workMode := 0 } with
      slv := ⟨true, .idle, .none, wrap s.par.aw ptr, len, cb, ch, rp, ip, s.par.wmOff, s.par.oeOff, s.par.fsOff, false⟩
      rdy := true
      rdyDriven := true
      hist := [Event.pin rp true, .collab .intcEnable, .collab .intcRegister, .collab .intcSetPriority,
        .collab (.registerEdgeCallback ip), .collab (.setEdgeTriggerRising ip), .collab (.setDriveMode ip false),
        .collab (.setDriveMode rp true), .collab (.clockEnable 2)] ++ s.hist } := by
  obtain ⟨-, hhandler, -⟩ := hopen
  rw [idleRearm_eq, newInstance_eq]
  apply State.eq_of_fields <;> simp [bus_setBus, h2, rearmed, programmed, hhandler, pinEvents]
  intro j
  by_cases hj : 2 = j <;> simp [hj]

/-- Settles O45: the verdicts of `validateSlave_cases`, and what follows each. -/
theorem slaveConfigCreatesInstance : Obligations.SlaveConfigCreatesInstance := by
  intro s ip rp ch dbl ptr len cb hopen
  have hexec : exec (.slaveConfig ip rp ch dbl ptr len cb) s = onVerdict (validateSlave ch dbl s) s
    (.next (idleRearm (newInstance ip rp ch dbl ptr len cb s))) := rfl
  have hdbl := dblLegal_iff dbl
  rw [hexec]
  rcases validateSlave_cases ch dbl s with ⟨-, hclosed⟩ | ⟨hv, -, h2⟩ | ⟨hv, -, h2, hbad⟩ | ⟨hv, -, h2, hd, hch⟩
  · exact absurd hopen hclosed
  · rw [hv]
    exact ⟨fun ⟨h, _⟩ => absurd h (Nat.not_lt.2 h2), fun _ => rfl, fun ⟨h, _⟩ => absurd h (Nat.not_lt.2 h2)⟩
  · rw [hv]
    refine ⟨fun ⟨_, hlo, hhi, hch⟩ => ?_, fun h => absurd h2 (Nat.not_lt.2 h), fun _ => rfl⟩
    rcases hbad with hbad | hbad
    · simp [hdbl.2 ⟨hlo, hhi⟩] at hbad
    · exact absurd hch (Nat.not_lt.2 hbad)
  · rw [hv]
    obtain ⟨hlo, hhi⟩ := hdbl.1 hd
    refine ⟨fun _ => ?_, fun h => absurd h2 (Nat.not_lt.2 h), fun ⟨_, hbad⟩ => by omega⟩
    have hself := fun b => bus_setBus_self (leaveOrphans s) 2 b h2
    refine ⟨_, congrArg Host.Outcome.next (idleRearm_newInstance ip rp ch dbl ptr len cb hopen h2), rfl, fun _ => rfl,
      fun j hj => bus_setBus_ne _ _ _ _ hj.symm, leaveOrphans_chan s, hself _, ?_⟩
    refine (congrArg (fun b : Bus => b.dbl.toNat) (hself _)).trans ?_
    rw [BitVec.toNat_ofNat, Nat.mod_eq_of_lt (by omega)]

end Sys2Proof.Machine

/-! Proofs, 43_slave_ops.md R232 to R242: the setup halves of the wire commands, accepted. -/

namespace Sys2Proof.Machine

/-- A well-formed wire command passes the checks of the Command phase: its descriptor is latched, its setup runs, and the
ready pin goes low last (42_slave_fsm.md R206). -/
theorem exec_of_wellFormed {i : Instr} {addr : BitVec 32} {len : BitVec 16} {sum : Byte}
    (hi : i ∈ wireCommands addr len sum) {s : State} (hs : s.slv.status ≠ .transfer)
    (hw : WellFormed s.par.opc i = true) :
    exec i s = .next (pinSet false (setupOf i (accepted (opcodeOf s.par.opc i) addr len s))) := by
  obtain ⟨hsum, hlen⟩ := (wellFormed_iff_of_mem hi).1 hw
  rw [exec_command hi hs, commandPhase_accept hsum fun hn => of_decide_eq_true (hlen hn)]
  rfl

/-! ### Commands of at most eight bytes -/

/-- Settles O19: the setup is a preload from the address the command computes, and `preload_eq` says what it leaves: eight
bytes are at most eight units, and find room. -/
theorem readCommandPreloadsTransmitFifo : Obligations.ReadCommandPreloadsTransmitFifo := by
  intro s addr len sum i src hcmd hs hw hp h2
  obtain ⟨hi, hnonBlock⟩ : i ∈ wireCommands addr len sum ∧ nonBlockOf i = true := by
    rcases hcmd with ⟨rfl, -⟩ | ⟨rfl, -⟩ <;> simp [wireCommands, nonBlockOf]
  obtain ⟨-, hshort⟩ := (wellFormed_iff_of_mem hi).1 hw
  let u := accepted (opcodeOf s.par.opc i) addr len s
  have hsetup : setupOf i u = preload src u := by
    rcases hcmd with ⟨rfl, rfl⟩ | ⟨rfl, rfl⟩
    · rfl
    · exact congrArg (preload · u) (rawAddr_eq (s := u) hp)
  have hlen : decodedLen len ≤ 8 := of_decide_eq_true (hshort hnonBlock)
  have hcount : unitCount u = decodedLen len / frameWidth 2 s := unitCount_accepted _ addr len s
  have hroom : unitCount u ≤ 32 := hcount ▸ (Nat.div_le_self _ _).trans (by omega)
  obtain ⟨reads, hreads, hpreload⟩ := preload_eq src u hroom
  rw [exec_of_wellFormed hi hs hw, hsetup, hpreload, hcount, pinSet_eq]
  exact ⟨_, reads, pinEvents false u, rfl, hreads, pinEvents_cases false u, by rw [List.append_assoc]; rfl, fun _ => rfl,
    fun j hj => bus_setBus_ne _ _ _ _ hj.symm, bus_setBus_self _ _ _ h2⟩

/-- Settles O20: the setup programs bus 2 and does nothing else. -/
theorem writeCommandProgramsReception : Obligations.WriteCommandProgramsReception := by
  intro s addr len sum i hcmd hs hw h2
  let u := accepted (opcodeOf s.par.opc i) addr len s
  have hi : i ∈ wireCommands addr len sum := by rcases hcmd with rfl | rfl <;> simp [wireCommands]
  have hsetup : setupOf i u = receive u := by rcases hcmd with rfl | rfl <;> rfl
  rw [exec_of_wellFormed hi hs hw, hsetup, receive, ctrlProgram_eq, pinSet_eq]
  exact ⟨_, pinEvents false u, rfl, pinEvents_cases false u, rfl, fun _ => rfl,
    fun j hj => bus_setBus_ne _ _ _ _ hj.symm, bus_setBus_self _ _ _ h2⟩

/-! ### Block commands -/

/-- The setup of a block command, whichever it is (44_dma.md R271 to R274): bus 2, channel DMA_CH, two events; the source
and the destination by the direction. -/
theorem setupOf_block {i : Instr} {addr : BitVec 32} {len : BitVec 16} {sum : Byte} {read : Bool}
    (hcmd : (i = .readDataBlock addr len sum ∧ read = true) ∨ (i = .writeDataBlock addr len sum ∧ read = false))
    (op : Byte) {s : State} (hp : s.par.Legal) :
    ∃ src dst srcMode dstMode,
      (read = true → src = .mem addr.toNat ∧ dst = .dr 2 ∧ srcMode = .increment ∧ dstMode = .fixed) ∧
      (read = false → src = .dr 2 ∧ dst = .mem (addr.toNat / 16 * 16) ∧ srcMode = .fixed ∧ dstMode = .increment) ∧
      setupOf i (accepted op addr len s) =
        { ((accepted op addr len s).setBus 2
              (programmed (if read then .transmitOnly else .receiveOnly) read 32 (s.bus 2))).setChan s.slv.dmaCh
            ⟨reqLine s.par 2 (if read then .tx else .rx), true, src, dst, srcMode, dstMode, 4, 32, decodedLen len * 4,
              false⟩ with
          hist := .dmaArmed s.slv.dmaCh src dst srcMode dstMode 4 32 (decodedLen len * 4)
            :: .collab (.dmaSelect s.slv.dmaCh (reqLine s.par 2 (if read then .tx else .rx))) :: s.hist } := by
  have hlen : (accepted op addr len s).cmd.len.toNat = decodedLen len := latchCommand_len op addr len s
  rcases hcmd with ⟨rfl, rfl⟩ | ⟨rfl, rfl⟩
  · refine ⟨_, _, _, _, fun _ => ⟨rfl, rfl, rfl, rfl⟩, fun h => (nomatch h), (armRead_eq _).trans ?_⟩
    rw [rawAddr_eq (s := accepted op addr len s) hp, hlen]
    rfl
  · refine ⟨_, _, _, _, fun h => (nomatch h), fun _ => ⟨rfl, rfl, rfl, rfl⟩, (armWrite_eq _).trans ?_⟩
    rw [blockAddr_eq (s := accepted op addr len s) hp, hlen]
    rfl

/-- Settles O21: `setupOf_block`; the request line is of no other bus or direction because legal lines are injective. -/
theorem blockCommandArmsChannel : Obligations.BlockCommandArmsChannel := by
  intro s addr len sum i read hcmd hs hw hp h2 hch
  let u := accepted (opcodeOf s.par.opc i) addr len s
  have hi : i ∈ wireCommands addr len sum := by rcases hcmd with ⟨rfl, -⟩ | ⟨rfl, -⟩ <;> simp [wireCommands]
  obtain ⟨src, dst, srcMode, dstMode, hread, hwrite, hsetup⟩ := setupOf_block hcmd (opcodeOf s.par.opc i) hp
  have hdefault : s.par.reqLines = [] → reqLine s.par 2 (if read then .tx else .rx) = if read then 5 else 4 := by
    intro hlines
    cases read <;> simp [reqLine, hlines]
  rw [exec_of_wellFormed hi hs hw, hsetup, pinSet_eq]
  exact ⟨_, pinEvents false u, src, dst, srcMode, dstMode, _, rfl, pinEvents_cases false u, hread, hwrite, rfl,
    fun bus dir => hp.lines bus dir 2 _, hdefault, rfl, fun _ => rfl, fun c hc => chan_setChan_ne _ _ _ _ hc.symm,
    chan_setChan_self _ _ _ hch, fun j hj => bus_setBus_ne _ _ _ _ hj.symm, bus_setBus_self _ _ _ h2⟩

end Sys2Proof.Machine

/-! Proofs, 43_slave_ops.md R232 to R238, R250, R252: the completion halves of the non-block commands, step T1. -/

namespace Sys2Proof.Machine

/-- The check of the byte-register reads writes the error code, nothing else (43_slave_ops.md R250). -/
theorem checkTx_eq (s : State) :
    checkTx s = { s with cmd := { s.cmd with err := if (s.bus 2).tx = [] then s.cmd.err else s.par.errTx } } := by
  rw [checkTx, failWith_eq]
  simp [txLevel]

/-- The check of the byte-register writes, likewise. -/
theorem checkRx_eq (s : State) :
    checkRx s
      = { s with cmd := { s.cmd with err := if (s.bus 2).rx.length < unitCount s then s.par.errRx else s.cmd.err } } := by
  rw [checkRx, failWith_eq]
  simp only [decide_eq_true_eq]
  rfl

/-- Settles O23: T1 is the check of the transmit FIFO alone, `checkTx_eq`. -/
theorem readCommandChecksTransmitFifoDrained : Obligations.ReadCommandChecksTransmitFifoDrained := by
  intro s addr len sum i hcmd hs
  have hi : i ∈ wireCommands addr len sum := by rcases hcmd with rfl | rfl <;> simp [wireCommands]
  have hcheck : completionOf i s = checkTx s := by rcases hcmd with rfl | rfl <;> rfl
  rw [exec_transfer hi hs, hcheck, checkTx_eq, endT1_eq]
  exact ⟨_, rfl, rfl, leaveOrphans_chan s⟩

/-- Settles O24: T1 is the check of the receive FIFO, `checkRx_eq`, and the commit, `commit_eq`, to the address the command
computes; what it stores past the entries present are draws. -/
theorem writeCommandCommitsUnits : Obligations.WriteCommandCommitsUnits := by
  intro s addr len sum i dst hcmd hs hp w n
  have hi : i ∈ wireCommands addr len sum := by rcases hcmd with ⟨rfl, -⟩ | ⟨rfl, -⟩ <;> simp [wireCommands]
  have hcommit : completionOf i s = commit dst (checkRx s) := by
    rcases hcmd with ⟨rfl, rfl⟩ | ⟨rfl, rfl⟩
    · rfl
    · exact congrArg (commit · (checkRx s)) (rawAddr_eq hp)
  obtain ⟨writes, hwrites, he⟩ := commit_eq dst (checkRx s)
  rw [checkRx_eq] at he
  rw [exec_transfer hi hs, hcommit, checkRx_eq, he, endT1_eq]
  refine ⟨_, writes, (List.range (n - (s.bus 2).rx.length)).map fun k => Config.drawEntry (s.draws + k), rfl, hwrites,
    by simp, rfl, rfl, fun a ha => ?_, leaveOrphans_chan s, fun j hj => bus_setBus_ne _ _ _ _ hj.symm,
    bus_setBus_drop s 2 n⟩
  exact byteAt_withUnits_outside _ _ _ _ _ _ _ (by rwa [poppedEntries_length])

end Sys2Proof.Machine

/-! Proofs, 44_dma.md R272 to R279: the byte count of a block transfer, its beats, and the check of its done bit. -/

namespace Sys2Proof.Machine

/-! ### The byte count -/

/-- The transfer a block command arms has four bytes per unit of the descriptor's length, and its setup leaves the
descriptor as it is (44_dma.md R272). -/
theorem setupOf_block_rem {i : Instr} {addr : BitVec 32} {len : BitVec 16} {sum : Byte}
    (hcmd : i = .readDataBlock addr len sum ∨ i = .writeDataBlock addr len sum) {s : State}
    (hch : s.slv.dmaCh < s.numDmaCh) :
    ((setupOf i s).chan s.slv.dmaCh).rem = s.cmd.len.toNat * 4 ∧ (setupOf i s).cmd = s.cmd := by
  rcases hcmd with rfl | rfl
  · simp only [setupOf, armRead_eq]
    exact ⟨congrArg DmaChannel.rem (chan_setChan_self _ _ _ hch), rfl⟩
  · simp only [setupOf, armWrite_eq]
    exact ⟨congrArg DmaChannel.rem (chan_setChan_self _ _ _ hch), rfl⟩

/-- A well-formed block command arms a transfer of four bytes per unit of its decoded length, which is the descriptor's
(42_slave_fsm.md R203, 44_dma.md R272). -/
theorem exec_block_rem {i : Instr} {addr : BitVec 32} {len : BitVec 16} {sum : Byte}
    (hcmd : i = .readDataBlock addr len sum ∨ i = .writeDataBlock addr len sum) {s : State}
    (hs : s.slv.status ≠ .transfer) (hw : WellFormed s.par.opc i = true) (hch : s.slv.dmaCh < s.numDmaCh) :
    ∃ t, exec i s = .next t ∧ (t.chan s.slv.dmaCh).rem = decodedLen len * 4 ∧ t.cmd.len.toNat = decodedLen len := by
  have hi : i ∈ wireCommands addr len sum := by rcases hcmd with rfl | rfl <;> simp [wireCommands]
  let u := accepted (opcodeOf s.par.opc i) addr len s
  have hlen : u.cmd.len.toNat = decodedLen len := latchCommand_len _ addr len s
  obtain ⟨hrem, hdescriptor⟩ := setupOf_block_rem hcmd (s := u) hch
  rw [exec_of_wellFormed hi hs hw, pinSet_eq]
  exact ⟨_, rfl, hlen ▸ hrem, (congrArg (·.len.toNat) hdescriptor).trans hlen⟩

/-- Settles O22: the count is four times the decoded length (`exec_block_rem`), which is 1 to 65536. -/
theorem blockByteCountIsFourTimesLength : Obligations.BlockByteCountIsFourTimesLength := by
  intro s addr len sum i hcmd hs hw hch
  obtain ⟨t, hexec, hrem, hlen⟩ := exec_block_rem hcmd hs hw hch
  have hpos := decodedLen_pos len
  have hle := decodedLen_le len
  refine ⟨t, hexec, ?_⟩
  rw [hrem, hlen]
  refine ⟨rfl, by omega, by omega, by omega, by omega, ?_, ?_⟩
  · rintro rfl; rfl
  · rintro rfl; rfl

/-! ### Beats -/

/-- What is left of an armed channel after a beat: the last beat sets done and disarms (44_dma.md R275, R276). -/
theorem endBeat_eq {d : DmaChannel} (h : d.armed = true) :
    endBeat d = { d with
      rem := d.rem - 4, done := if d.rem ≤ 4 then true else d.done, armed := decide (4 < d.rem) } := by
  by_cases hlast : d.rem ≤ 4
  · simp [endBeat, hlast, Nat.not_lt.2 hlast]
  · simp [endBeat, h, hlast, Nat.not_le.1 hlast, Nat.sub_eq_zero_iff_le]

/-- A beat that is enabled in either direction is made: the bytes to go become fewer. -/
theorem dmaBeat_ne_self {c : Nat} {s : State} {a : Addr} (hc : c < s.numDmaCh) (harmed : (s.chan c).armed = true)
    (hrem : 0 < (s.chan c).rem) (hen : (s.bus 2).en = true)
    (hends : ((s.chan c).src = .dr 2 ∧ (s.chan c).dst = .mem a ∧ (s.bus 2).rx ≠ []) ∨
      ((s.chan c).src = .mem a ∧ (s.chan c).dst = .dr 2 ∧ (s.bus 2).tx.length < 32)) :
    dmaBeat c s ≠ s := by
  have hfewer : ((dmaBeat c s).chan c).rem = (s.chan c).rem - 4 := by
    rcases hends with ⟨hsrc, hdst, hrx⟩ | ⟨hsrc, hdst, htx⟩
    · simp [dmaBeat, harmed, hrem, hen, hsrc, hdst, rxLevel, List.length_pos_iff, hrx, rxPop_eq, memWrite, hc, endBeat]
    · simp [dmaBeat, harmed, hrem, hen, hsrc, hdst, txLevel, htx, Config.fifoDepth, memRead, txPush_eq, hc, endBeat]
  intro hsame
  rw [hsame] at hfewer
  omega

/-- Settles O47: the beat is the second case of `dmaBeat_cases`, and the rules of `storeBytes` say where its bytes stand. -/
theorem dmaBeatWritesMemory : Obligations.DmaBeatWritesMemory := by
  intro s c dst e es rest hp hc hs harmed hsrc hdst hmode hrem hen hrx
  have hword : 4 ≤ 2 ^ s.par.aw := frameBytes_le_two_pow_aw hp 32
  rw [step_of_sched hs, turn]
  rcases dmaBeat_cases c (s.setSched rest) with hsame | ⟨-, -, -, ⟨a, e', es', -, hdst', hrx', he⟩ | ⟨a, hsrc', -⟩⟩
  · exact absurd hsame (dmaBeat_ne_self hc harmed hrem hen (.inl ⟨hsrc, hdst, by simp [hrx]⟩))
  · obtain rfl : dst = a := DmaEnd.mem.inj (hdst.symm.trans hdst')
    obtain ⟨rfl, rfl⟩ := List.cons.inj (hrx.symm.trans hrx')
    rw [he]
    refine ⟨_, rfl, rfl, byteAt_storeBytes_inside _ s.mem dst 4 e hword,
      fun x hx => byteAt_storeBytes_outside _ s.mem dst x 4 e hx, fun j hj => bus_setBus_ne _ _ _ _ hj.symm,
      bus_setBus_self _ _ _ (lt_of_en hen), fun d hd => chan_setChan_ne _ _ _ _ hd.symm,
      (chan_setChan_self _ _ _ hc).trans ?_⟩
    simp [endBeat_eq, harmed, hmode, beatAddr]
  · cases hsrc.symm.trans hsrc'

/-- Settles O48: the beat is the third case of `dmaBeat_cases`. -/
theorem dmaBeatFillsTransmitFifo : Obligations.DmaBeatFillsTransmitFifo := by
  intro s c src rest hc hs harmed hsrc hdst hmode hrem hen htx
  rw [step_of_sched hs, turn]
  rcases dmaBeat_cases c (s.setSched rest) with hsame | ⟨-, -, -, ⟨a, e, es, hsrc', -⟩ | ⟨a, hsrc', -, -, he⟩⟩
  · exact absurd hsame (dmaBeat_ne_self hc harmed hrem hen (.inr ⟨hsrc, hdst, htx⟩))
  · cases hsrc.symm.trans hsrc'
  · obtain rfl : src = a := DmaEnd.mem.inj (hsrc.symm.trans hsrc')
    rw [he]
    refine ⟨_, rfl, rfl, fun _ => rfl, fun j hj => bus_setBus_ne _ _ _ _ hj.symm, bus_setBus_self _ _ _ (lt_of_en hen),
      fun d hd => chan_setChan_ne _ _ _ _ hd.symm, (chan_setChan_self _ _ _ hc).trans ?_⟩
    simp [endBeat_eq, harmed, hmode, beatAddr]

/-! ### The closing edge -/

/-- The check of the block commands writes the error code, nothing else (44_dma.md R277). -/
theorem checkDma_eq (s : State) :
    checkDma s = { s with cmd := { s.cmd with err := if (s.chan s.slv.dmaCh).done then s.cmd.err else 3 } } := by
  rw [checkDma, failWith_eq, dmaDone]
  cases (s.chan s.slv.dmaCh).done <;> rfl

/-- Settles O25: T1 is the read of the done bit alone, `checkDma_eq`; a channel that it disarms makes no beat. -/
theorem blockCommandReadsDoneBitOnce : Obligations.BlockCommandReadsDoneBitOnce := by
  intro s addr len sum i hcmd hs
  have hi : i ∈ wireCommands addr len sum := by rcases hcmd with rfl | rfl <;> simp [wireCommands]
  have hcheck : completionOf i s = checkDma s := by rcases hcmd with rfl | rfl <;> rfl
  rw [exec_transfer hi hs, hcheck, checkDma_eq, endT1_eq]
  exact ⟨_, rfl, rfl, leaveOrphans_chan s, fun hstop c =>
    dmaBeat_unarmed ((congrArg DmaChannel.armed (leaveOrphans_chan s c)).trans (leaveOrphan_stopped hstop _))⟩

end Sys2Proof.Machine

/-! Proofs, 45_handshake.md R290, R293, R294: the ready pin is never read and is written at two places; edges merge. -/

namespace Sys2Proof.Machine

/-! ### The pin is never read -/

/-- Writing the pin and the history gives a state that differs in nothing else. -/
theorem sameButPin_withPin (s : State) (rdy driven : Bool) (hist : List Event) :
    SameButPin s { s with rdy := rdy, rdyDriven := driven, hist := hist } :=
  ⟨rfl, rfl, rfl, rfl, rfl, rfl, rfl, rfl, rfl, rfl, rfl, rfl⟩

/-- A state that differs only in the pin and the history is the other one with these written. -/
theorem SameButPin.eq_withPin {s t : State} (h : SameButPin s t) :
    t = { s with rdy := t.rdy, rdyDriven := t.rdyDriven, hist := t.hist } := by
  obtain ⟨⟩ := t
  obtain ⟨rfl, rfl, rfl, rfl, rfl, rfl, rfl, rfl, rfl, rfl, rfl, rfl⟩ := h
  rfl

/-- An outcome that is the same as a next state, but for the pin and the history, is a next state too. -/
theorem SameOutcome.exists_next {s : State} {o : Host.Outcome State Fault Refusal} (h : SameOutcome (.next s) o) :
    ∃ t, o = .next t ∧ SameButPin s t := by
  cases o with
  | next t => exact ⟨t, rfl, h⟩
  | fault => exact h.elim
  | refused => exact h.elim

/-- Settles O59: states that agree but for the pin and the history step to such states (`SameOutcome.step`). -/
theorem readyPinIsNeverRead : Obligations.ReadyPinIsNeverRead := by
  intro s t rdy driven hist ht
  have hsame := SameOutcome.step (sameButPin_withPin s rdy driven hist)
  rw [ht] at hsame
  obtain ⟨u, hu, htu⟩ := hsame.exists_next
  exact ⟨u.rdy, u.rdyDriven, u.hist, hu.trans (congrArg _ htu.eq_withPin)⟩

/-! ### The pin is written at two places -/

/-- A return to Idle that changes the pin drives it high, last (42_slave_fsm.md R196). -/
theorem idleRearm_pin {s : State} (h : (idleRearm s).rdy ≠ s.rdy) :
    (idleRearm s).hist.head? = some (.pin (idleRearm s).slv.rdyPin (idleRearm s).rdy) ∧
      (idleRearm s).rdy = true ∧ (idleRearm s).slv.status = .idle := by
  rw [idleRearm_eq] at h ⊢
  rw [pinEvents_head (Ne.symm h)]
  exact ⟨rfl, rfl, rfl⟩

/-- The one request that can change the pin is SLAVE_CONFIG, by the return to Idle that ends it (42_slave_fsm.md R190). -/
theorem request_pin {bytes : List Byte} {s t : State} (ht : request bytes s = .next t) (hpin : t.rdy ≠ s.rdy) :
    t.hist.head? = some (.pin t.slv.rdyPin t.rdy) ∧ t.rdy = true ∧ t.slv.status = .idle := by
  rcases request_cases bytes s with he | ⟨i, -, hi, he⟩ <;> rw [he] at ht
  · cases ht; exact absurd rfl hpin
  rcases exec_request_cases hi s with hx | ⟨c, -, hx⟩ | ⟨bus, b, m, evs, -, -, hx⟩ |
    ⟨ip, rp, ch, dbl, ptr, len, cb, -, hx⟩ | ⟨bus, cs, p, n, q, m, -, -, -, -, -, hx⟩ <;> rw [hx] at ht <;> cases ht
  · exact absurd rfl hpin
  · exact absurd rfl hpin
  · exact absurd rfl hpin
  · have hrdy : (newInstance ip rp ch dbl ptr len cb s).rdy = s.rdy := by rw [newInstance_eq]; rfl
    exact idleRearm_pin fun hsame => hpin (hsame.trans hrdy)

/-- Settles O58: SLAVE changes the pin as `SlaveFrame.pin` says, a request as `request_pin` says, no other turn does. -/
theorem readyPinWrittenAtTwoPlaces : Obligations.ReadyPinWrittenAtTwoPlaces := by
  intro s t ht hpin
  cases hs : s.sched with
  | nil =>
    rw [step_of_nil hs] at ht
    cases ht; exact absurd rfl hpin
  | cons a rest =>
    by_cases hslave : a = .slave
    · subst hslave
      obtain ⟨u, hu, hframe⟩ := step_slave_frame hs
      obtain rfl := Host.Outcome.next.inj (hu.symm.trans ht)
      obtain ⟨hhead, hhigh | ⟨hlow, htransfer, hcommand⟩⟩ := hframe.pin hpin
      · exact ⟨hhead, .inl hhigh⟩
      · exact ⟨hhead, .inr ⟨hlow, htransfer, hcommand, rest, rfl⟩⟩
    rw [step_of_sched hs] at ht
    by_cases hrequest : ∃ bytes, a = .request bytes
    · obtain ⟨bytes, rfl⟩ := hrequest
      obtain ⟨hhead, hhigh⟩ := request_pin ht hpin
      exact ⟨hhead, .inl hhigh⟩
    · obtain ⟨u, hu, hframe⟩ := turn_frame a (s.setSched rest) hslave (not_exists.1 hrequest)
      obtain rfl := Host.Outcome.next.inj (hu.symm.trans ht)
      exact absurd hframe.rdy hpin

/-! ### Edges -/

/-- A turn in which REMOTE raises an edge (45_handshake.md R294). -/
theorem step_raiseEdge {s : State} {rest : List Action} (hs : s.sched = .edge :: rest) :
    step s = .next { s with
      slv := { s.slv with edgePend := s.slv.active || s.slv.edgePend }, hist := .edge :: s.hist, sched := rest } := by
  rw [step_of_sched hs, turn, raiseEdge_eq]
  rfl

/-- Settles O46: latching an edge twice is latching it once. -/
theorem edgeLatchedOnceWhileActive : Obligations.EdgeLatchedOnceWhileActive := by
  intro s rest hs
  have hmerge : (s.slv.active || (s.slv.active || s.slv.edgePend)) = (s.slv.active || s.slv.edgePend) := by
    rw [← Bool.or_assoc, Bool.or_self]
  rw [run_succ (step_raiseEdge hs), run_succ (step_raiseEdge rfl), run_zero, hmerge]

end Sys2Proof.Machine

/-! Proofs, 60_exceptions.md R301, R305, R306: a closed engine turns requests away; FATAL halts the agents of the engine, and
neither it nor the history is ever cleared. -/

namespace Sys2Proof.Machine

/-! ### A closed engine -/

/-- Settles O32: whatever else a request can do, it does on an open engine (`exec_request_cases`). -/
theorem closedEngineTurnsRequestsAway : Obligations.ClosedEngineTurnsRequestsAway := by
  intro s i hi hclosed
  rcases exec_request_cases hi s with he | ⟨c, hopen, -⟩ | ⟨bus, b, m, evs, -, hopen, -⟩ |
    ⟨ip, rp, ch, dbl, ptr, len, cb, hopen, -⟩ | ⟨bus, cs, p, n, q, m, -, hopen, -⟩
  · exact he
  all_goals exact absurd hopen hclosed

/-- The host's turn on a closed engine changes nothing, whether its bytes are a record or not. -/
theorem request_of_closed {s : State} (hclosed : ¬ Open s) (bytes : List Byte) : request bytes s = .next s := by
  rcases request_cases bytes s with he | ⟨i, -, hi, he⟩ <;> rw [he]
  exact closedEngineTurnsRequestsAway s i hi hclosed

/-! ### A halted engine -/

theorem not_open_of_fatal {s : State} (hfatal : s.fatal = true) : ¬ Open s := by
  rintro ⟨hrunning, -⟩
  exact Bool.false_ne_true (hrunning.symm.trans hfatal)

theorem masterStep_of_fatal {s : State} (hfatal : s.fatal = true) : masterStep s = s := by
  rw [masterStep_eq, if_pos hfatal]

theorem slaveStep_of_fatal {s : State} (hfatal : s.fatal = true) : slaveStep s = .next s := by
  rw [slaveStep, if_pos hfatal]

/-- Settles O56: each agent of the engine is held by FATAL; the edge is REMOTE's (`step_raiseEdge`). -/
theorem fatalHaltsEngineAgents : Obligations.FatalHaltsEngineAgents := by
  intro s a rest hfatal hs
  have hhalted : (s.setSched rest).fatal = true := hfatal
  refine ⟨?_, ?_⟩
  · rw [step_of_sched hs]
    rintro (⟨bytes, rfl⟩ | rfl | rfl)
    · exact request_of_closed (not_open_of_fatal hhalted) bytes
    · exact congrArg _ (masterStep_of_fatal hhalted)
    · exact slaveStep_of_fatal hhalted
  · rintro rfl
    exact ⟨_, step_raiseEdge hs, fun hactive => by simp [hactive], rfl⟩

/-! ### FATAL and the history are never cleared -/

/-- FATAL, once set, stays set with its cause, and the history only grows. -/
structure NeverCleared (s t : State) : Prop where
  fatal : s.fatal = true → t.fatal = true ∧ t.fatalCause = s.fatalCause
  hist : ∃ l, t.hist = l ++ s.hist

theorem NeverCleared.refl (s : State) : NeverCleared s s := ⟨fun hfatal => ⟨hfatal, rfl⟩, [], rfl⟩

theorem SlaveFrame.neverCleared {s t : State} (h : SlaveFrame s t) : NeverCleared s t :=
  ⟨fun hfatal => ⟨h.fatal.trans hfatal, h.fatalCause⟩, h.hist⟩

theorem OutsideFrame.neverCleared {s t : State} (h : OutsideFrame s t) : NeverCleared s t :=
  ⟨fun hfatal => ⟨h.fatal.trans hfatal, h.fatalCause⟩, h.hist⟩

/-- An accepted SLAVE_CONFIG adds its collaborator calls to the history, and its return to Idle the pin event, if one. -/
theorem idleRearm_newInstance_hist (ip rp ch dbl : Nat) (ptr : Addr) (len : BitVec 32) (cb : Option Nat) (s : State) :
    ∃ l, (idleRearm (newInstance ip rp ch dbl ptr len cb s)).hist = l ++ s.hist := by
  rw [idleRearm_eq, newInstance_eq]
  exact ⟨_, (List.append_assoc _ _ _).symm⟩

/-- A request adds to the history: an abort, or the calls of a configuration and the pin event that ends SLAVE_CONFIG. -/
theorem exec_request_hist {i : Instr} (hi : i.format = .hreq) {s t : State} (h : exec i s = .next t) :
    ∃ l, t.hist = l ++ s.hist := by
  rcases exec_request_cases hi s with he | ⟨c, -, he⟩ | ⟨bus, b, m, evs, -, -, he⟩ |
    ⟨ip, rp, ch, dbl, ptr, len, cb, -, he⟩ | ⟨bus, cs, p, n, q, m, -, -, -, -, -, he⟩ <;> rw [he] at h <;> cases h
  · exact ⟨[], rfl⟩
  · exact ⟨[_], rfl⟩
  · exact ⟨evs, rfl⟩
  · exact idleRearm_newInstance_hist ip rp ch dbl ptr len cb s

/-- The host's turn clears nothing: on a halted engine it changes nothing at all (`request_of_closed`). -/
theorem request_neverCleared {bytes : List Byte} {s t : State} (h : request bytes s = .next t) : NeverCleared s t := by
  constructor
  · intro hfatal
    rw [request_of_closed (not_open_of_fatal hfatal)] at h
    cases h; exact ⟨hfatal, rfl⟩
  · rcases request_cases bytes s with he | ⟨i, -, hi, he⟩ <;> rw [he] at h
    · cases h; exact ⟨[], rfl⟩
    · exact exec_request_hist hi h

/-- Everything a step can be: no turn at all, a turn of SLAVE, the host's request, or any other turn. -/
theorem step_cases {s t : State} (h : step s = .next t) :
    t = s ∨ SlaveFrame s t ∨ ∃ rest, (∃ bytes, request bytes (s.setSched rest) = .next t) ∨
      OutsideFrame (s.setSched rest) t := by
  cases hs : s.sched with
  | nil =>
    rw [step_of_nil hs] at h
    cases h; exact .inl rfl
  | cons a rest =>
    by_cases hslave : a = .slave
    · obtain ⟨u, hu, hframe⟩ := step_slave_frame (hslave ▸ hs)
      obtain rfl := Host.Outcome.next.inj (hu.symm.trans h)
      exact .inr (.inl hframe)
    rw [step_of_sched hs] at h
    refine .inr (.inr ⟨rest, ?_⟩)
    by_cases hrequest : ∃ bytes, a = .request bytes
    · obtain ⟨bytes, rfl⟩ := hrequest
      exact .inl ⟨bytes, h⟩
    · obtain ⟨u, hu, hframe⟩ := turn_frame a (s.setSched rest) hslave (not_exists.1 hrequest)
      obtain rfl := Host.Outcome.next.inj (hu.symm.trans h)
      exact .inr hframe

/-- Every step clears nothing: by the agent whose turn it is; taking the turn off the schedule writes neither. -/
theorem step_neverCleared {s t : State} (h : step s = .next t) : NeverCleared s t := by
  rcases step_cases h with rfl | hslave | ⟨rest, ⟨bytes, hrequest⟩ | houtside⟩
  · exact .refl t
  · exact hslave.neverCleared
  · obtain ⟨hfatal, hhist⟩ := request_neverCleared hrequest
    exact ⟨hfatal, hhist⟩
  · obtain ⟨hfatal, hhist⟩ := houtside.neverCleared
    exact ⟨hfatal, hhist⟩

/-- Settles O55: the turn of each agent clears neither (`step_neverCleared`). -/
theorem fatalAndHistoryAreNeverCleared : Obligations.FatalAndHistoryAreNeverCleared := by
  intro s t h
  obtain ⟨hfatal, hhist⟩ := step_neverCleared h
  exact ⟨hfatal, hhist⟩

end Sys2Proof.Machine

/-! Proofs, 30_encoding.md R91, R102: bytes that decode are the encoding of what they decode to; words of the spec decode. -/

namespace Sys2Proof

/-- A record that decodes is the record of a well-formed request: it is its words, and these are the request's. -/
theorem decodeRequest_ok {o : Opc} {bytes : List Byte} {i : Instr} (h : decodeRequest bytes = .ok i) :
    requestBytes i = bytes ∧ WellFormed o i = true := by
  unfold decodeRequest at h
  split at h
  next hlen =>
    obtain ⟨hbytes, -, hfit⟩ := flatMap_wordsOf 9 bytes hlen
    obtain ⟨-, hwords, hwf⟩ := decodeWords_ok (o := o) h hfit
    exact ⟨by rw [requestBytes, hwords, hbytes], hwf⟩
  next => cases h

/-- Settles O2: a header by `decodeHeader_ok`, a record by `decodeRequest_ok`. -/
theorem encodeOfDecodeGivesBytesBack : Obligations.EncodeOfDecodeGivesBytesBack := by
  intro o f bytes i h
  have hformat : i.format = f := decode_format h
  cases f with
  | hdr =>
    obtain ⟨-, henc⟩ := decodeHeader_ok h
    exact ⟨hformat, henc, nofun⟩
  | hreq =>
    obtain ⟨hbytes, hwf⟩ := decodeRequest_ok (o := o) h
    exact ⟨hformat, (encode_request hformat).trans hbytes, fun _ => hwf⟩

/-- Settles O3: five closed decodings, each evaluated. -/
theorem writtenOutWordsDecode : Obligations.WrittenOutWordsDecode :=
  ⟨by decide, by decide, by decide, by decide, by decide⟩

end Sys2Proof

/-! Proofs, 70_reset_and_hazards.md R343, R347: the two roles share no state but memory and the fatal state, and a step stops
only at a master operation on a bus never configured. -/

namespace Sys2Proof.Machine

/-! ### The two roles -/

/-- A step of MASTER does nothing, or, with an operation in progress, writes the bus of that operation, the engine's own
registers, memory, the count of draws and the history (41_master.md R143, 60_exceptions.md R301). -/
theorem masterStep_cases (s : State) :
    masterStep s = s ∨ s.mst.phase ≠ .idle ∧ ∃ b m mem draws evs, masterStep s = { s.setBus s.mst.bus b with
      mst := m, mem := mem, draws := draws, hist := evs ++ s.hist } := by
  rw [masterStep_eq]
  split
  · exact .inl rfl
  · by_cases hidle : s.mst.phase = .idle
    · rw [hidle]; exact .inl rfl
    · exact .inr ⟨hidle, phaseStep_frame s.mst.phase s⟩

/-- Settles O57: a turn of MASTER is `masterStep_cases`, and the bus of an operation in progress is not bus 2
(`MasterGood.busy`); a turn of SLAVE is `step_slave_frame`. -/
theorem rolesShareNoState : Obligations.RolesShareNoState := by
  intro s t rest hinv ht
  constructor
  · intro hs
    obtain rfl : masterStep (s.setSched rest) = t := Host.Outcome.next.inj ((step_of_sched hs).symm.trans ht)
    rcases masterStep_cases (s.setSched rest) with he | ⟨hbusy, b, m, mem, draws, evs, he⟩ <;> rw [he]
    · exact ⟨rfl, rfl, rfl, rfl, rfl, rfl, rfl⟩
    · obtain ⟨-, hbus, -⟩ := hinv.master.busy hbusy
      exact ⟨bus_setBus_ne _ _ _ _ hbus, rfl, rfl, rfl, rfl, rfl, rfl⟩
  · intro hs
    obtain ⟨u, hu, hframe⟩ := step_slave_frame hs
    obtain rfl := Host.Outcome.next.inj (hu.symm.trans ht)
    exact ⟨hframe.mst, hframe.bus, hframe.fatal, hframe.fatalCause⟩

/-! ### The one stop -/

/-- A step goes on, or it is the host's request: no other turn can stop. -/
theorem step_next_or_request (s : State) :
    (∃ t, step s = .next t) ∨
      ∃ bytes rest, s.sched = .request bytes :: rest ∧ step s = request bytes (s.setSched rest) := by
  cases hs : s.sched with
  | nil => exact .inl ⟨s, step_of_nil hs⟩
  | cons a rest =>
    by_cases hslave : a = .slave
    · obtain ⟨t, ht, -⟩ := step_slave_frame (hslave ▸ hs)
      exact .inl ⟨t, ht⟩
    by_cases hrequest : ∃ bytes, a = .request bytes
    · obtain ⟨bytes, rfl⟩ := hrequest
      exact .inr ⟨bytes, rest, rfl, step_of_sched hs⟩
    · obtain ⟨t, ht, -⟩ := turn_frame a (s.setSched rest) hslave (not_exists.1 hrequest)
      exact .inl ⟨t, (step_of_sched hs).trans ht⟩

/-- A request goes on, or it is a master operation, past Validate, that faults on a bus whose DBL no rule wrote. -/
theorem request_next_or_fault (bytes : List Byte) (s : State) :
    (∃ t, request bytes s = .next t) ∨
      ∃ bus cs p n q m i, decode s.par.opc .hreq bytes = .ok i ∧ i ∈ masterOps bus cs p n q m ∧ Open s ∧
        MasterBus s bus ∧ cs < s.par.numCs ∧ (s.bus bus).dblWritten = false ∧
        request bytes s = .fault (.uninitRead bus) := by
  rcases request_cases bytes s with he | ⟨i, hdecode, hi, he⟩ <;> rw [he]
  · exact .inl ⟨s, rfl⟩
  rcases exec_request_cases hi s with hx | ⟨c, -, hx⟩ | ⟨bus, b, m, evs, -, -, hx⟩ |
    ⟨ip, rp, ch, dbl, ptr, len, cb, -, hx⟩ | ⟨bus, cs, p, n, q, m, hop, hopen, hbus, hcs, hdbl, hx⟩
  · exact .inl ⟨_, hx⟩
  · exact .inl ⟨_, hx⟩
  · exact .inl ⟨_, hx⟩
  · exact .inl ⟨_, hx⟩
  · exact .inr ⟨bus, cs, p, n, q, m, i, hdecode, hop, hopen, hbus, hcs, hdbl, hx⟩

/-- Settles O60: only a request can stop (`step_next_or_request`), and only by the one fault (`request_next_or_fault`). -/
theorem stepStopsOnlyOnUnconfiguredBus : Obligations.StepStopsOnlyOnUnconfiguredBus := by
  intro s
  rcases step_next_or_request s with ⟨t, ht⟩ | ⟨bytes, rest, hs, hstep⟩
  · rw [ht]; exact ⟨nofun, nofun⟩
  rw [hstep]
  rcases request_next_or_fault bytes (s.setSched rest) with
    ⟨t, ht⟩ | ⟨bus, cs, p, n, q, m, i, hdecode, hop, hopen, hbus, hcs, hdbl, hfault⟩
  · rw [ht]; exact ⟨nofun, nofun⟩
  · rw [hfault]
    refine ⟨nofun, fun f hf => ?_⟩
    obtain rfl := Host.Outcome.fault.inj hf
    exact ⟨bus, cs, p, n, q, m, i, bytes, rest, rfl, hs, hdecode, hop, hopen, hbus, hcs, hdbl⟩

end Sys2Proof.Machine
